-- ==== Sys2Proof/Word.lean ====
section
/-! DEFINITION. The word types of the core: bytes of the streams, command words and the register data path (R60, R80). -/

namespace Sys2Proof

/-- One byte of a stream or one 8-bit sample (R6, R60). -/
abbrev Byte := BitVec 8

/-- A 32-bit word: a command word (R80), a colour-table entry (R44) or STATUS (R27). -/
abbrev Word32 := BitVec 32

/-- A 64-bit word: the widest register, and the value of a host access (R24, R25, R92). -/
abbrev Word64 := BitVec 64

end Sys2Proof
end

