-- ==== Sys2Proof/Config.lean ====
section
/-! DEFINITION. The parameters of R5 at the spec's values, and the one free value of the model. -/

namespace Sys2Proof.Config

/-- `VARINT_W` (R5, D11). -/
abbrev varintW : Nat := 64

/-- `PAL_MAX` (R5). -/
abbrev palMax : Nat := 8

/-- `RUN_SHORT_MAX` (R5). -/
abbrev runShortMax : Nat := 15

/-- `RUN_MAX` (R5). -/
abbrev runMax : Nat := 4095

/-- `BUCKET_SHIFT` (R5, R11). -/
abbrev bucketShift : Nat := 3

/-- `BUCKET_MAX` (R5). -/
abbrev bucketMax : Nat := 31

/-- `BUCKET_STEP` (R5). -/
abbrev bucketStep : Nat := 8

/-- `PUSH_BUDGET0` (R5). -/
abbrev pushBudget0 : Nat := 1

/-- `PUSH_DARK_LIMIT` (R5). -/
abbrev pushDarkLimit : Nat := 20

/-- `PUSH_CAP` (R5). -/
abbrev pushCap : Nat := 255

/-- `QUANT_DEPTH` (R5). -/
abbrev quantDepth : Nat := 3

/-- `QUANT_TRIM_DIV` (R5). -/
abbrev quantTrimDiv : Nat := 8

/-- `QUANT_SHORTCUT` (R5, C2). -/
abbrev quantShortcut : Nat := 7

/-- FREE VALUE, safe (log 5): what a 64-bit count or offset register (its number is the first
argument) shows when the exact number is 2^64 or more.  The streams are unbounded (R75) and the
registers are 64 bits wide (R23); the spec states no value for this case. -/
opaque wideCount : BitVec 8 → Nat → Word64

end Sys2Proof.Config
end

