-- ==== Sys2Proof/Syntax.lean ====
section
/-! DEFINITION. The commands of the core (R81), its registers (R23), the events of the host interface (R20, R92, R270)
and the host program's lines and pseudo-instructions (R91, R93). -/

namespace Sys2Proof

/-- The commands, one constructor per row of spec/opcode_table.json (R81).  A command's operands are
registers named in its rule; only RPUSH takes something from its word, the modifier EN (R82, R86). -/
inductive Instr where
  | venc
  | vdec
  | quant
  | rdist
  | rpush (en : Bool)
  | inear
  | iexact
  | ctadd
  | ctclr
  | rpack
  | runpk
  | cwhdr
  | cwpix
  | cwrun
  | cwend
  | crhdr
  | crrun
  deriving DecidableEq, Repr

/-- The host-visible registers by name (R23); the element of a register file is an index 0..7. -/
inductive Reg where
  | cmd
  | status
  | errCmd
  | errPos
  | ctrl
  | inData
  | inCnt
  | inPos
  | outData
  | outCnt
  | outTot
  | v
  | cnt
  | rIdx
  | rLen
  | width
  | height
  | alpha
  | sample
  | color
  | idx
  | qPal (i : Fin 8)
  | dPal (i : Fin 8)
  | pPal (i : Fin 8)
  | qLen
  | dLen
  | ppLen
  | ct (i : Fin 8)
  | ctLen
  | cwTot
  | cwCnt
  | cwRIdx
  | cwRLen
  | crRem
  deriving DecidableEq, Repr

/-- What can reach the core from outside: a host operation as the triple of R92, or the hardware
reset of R270. -/
inductive Event where
  /-- Direction W: write `value` to register number `num`. -/
  | write (num : BitVec 8) (value : Word64)
  /-- Direction R: read register number `num`. -/
  | read (num : BitVec 8)
  /-- The hardware reset, applied between two host operations (R270). -/
  | hardReset
  deriving DecidableEq, Repr

/-- A register in a host program: its name or its number (R91). -/
inductive RegRef where
  | named (r : Reg)
  | number (n : Nat)
  deriving DecidableEq, Repr

/-- A line of a host program (R91).  `CMD RPUSH.EN` is `cmd (.rpush true)`. -/
inductive Line where
  | wr (r : RegRef) (value : Nat)
  | rd (r : RegRef)
  | cmd (i : Instr)
  deriving DecidableEq, Repr

/-- The pseudo-instructions of R93. -/
inductive Pseudo where
  | feed (bytes : List Nat)
  | drain
  | vput (n : Nat)
  | setq (entries : List Nat)
  | setd (entries : List Nat)
  | addrgb (r g b : Nat)
  | addtransp
  | pix (i : Nat)
  | pixrun (i n : Nat)
  | clrstreams
  deriving DecidableEq, Repr

end Sys2Proof
end

