-- ==== Sys2Proof/Decode.lean ====
section
/-! DEFINITION. Decoding and encoding of command words (R80-R83), of register numbers (R23) and of host program lines
(R91-R93). -/

namespace Sys2Proof

/-- Why a command word is illegal: the three grounds of R83. -/
inductive DecodeError where
  /-- Bits 31:9 are not all 0. -/
  | reservedBits
  /-- Bits 7:0 are no OP of R81. -/
  | unknownOp
  /-- Bit 8 is set in a word whose OP is not RPUSH's. -/
  | modifierNotAllowed
  deriving DecidableEq, Repr

/-- Field OP, bits 7:0 (R80). -/
def opField (c : Word32) : BitVec 8 := c.extractLsb' 0 8

/-- Field M0, bit 8 (R80). -/
def m0Field (c : Word32) : Bool := c.getLsbD 8

/-- Field RES, bits 31:9 (R80). -/
def resField (c : Word32) : BitVec 23 := c.extractLsb' 9 23

/-- The command an OP selects when M0 is 0 (R81). -/
def instrOfOp (op : BitVec 8) : Option Instr :=
  match op with
  | 0x01#8 => some .venc
  | 0x02#8 => some .vdec
  | 0x10#8 => some .quant
  | 0x20#8 => some .rdist
  | 0x21#8 => some (.rpush false)
  | 0x30#8 => some .inear
  | 0x31#8 => some .iexact
  | 0x32#8 => some .ctadd
  | 0x33#8 => some .ctclr
  | 0x40#8 => some .rpack
  | 0x48#8 => some .runpk
  | 0x50#8 => some .cwhdr
  | 0x51#8 => some .cwpix
  | 0x52#8 => some .cwrun
  | 0x53#8 => some .cwend
  | 0x58#8 => some .crhdr
  | 0x59#8 => some .crrun
  | _ => none

/-- The effect of M0 on the command its OP selects: EN of RPUSH, and not allowed elsewhere (R82). -/
def applyM0 (i : Instr) (m0 : Bool) : Except DecodeError Instr :=
  if m0 then
    (if i = .rpush false then .ok (.rpush true) else .error .modifierNotAllowed)
  else .ok i

/-- Decodes a command word (R80-R83): total, rejecting by the ground of R83. -/
def decode (c : Word32) : Except DecodeError Instr :=
  if resField c ≠ 0 then .error .reservedBits
  else
    match instrOfOp (opField c) with
    | none => .error .unknownOp
    | some i => applyM0 i (m0Field c)

/-- The command word of an instruction (R81, R91). -/
def encode : Instr → Word32
  | .venc => 0x00000001
  | .vdec => 0x00000002
  | .quant => 0x00000010
  | .rdist => 0x00000020
  | .rpush en => if en then 0x00000121 else 0x00000021
  | .inear => 0x00000030
  | .iexact => 0x00000031
  | .ctadd => 0x00000032
  | .ctclr => 0x00000033
  | .rpack => 0x00000040
  | .runpk => 0x00000048
  | .cwhdr => 0x00000050
  | .cwpix => 0x00000051
  | .cwrun => 0x00000052
  | .cwend => 0x00000053
  | .crhdr => 0x00000058
  | .crrun => 0x00000059

/-- The Match column of an instruction's row in R81. -/
def Instr.matchWord : Instr → Word32
  | .venc => 0x00000001
  | .vdec => 0x00000002
  | .quant => 0x00000010
  | .rdist => 0x00000020
  | .rpush _ => 0x00000021
  | .inear => 0x00000030
  | .iexact => 0x00000031
  | .ctadd => 0x00000032
  | .ctclr => 0x00000033
  | .rpack => 0x00000040
  | .runpk => 0x00000048
  | .cwhdr => 0x00000050
  | .cwpix => 0x00000051
  | .cwrun => 0x00000052
  | .cwend => 0x00000053
  | .crhdr => 0x00000058
  | .crrun => 0x00000059

/-- The Mask column of an instruction's row in R81: every bit, but for RPUSH, whose bit 8 is EN. -/
def Instr.maskWord : Instr → Word32
  | .rpush _ => 0xFFFFFEFF
  | .venc | .vdec | .quant | .rdist | .inear | .iexact | .ctadd | .ctclr | .rpack | .runpk
  | .cwhdr | .cwpix | .cwrun | .cwend | .crhdr | .crrun => 0xFFFFFFFF

/-- The instruction the decoder reads from an opcode-table word of `nbits` bits.  A command word is
32 bits written whole (R85), so the word is the table's number itself. -/
def decodeTableWord (nbits w : Nat) : Option Instr :=
  match decode (BitVec.ofNat 32 (w % 2 ^ nbits)) with
  | .ok i => some i
  | .error _ => none

/-- The register number of a register (R23). -/
def Reg.number : Reg → BitVec 8
  | .cmd => 0x00
  | .status => 0x01
  | .errCmd => 0x02
  | .errPos => 0x03
  | .ctrl => 0x04
  | .inData => 0x05
  | .inCnt => 0x06
  | .inPos => 0x07
  | .outData => 0x08
  | .outCnt => 0x09
  | .outTot => 0x0A
  | .v => 0x10
  | .cnt => 0x11
  | .rIdx => 0x12
  | .rLen => 0x13
  | .width => 0x14
  | .height => 0x15
  | .alpha => 0x16
  | .sample => 0x17
  | .color => 0x18
  | .idx => 0x19
  | .qPal i => BitVec.ofNat 8 (0x20 + i.val)
  | .dPal i => BitVec.ofNat 8 (0x28 + i.val)
  | .pPal i => BitVec.ofNat 8 (0x30 + i.val)
  | .qLen => 0x38
  | .dLen => 0x39
  | .ppLen => 0x3A
  | .ct i => BitVec.ofNat 8 (0x40 + i.val)
  | .ctLen => 0x48
  | .cwTot => 0x50
  | .cwCnt => 0x51
  | .cwRIdx => 0x52
  | .cwRLen => 0x53
  | .crRem => 0x58

/-- The register a number names; none for the unmapped numbers (R23). -/
def Reg.ofNumber (num : BitVec 8) : Option Reg :=
  let n := num.toNat
  if 0x20 ≤ n ∧ n < 0x28 then some (.qPal (Fin.ofNat 8 n))
  else if 0x28 ≤ n ∧ n < 0x30 then some (.dPal (Fin.ofNat 8 n))
  else if 0x30 ≤ n ∧ n < 0x38 then some (.pPal (Fin.ofNat 8 n))
  else if 0x40 ≤ n ∧ n < 0x48 then some (.ct (Fin.ofNat 8 n))
  else
    match n with
    | 0x00 => some .cmd
    | 0x01 => some .status
    | 0x02 => some .errCmd
    | 0x03 => some .errPos
    | 0x04 => some .ctrl
    | 0x05 => some .inData
    | 0x06 => some .inCnt
    | 0x07 => some .inPos
    | 0x08 => some .outData
    | 0x09 => some .outCnt
    | 0x0A => some .outTot
    | 0x10 => some .v
    | 0x11 => some .cnt
    | 0x12 => some .rIdx
    | 0x13 => some .rLen
    | 0x14 => some .width
    | 0x15 => some .height
    | 0x16 => some .alpha
    | 0x17 => some .sample
    | 0x18 => some .color
    | 0x19 => some .idx
    | 0x38 => some .qLen
    | 0x39 => some .dLen
    | 0x3A => some .ppLen
    | 0x48 => some .ctLen
    | 0x50 => some .cwTot
    | 0x51 => some .cwCnt
    | 0x52 => some .cwRIdx
    | 0x53 => some .cwRLen
    | 0x58 => some .crRem
    | _ => none

/-- The number a register reference stands for (R91, R92). -/
def RegRef.num : RegRef → BitVec 8
  | .named r => r.number
  | .number n => BitVec.ofNat 8 n

/-- The host operation a line encodes (R92). -/
def Line.event : Line → Event
  | .wr r value => .write r.num (BitVec.ofNat 64 value)
  | .rd r => .read r.num
  | .cmd i => .write Reg.cmd.number ((encode i).setWidth 64)

/-- The lines that set the first entries of a palette register file and its length (SETQ, SETD). -/
def paletteLines (entry : Fin 8 → Reg) (len : Reg) (entries : List Nat) : List Line :=
  ((entries.zipIdx).map fun (e, i) => Line.wr (.named (entry (Fin.ofNat 8 i))) e)
    ++ [.wr (.named len) entries.length]

/-- The expansion of a pseudo-instruction (R93).  `outCnt` is the value of OUTCNT when it starts,
which only DRAIN uses. -/
def Pseudo.lines (outCnt : Nat) : Pseudo → List Line
  | .feed bytes => bytes.map fun b => .wr (.named .inData) b
  | .drain => List.replicate outCnt (.rd (.named .outData))
  | .vput n => [.wr (.named .v) n, .cmd .venc]
  | .setq entries => paletteLines .qPal .qLen entries
  | .setd entries => paletteLines .dPal .dLen entries
  | .addrgb r g b => [.wr (.named .color) (r * 65536 + g * 256 + b), .cmd .ctadd]
  | .addtransp => [.wr (.named .color) 0x1000000, .cmd .ctadd]
  | .pix i => [.wr (.named .idx) i, .cmd .cwpix]
  | .pixrun i n => [.wr (.named .idx) i, .wr (.named .rLen) n, .cmd .cwrun]
  | .clrstreams => [.wr (.named .ctrl) 3]

/-- The host operations of a pseudo-instruction, in order (R92, R93). -/
def Pseudo.events (outCnt : Nat) (p : Pseudo) : List Event := (p.lines outCnt).map Line.event

end Sys2Proof
end

