-- ==== Sys2Proof/Machine/State.lean ====
section
/-! DEFINITION. The state of the core (R21, R23, R45, R46), its reset value (R271), the error kinds (R240), and the reasons
a step could stop. -/

namespace Sys2Proof.Machine

/-- The error kinds (R240). -/
inductive ErrorKind where
  | invalidPalette
  | overflow
  | truncatedInput
  | malformedRunRecord
  | badMagic
  | illegalCommand
  | pixelCountMismatch
  deriving DecidableEq, Repr

/-- `raise E(pos)`: an error kind with the input-stream offset it records (R8, R248). -/
structure Raise where
  kind : ErrorKind
  pos : Nat
  deriving DecidableEq, Repr

/-- The fields of STATUS that are ever written (R27).  The reserved bits and BUSY read 0 and are not
stored (log 7). -/
structure Status where
  /-- ERR, bit 0. -/
  err : Bool
  /-- ERRCODE, bits 7:4. -/
  errCode : BitVec 4
  /-- CWOPEN, bit 8. -/
  cwOpen : Bool
  /-- CROPEN, bit 9. -/
  crOpen : Bool
  deriving DecidableEq, Repr

/-- The state of the core (R21) with the model's own two fields `host` and `reads`. -/
structure State where
  /-- CMD (R26). -/
  cmd : Word32
  /-- STATUS (R27). -/
  status : Status
  /-- ERRCMD (R28). -/
  errCmd : Word32
  /-- ERRPOS (R29), the exact offset; the register shows it through a 64-bit view (log 5). -/
  errPos : Nat
  /-- IN: the bytes appended and not yet consumed, oldest first (R31, R61).  INCNT is its length. -/
  input : List Byte
  /-- INPOS (R31), the exact offset; the register shows it through a 64-bit view (log 5). -/
  inPos : Nat
  /-- OUT: the bytes appended and not yet read by the host, oldest first (R32, R63).  OUTCNT is its
  length. -/
  output : List Byte
  /-- OUTTOT (R32), the exact count; the register shows it through a 64-bit view (log 5). -/
  outTot : Nat
  /-- V (R33). -/
  v : Word64
  /-- CNT (R34). -/
  cnt : Word64
  /-- RIDX (R35). -/
  rIdx : BitVec 3
  /-- RLEN (R35). -/
  rLen : Word64
  /-- WIDTH (R36). -/
  width : Word64
  /-- HEIGHT (R36). -/
  height : Word64
  /-- ALPHA (R37). -/
  alpha : BitVec 1
  /-- SAMPLE (R38). -/
  sample : Byte
  /-- COLOR (R39). -/
  color : BitVec 25
  /-- IDX (R40). -/
  idx : BitVec 4
  /-- QPAL[0..7] (R41). -/
  qPal : Vector Byte 8
  /-- DPAL[0..7] (R42). -/
  dPal : Vector Byte 8
  /-- PPAL[0..7] (R43). -/
  pPal : Vector Byte 8
  /-- QLEN (R41). -/
  qLen : BitVec 4
  /-- DLEN (R42). -/
  dLen : BitVec 4
  /-- PPLEN (R43). -/
  ppLen : BitVec 4
  /-- CT[0..7] (R44). -/
  ct : Vector Word32 8
  /-- CTLEN (R44). -/
  ctLen : BitVec 4
  /-- CWTOT (R45). -/
  cwTot : Word64
  /-- CWCNT (R45). -/
  cwCnt : Word64
  /-- CWRIDX (R45). -/
  cwRIdx : BitVec 3
  /-- CWRLEN (R45). -/
  cwRLen : Word64
  /-- CRREM (R46). -/
  crRem : Word64
  /-- MODEL'S OWN: the host operations and resets still to come, in order (R22, R71; log 1). -/
  host : List Event
  /-- MODEL'S OWN: the values the host's reads returned, oldest first (R25, R91; log 3). -/
  reads : List Word64
  deriving DecidableEq, Repr

/-- Why the machine could stop with a fault.  It has no constructor: the core has no access fault,
no halt and no undefined instruction, and an error is a next state (R24, R25, R83, R251; log 9). -/
inductive Fault where
  deriving DecidableEq, Repr

/-- Why an instruction could be refused. -/
inductive Refusal where
  /-- Raised by an arm of `exec` whose instruction has no meaning yet; no arm is such an arm.  Safe. -/
  | notModelled (mnemonic : String)
  deriving DecidableEq, Repr

/-- The state after reset (R271): every register, field and stream is 0 or empty.  The two fields of
the model's own are empty, DESIGN CHOICE (log 1, log 3). -/
def State.reset : State where
  cmd := 0
  status := { err := false, errCode := 0, cwOpen := false, crOpen := false }
  errCmd := 0
  errPos := 0
  input := []
  inPos := 0
  output := []
  outTot := 0
  v := 0
  cnt := 0
  rIdx := 0
  rLen := 0
  width := 0
  height := 0
  alpha := 0
  sample := 0
  color := 0
  idx := 0
  qPal := Vector.replicate 8 0
  dPal := Vector.replicate 8 0
  pPal := Vector.replicate 8 0
  qLen := 0
  dLen := 0
  ppLen := 0
  ct := Vector.replicate 8 0
  ctLen := 0
  cwTot := 0
  cwCnt := 0
  cwRIdx := 0
  cwRLen := 0
  crRem := 0
  host := []
  reads := []

end Sys2Proof.Machine
end

