-- ==== Sys2Proof/Machine/Flags.lean ====
section
/-! DEFINITION. STATUS as the host reads it (R27), the error codes (R240), and the writes of the two open flags. -/

namespace Sys2Proof.Machine

/-- The code of an error kind (R240). -/
def ErrorKind.code : ErrorKind → BitVec 4
  | .invalidPalette => 1
  | .overflow => 2
  | .truncatedInput => 3
  | .malformedRunRecord => 4
  | .badMagic => 5
  | .illegalCommand => 6
  | .pixelCountMismatch => 7

/-- STATUS as one 32-bit word, most significant field first (R27): BUSY 0, bits 30:10 0, CROPEN,
CWOPEN, ERRCODE, bits 3:1 0, ERR. -/
def Status.word (f : Status) : Word32 :=
  0#1 ++ 0#21 ++ BitVec.ofBool f.crOpen ++ BitVec.ofBool f.cwOpen ++ f.errCode ++ 0#3 ++ BitVec.ofBool f.err

/-- Writes ERR and ERRCODE as error entry does (R251). -/
def Status.withError (kind : ErrorKind) (f : Status) : Status :=
  { f with err := true, errCode := kind.code }

/-- Writes CWOPEN (R205, R209). -/
def Status.withCwOpen (b : Bool) (f : Status) : Status := { f with cwOpen := b }

/-- Writes CROPEN (R210, R211). -/
def Status.withCrOpen (b : Bool) (f : Status) : Status := { f with crOpen := b }

end Sys2Proof.Machine
end

