-- ==== Sys2Proof/Machine/Ops.lean ====
section
/-! DEFINITION. The operations every command shares: the stream primitives of R8, the 64-bit views of exact counts, error
entry (R251), the end of a command (R9), and the hardware reset (R270). -/

namespace Sys2Proof.Machine

/-- INCNT as an exact number: the bytes of IN not yet consumed (R31). -/
def inCnt (s : State) : Nat := s.input.length

/-- OUTCNT as an exact number: the bytes of OUT not yet read (R32). -/
def outCnt (s : State) : Nat := s.output.length

/-- The value a 64-bit count or offset register shows: the number itself when it has 64 bits, else a
free value.  DESIGN CHOICE, safe (log 5). -/
def countView (r : Reg) (n : Nat) : Word64 :=
  if n < 2 ^ 64 then BitVec.ofNat 64 n else Config.wideCount r.number n

/-- `MemRead(IN, a, 1)`: the byte at absolute offset `a`, defined only for unconsumed bytes (R8, R61). -/
def memRead (a : Nat) (s : State) : Option Byte :=
  if s.inPos ≤ a then s.input[a - s.inPos]? else none

/-- `Peek(k)` (R8). -/
def peek (k : Nat) (s : State) : Option Byte := memRead (s.inPos + k) s

/-- `Consume(k)` (R8, R61). -/
def consume (k : Nat) (s : State) : State :=
  { s with input := s.input.drop k, inPos := s.inPos + k }

/-- `Emit(xs)`: appends the bytes to OUT in order (R8, R63). -/
def emit (xs : List Byte) (s : State) : State :=
  { s with output := s.output ++ xs, outTot := s.outTot + xs.length }

/-- The offset at which a byte is missing, `INPOS + INCNT` (R243). -/
def inEnd (s : State) : Nat := s.inPos + inCnt s

/-- `ErrorEntry(E, pos, c)`: the one exception entry of the core (R251).  Nothing returns from it but
a reset (R252). -/
def errorEntry (e : Raise) (c : Word32) (s : State) : State :=
  { s with status := s.status.withError e.kind, errCmd := c, errPos := e.pos }

/-- The end of a command (R9): all its writes take effect together, or error entry alone does.  The
recorded word is the instruction's own (R28; log 10). -/
def complete (i : Instr) (s : State) : Except Raise State → Host.Outcome State Fault Refusal
  | .ok t => .next t
  | .error e => .next (errorEntry e (encode i) s)

/-- `raise IllegalCommandError(INPOS)` (R246). -/
def illegal {α : Type} (s : State) : Except Raise α := .error ⟨.illegalCommand, s.inPos⟩

/-- The hardware reset (R270, R271): the whole core state goes to its reset value.  The host's coming
operations and what it has read are not the core's state and stay (R21; log 4). -/
def hardReset (s : State) : State := { State.reset with host := s.host, reads := s.reads }

end Sys2Proof.Machine
end

