-- ==== Sys2Proof/Machine/Operands.lean ====
section
/-! DEFINITION. The operand forms of R86: palettes held in a register file with a length register (R41-R43), the colour
table (R44), the COLOR register (R39, R162) and the palette index IDX (R40). -/

namespace Sys2Proof.Machine

/-- A register file and its length as the palette they stand for (R41): entries `0 .. len-1`. -/
def paletteOf (file : Vector Byte 8) (len : BitVec 4) : List Nat :=
  (file.toList.take len.toNat).map BitVec.toNat

/-- A palette of at most 8 entries as a register file: entry i, and 0 past the end (D19). -/
def fileOf (p : List Nat) : Vector Byte 8 :=
  Vector.ofFn fun i => BitVec.ofNat 8 (p.getD i.val 0)

/-- The length register of a palette (R126, R145, R146). -/
def lenOf (p : List Nat) : BitVec 4 := BitVec.ofNat 4 p.length

/-- A length register that names more than 8 entries (D19). -/
def tooLong (len : BitVec 4) : Bool := Config.palMax < len.toNat

/-- Writes QPAL and QLEN (R126). -/
def setQPal (p : List Nat) (s : State) : State := { s with qPal := fileOf p, qLen := lenOf p }

/-- Writes DPAL and DLEN (R145). -/
def setDPal (p : List Nat) (s : State) : State := { s with dPal := fileOf p, dLen := lenOf p }

/-- Writes PPAL and PPLEN (R146). -/
def setPPal (p : List Nat) (s : State) : State := { s with pPal := fileOf p, ppLen := lenOf p }

/-- The colour table `CT[0..CTLEN-1]` (R44). -/
def tableOf (s : State) : List Word32 := s.ct.toList.take s.ctLen.toNat

/-- A colour-table entry from its four bytes, R in the top byte (R44). -/
def packEntry (r g b a : Byte) : Word32 := r ++ g ++ b ++ a

/-- The bytes of a colour-table entry on a stream: R, G, B, and the marker when ALPHA = 1 (R65, R203). -/
def entryBytes (alpha : BitVec 1) (e : Word32) : List Byte :=
  [e.extractLsb' 24 8, e.extractLsb' 16 8, e.extractLsb' 8 8]
    ++ (if alpha = 1 then [e.extractLsb' 0 8] else [])

/-- `NormColor(COLOR)` (R162): the transparent sentinel is entry 0, any other colour is opaque. -/
def normColor (c : BitVec 25) : Word32 :=
  if c.getLsbD 24 then 0
  else packEntry (c.extractLsb' 16 8) (c.extractLsb' 8 8) (c.extractLsb' 0 8) 0xFF

/-- The least position below CTLEN that holds an entry (R163). -/
def tableFind (e : Word32) (s : State) : Option Nat := (tableOf s).idxOf? e

/-- `MAGIC`, the bytes of `RLE3` (R201).  PRESUMED by the spec itself: the ASCII codes are from
general knowledge (log 12). -/
def magic : List Byte := [0x52, 0x4C, 0x45, 0x33]

/-- Writes IDX with a 1-based palette index (R40). -/
def setIdx (n : Nat) (s : State) : State := { s with idx := BitVec.ofNat 4 n }

/-- IDX is a palette index of the table in force, 1..min(CTLEN, 8) (R207, R246). -/
def idxInTable (s : State) : Bool :=
  s.idx.toNat ≠ 0 && s.idx.toNat ≤ Config.palMax && s.idx.toNat ≤ s.ctLen.toNat

/-- The wire index of the palette index IDX (R207, D27). -/
def wireIdx (s : State) : BitVec 3 := BitVec.ofNat 3 (s.idx.toNat - 1)

end Sys2Proof.Machine
end

