-- ==== Sys2Proof/Machine/Runs.lean ====
section
/-! DEFINITION. The units run_length_packer and run_length_unpacker: RPACK and RUNPK (R88-R90, R180-R186). -/

namespace Sys2Proof.Machine

/-- `EncodeRecord(i, c)` (R88, R89, R180).  The fields of a byte do not overlap, so their sum is their
bitwise or. -/
def encodeRecord (i : BitVec 3) (c : Nat) : List Byte :=
  if c ≤ Config.runShortMax then [BitVec.ofNat 8 (i.toNat * 32 + c)]
  else [BitVec.ofNat 8 (i.toNat * 32 + 16 + c / 256), BitVec.ofNat 8 (c % 256)]

/-- The loop of R181: chunks of at most 4095.  The second argument bounds the turns (log 11). -/
def packChunks (i : BitVec 3) : Nat → Nat → List Byte
  | 0, _ => []
  | fuel + 1, n =>
    if n = 0 then []
    else encodeRecord i (min n Config.runMax) ++ packChunks i fuel (n - min n Config.runMax)

/-- `PackRun(i, n)` (R181). -/
def packRun (i : BitVec 3) (n : Nat) : List Byte := packChunks i (n / Config.runMax + 1) n

/-- The record a first byte and the bytes after it hold: wire index, count and record length; none
when the long form's second byte is missing (R88-R90). -/
def recordFields (b0 : Byte) (rest : List Byte) : Option (BitVec 3 × Nat × Nat) :=
  if b0.getLsbD 4 then
    match rest with
    | [] => none
    | b1 :: _ => some (b0.extractLsb' 5 3, (b0.toNat % 16) * 256 + b1.toNat, 2)
  else some (b0.extractLsb' 5 3, b0.toNat % 16, 1)

/-- `DecodeRecord` on the bytes `bs`, the first of which has offset `pos` (R183). -/
def decodeRecordAt (pos : Nat) : List Byte → Except Raise (BitVec 3 × Nat × Nat)
  | [] => .error ⟨.truncatedInput, pos⟩
  | b0 :: rest =>
    match recordFields b0 rest with
    | none => .error ⟨.malformedRunRecord, pos⟩
    | some (i, c, k) => if c = 0 then .error ⟨.overflow, pos⟩ else .ok (i, c, k)

/-- `DecodeRecord()` (R183). -/
def decodeRecord (s : State) : Except Raise (BitVec 3 × Nat × Nat) := decodeRecordAt s.inPos s.input

/-- The pseudocode of RPACK (R182). -/
def rpack (s : State) : Except Raise State :=
  if s.rLen = 0 then .error ⟨.overflow, s.inPos⟩
  else .ok (emit (packRun s.rIdx s.rLen.toNat) s)

/-- RPACK (R182). -/
def execRpack (s : State) : Host.Outcome State Fault Refusal := complete .rpack s (rpack s)

/-- Writes RIDX and RLEN with a decoded record (R184, R211). -/
def setRecord (i : BitVec 3) (c : Nat) (s : State) : State :=
  { s with rIdx := i, rLen := BitVec.ofNat 64 c }

/-- The pseudocode of RUNPK (R184). -/
def runpk (s : State) : Except Raise State :=
  match decodeRecord s with
  | .error e => .error e
  | .ok (i, c, k) => .ok (consume k (setRecord i c s))

/-- RUNPK (R184). -/
def execRunpk (s : State) : Host.Outcome State Fault Refusal := complete .runpk s (runpk s)

/-- A whole run stream decoded record by record (R90, R185); none when a record is malformed.  The
first argument bounds the number of records. -/
def decodeStream : Nat → List Byte → Option (List (BitVec 3 × Nat))
  | _, [] => some []
  | 0, _ :: _ => none
  | fuel + 1, b :: bs =>
    match decodeRecordAt 0 (b :: bs) with
    | .error _ => none
    | .ok (i, c, k) => (decodeStream fuel ((b :: bs).drop k)).map ((i, c) :: ·)

/-- The records of a run stream (R185): a record takes at least one byte. -/
def decodeRecords (bs : List Byte) : Option (List (BitVec 3 × Nat)) := decodeStream bs.length bs

/-- `MergeRecords` (R185): one record for every maximal group of adjacent records of one index. -/
def mergeRecords : List (BitVec 3 × Nat) → List (BitVec 3 × Nat)
  | [] => []
  | (i, c) :: rest =>
    match mergeRecords rest with
    | [] => [(i, c)]
    | (j, d) :: more => if i = j then (i, c + d) :: more else (i, c) :: (j, d) :: more

/-- The index sequence a sequence of records stands for (R185, R204). -/
def expandRecords (rs : List (BitVec 3 × Nat)) : List (BitVec 3) :=
  rs.flatMap fun r => List.replicate r.2 r.1

/-- Row and column of pixel `p` of an image of width `w` (R204, R212). -/
def pixelPlace (w p : Nat) : Nat × Nat := (p / w, p % w)

end Sys2Proof.Machine
end

