-- ==== Sys2Proof/Machine/VarInt.lean ====
section
/-! DEFINITION. The units varint_encoder and varint_decoder: VENC and VDEC (R100-R104). -/

namespace Sys2Proof.Machine

/-- The loop of R100: prepends the remaining groups, each with its flag set.  The first argument
bounds the turns; a 64-bit number needs fewer (log 11). -/
def varIntGroups : Nat → Nat → List Byte → List Byte
  | 0, _, out => out
  | fuel + 1, n, out =>
    if 0 < n then varIntGroups fuel (n / 128) (BitVec.ofNat 8 (128 + n % 128) :: out) else out

/-- `VarIntEncode(n)` for `n < 2^VARINT_W` (R100): the last byte has the flag clear. -/
def varIntEncode (n : Nat) : List Byte :=
  varIntGroups Config.varintW (n / 128) [BitVec.ofNat 8 (n % 128)]

/-- The loop of R101 over the bytes still to read: `pos` is the offset of the next byte, `k` how many
bytes were read, `acc` the value so far. -/
def varIntLoop (pos k acc : Nat) : List Byte → Except Raise (Nat × Nat)
  | [] => .error ⟨.truncatedInput, pos⟩
  | b :: bs =>
    if 2 ^ Config.varintW ≤ acc * 128 + b.toNat % 128 then .error ⟨.overflow, pos⟩
    else if b.getLsbD 7 then varIntLoop (pos + 1) (k + 1) (acc * 128 + b.toNat % 128) bs
    else .ok (acc * 128 + b.toNat % 128, k + 1)

/-- `VarIntDecode` on the bytes `bs`, the first of which has offset `pos`: the value and its byte
length (R101). -/
def varIntDecode (pos : Nat) (bs : List Byte) : Except Raise (Nat × Nat) := varIntLoop pos 0 0 bs

/-- `VarIntDecodeAt(p)`: the VarInt p bytes past INPOS (R210); `VarIntDecode()` is `p = 0` (R101). -/
def varIntDecodeAt (p : Nat) (s : State) : Except Raise (Nat × Nat) :=
  varIntDecode (s.inPos + p) (s.input.drop p)

/-- VENC (R102). -/
def execVenc (s : State) : Host.Outcome State Fault Refusal :=
  complete .venc s (.ok (emit (varIntEncode s.v.toNat) s))

/-- The pseudocode of VDEC (R103). -/
def vdec (s : State) : Except Raise State :=
  match varIntDecodeAt 0 s with
  | .error e => .error e
  | .ok (n, k) => .ok (consume k { s with v := BitVec.ofNat 64 n })

/-- VDEC (R103). -/
def execVdec (s : State) : Host.Outcome State Fault Refusal := complete .vdec s (vdec s)

end Sys2Proof.Machine
end

