-- ==== Sys2Proof/Machine/ContainerReader.lean ====
section
/-! DEFINITION. The unit rle3_container_reader: CRHDR and CRRUN (R200-R204, R210-R212). -/

namespace Sys2Proof.Machine

/-- The magic check of R210: `pos` is the offset of the next byte, the first list what the magic
still asks for, the second the bytes still to read. -/
def checkMagic (pos : Nat) : List Byte → List Byte → Except Raise Unit
  | [], _ => .ok ()
  | _ :: _, [] => .error ⟨.truncatedInput, pos⟩
  | m :: ms, b :: bs => if b = m then checkMagic (pos + 1) ms bs else .error ⟨.badMagic, pos⟩

/-- What a container header says: width, height, ALPHA, the table entries, and the header's length in
bytes (R200, R210). -/
structure Header where
  width : Nat
  height : Nat
  alpha : BitVec 1
  table : List Word32
  size : Nat
  deriving DecidableEq, Repr

/-- Bytes per table entry (R203, R210). -/
def entrySize (alpha : BitVec 1) : Nat := 3 + alpha.toNat

/-- The entry whose first byte is at position `q` of the bytes: the marker is the fourth byte when
ALPHA = 1, else 255 (R210, D35). -/
def readEntry (alpha : BitVec 1) (bs : List Byte) (q : Nat) : Word32 :=
  packEntry (bs.getD q 0) (bs.getD (q + 1) 0) (bs.getD (q + 2) 0)
    (if alpha = 1 then bs.getD (q + 3) 0 else 0xFF)

/-- The `n` entries of a colour table that starts at position `p` of the bytes (R210). -/
def readTable (alpha : BitVec 1) (bs : List Byte) (p n : Nat) : List Word32 :=
  (List.range n).map fun j => readEntry alpha bs (p + entrySize alpha * j)

/-- The flags byte and the colour table of R210, from position `p` on: ALPHA, the entries, and the
position after them. -/
def parseTable (p : Nat) (s : State) : Except Raise (BitVec 1 × List Word32 × Nat) :=
  match peek p s with
  | none => .error ⟨.truncatedInput, inEnd s⟩
  | some f =>
    let a := f.extractLsb' 7 1
    let n := f.toNat % 128
    if n = 0 ∨ Config.palMax < n then .error ⟨.invalidPalette, s.inPos + p⟩
    else if inCnt s < p + 1 + n * entrySize a then .error ⟨.truncatedInput, inEnd s⟩
    else .ok (a, readTable a s.input (p + 1) n, p + 1 + n * entrySize a)

/-- The header at INPOS (R210): magic, width, height, the check of W*H, flags and colour table, each
error at the byte that shows it. -/
def parseHeader (s : State) : Except Raise Header :=
  match checkMagic s.inPos magic s.input with
  | .error e => .error e
  | .ok () =>
    let p0 := magic.length
    match varIntDecodeAt p0 s with
    | .error e => .error e
    | .ok (w, kw) =>
      match varIntDecodeAt (p0 + kw) s with
      | .error e => .error e
      | .ok (h, kh) =>
        if 2 ^ 64 ≤ w * h then .error ⟨.overflow, s.inPos + (p0 + kw + kh) - 1⟩
        else
          match parseTable (p0 + kw + kh) s with
          | .error e => .error e
          | .ok (a, table, size) => .ok ⟨w, h, a, table, size⟩

/-- A table of at most 8 entries as the register file CT: entry j, and 0 past the end (R210). -/
def tableFile (table : List Word32) : Vector Word32 8 := Vector.ofFn fun i => table.getD i.val 0

/-- The writes of CRHDR but for those to IN (R210). -/
def openReader (hd : Header) (s : State) : State :=
  { s with
    width := BitVec.ofNat 64 hd.width
    height := BitVec.ofNat 64 hd.height
    alpha := hd.alpha
    ct := tableFile hd.table
    ctLen := BitVec.ofNat 4 hd.table.length
    crRem := BitVec.ofNat 64 (hd.width * hd.height)
    status := s.status.withCrOpen (decide (0 < hd.width * hd.height)) }

/-- The pseudocode of CRHDR (R210). -/
def crhdr (s : State) : Except Raise State :=
  if s.status.crOpen then illegal s
  else
    match parseHeader s with
    | .error e => .error e
    | .ok hd => .ok (consume hd.size (openReader hd s))

/-- CRHDR (R210). -/
def execCrhdr (s : State) : Host.Outcome State Fault Refusal := complete .crhdr s (crhdr s)

/-- Covers `c` of the samples still to cover; CROPEN falls with the last one (R211). -/
def coverSamples (c : Nat) (s : State) : State :=
  { s with
    crRem := BitVec.ofNat 64 (s.crRem.toNat - c)
    status := s.status.withCrOpen (decide (0 < s.crRem.toNat - c)) }

/-- The pseudocode of CRRUN (R211). -/
def crrun (s : State) : Except Raise State :=
  if s.status.crOpen = false then illegal s
  else
    match decodeRecord s with
    | .error e => .error e
    | .ok (i, c, k) =>
      if s.ctLen.toNat ≤ i.toNat then .error ⟨.malformedRunRecord, s.inPos⟩
      else if s.crRem.toNat < c then .error ⟨.malformedRunRecord, s.inPos⟩
      else .ok (consume k (coverSamples c (setIdx (i.toNat + 1) (setRecord i c s))))

/-- CRRUN (R211). -/
def execCrrun (s : State) : Host.Outcome State Fault Refusal := complete .crrun s (crrun s)

end Sys2Proof.Machine
end

