-- ==== Sys2Proof/Machine/ContainerWriter.lean ====
section
/-! DEFINITION. The unit rle3_container_writer: CWHDR, CWPIX, CWRUN and CWEND (R200-R209). -/

namespace Sys2Proof.Machine

/-- The flags-and-count byte (R202).  Bit 7 and the count do not overlap. -/
def flagsByte (alpha : BitVec 1) (n : Nat) : Byte := BitVec.ofNat 8 (alpha.toNat * 128 + n)

/-- The header of a container: magic, width, height, flags and colour table (R200, R205). -/
def headerBytes (w h : Nat) (alpha : BitVec 1) (table : List Word32) : List Byte :=
  magic ++ varIntEncode w ++ varIntEncode h ++ [flagsByte alpha table.length]
    ++ table.flatMap (entryBytes alpha)

/-- Opens the writer for an image of `t` pixels (R205). -/
def openWriter (t : Nat) (s : State) : State :=
  { s with
    status := s.status.withCwOpen true
    cwTot := BitVec.ofNat 64 t
    cwCnt := 0
    cwRIdx := 0
    cwRLen := 0 }

/-- The pseudocode of CWHDR (R205). -/
def cwhdr (s : State) : Except Raise State :=
  if s.status.cwOpen then illegal s
  else if s.ctLen = 0 ∨ tooLong s.ctLen then .error ⟨.invalidPalette, s.inPos⟩
  else if 2 ^ 64 ≤ s.width.toNat * s.height.toNat then .error ⟨.overflow, s.inPos⟩
  else
    .ok (openWriter (s.width.toNat * s.height.toNat)
      (emit (headerBytes s.width.toNat s.height.toNat s.alpha (tableOf s)) s))

/-- CWHDR (R205). -/
def execCwhdr (s : State) : Host.Outcome State Fault Refusal := complete .cwhdr s (cwhdr s)

/-- The bytes of the pending run, none when there is no pending run (R206, R209). -/
def pendingBytes (s : State) : List Byte :=
  if s.cwRLen = 0 then [] else packRun s.cwRIdx s.cwRLen.toNat

/-- `AppendPixels(i, m)` (R206): extends the pending run, or packs it and starts a new one.  The
64-bit additions never wrap in a state a run reaches (log 15). -/
def appendPixels (i : BitVec 3) (m : Word64) (s : State) : State :=
  if s.cwRLen ≠ 0 ∧ s.cwRIdx = i then
    { s with cwRLen := s.cwRLen + m, cwCnt := s.cwCnt + m }
  else
    { emit (pendingBytes s) s with cwRIdx := i, cwRLen := m, cwCnt := s.cwCnt + m }

/-- The pseudocode of CWPIX (R207). -/
def cwpix (s : State) : Except Raise State :=
  if s.status.cwOpen = false then illegal s
  else if idxInTable s = false then illegal s
  else if s.cwCnt = s.cwTot then .error ⟨.pixelCountMismatch, s.inPos⟩
  else .ok (appendPixels (wireIdx s) 1 s)

/-- CWPIX (R207). -/
def execCwpix (s : State) : Host.Outcome State Fault Refusal := complete .cwpix s (cwpix s)

/-- The pseudocode of CWRUN (R208). -/
def cwrun (s : State) : Except Raise State :=
  if s.status.cwOpen = false then illegal s
  else if idxInTable s = false then illegal s
  else if s.rLen = 0 then .error ⟨.overflow, s.inPos⟩
  else if s.cwTot.toNat - s.cwCnt.toNat < s.rLen.toNat then .error ⟨.pixelCountMismatch, s.inPos⟩
  else .ok (appendPixels (wireIdx s) s.rLen s)

/-- CWRUN (R208). -/
def execCwrun (s : State) : Host.Outcome State Fault Refusal := complete .cwrun s (cwrun s)

/-- Closes the writer; CWTOT, CWCNT and CWRIDX keep their values (R209). -/
def closeWriter (s : State) : State :=
  { s with status := s.status.withCwOpen false, cwRLen := 0 }

/-- The pseudocode of CWEND (R209). -/
def cwend (s : State) : Except Raise State :=
  if s.status.cwOpen = false then illegal s
  else if s.cwCnt ≠ s.cwTot then .error ⟨.pixelCountMismatch, s.inPos⟩
  else .ok (closeWriter (emit (pendingBytes s) s))

/-- CWEND (R209). -/
def execCwend (s : State) : Host.Outcome State Fault Refusal := complete .cwend s (cwend s)

end Sys2Proof.Machine
end

