-- ==== Sys2Proof/Machine/Indexer.lean ====
section
/-! DEFINITION. The unit color_indexer: INEAR, IEXACT, CTADD and CTCLR (R160-R166). -/

namespace Sys2Proof.Machine

/-- `|a - b|` (R6). -/
def absDiff (a b : Nat) : Nat := (a - b) + (b - a)

/-- The scan of R160 over the entries from position `j` on: `best` is the position and `bd` the
distance of the best entry so far; only a strictly better entry replaces it. -/
def nearestScan (sample best bd j : Nat) : List Nat → Nat
  | [] => best
  | p :: ps =>
    if absDiff sample p < bd then nearestScan sample j (absDiff sample p) (j + 1) ps
    else nearestScan sample best bd (j + 1) ps

/-- `NearestFn(s, P)` for a palette of at least one entry (R160). -/
def nearestFn (sample : Nat) : List Nat → Nat
  | [] => 0
  | p :: ps => nearestScan sample 0 (absDiff sample p) 1 ps + 1

/-- The pseudocode of INEAR (R161). -/
def inear (s : State) : Except Raise State :=
  if s.dLen = 0 ∨ tooLong s.dLen then illegal s
  else .ok (setIdx (nearestFn s.sample.toNat (paletteOf s.dPal s.dLen)) s)

/-- INEAR (R161). -/
def execInear (s : State) : Host.Outcome State Fault Refusal := complete .inear s (inear s)

/-- The pseudocode of IEXACT (R163). -/
def iexact (s : State) : Except Raise State :=
  if tooLong s.ctLen then illegal s
  else
    match tableFind (normColor s.color) s with
    | none => .error ⟨.invalidPalette, s.inPos⟩
    | some j => .ok (setIdx (j + 1) s)

/-- IEXACT (R163). -/
def execIexact (s : State) : Host.Outcome State Fault Refusal := complete .iexact s (iexact s)

/-- Appends an entry to the colour table, at position CTLEN (R164). -/
def tableAppend (e : Word32) (s : State) : State :=
  { s with ct := s.ct.setIfInBounds s.ctLen.toNat e, ctLen := s.ctLen + 1 }

/-- The pseudocode of CTADD (R164, C10). -/
def ctadd (s : State) : Except Raise State :=
  if tooLong s.ctLen then illegal s
  else
    match tableFind (normColor s.color) s with
    | some j => .ok (setIdx (j + 1) s)
    | none =>
      if s.ctLen.toNat = Config.palMax then .error ⟨.invalidPalette, s.inPos⟩
      else .ok (setIdx (s.ctLen.toNat + 1) (tableAppend (normColor s.color) s))

/-- CTADD (R164). -/
def execCtadd (s : State) : Host.Outcome State Fault Refusal := complete .ctadd s (ctadd s)

/-- CTCLR (R165). -/
def execCtclr (s : State) : Host.Outcome State Fault Refusal :=
  complete .ctclr s (.ok { s with ct := Vector.replicate 8 0, ctLen := 0 })

end Sys2Proof.Machine
end

