-- ==== Sys2Proof/Machine/Quantizer.lean ====
section
/-! DEFINITION. The unit median_cut_quantizer: QUANT (R10, R120-R128). -/

namespace Sys2Proof.Machine

/-- `round_half_even(s, c)` (R10). -/
def roundHalfEven (s c : Nat) : Nat :=
  let q := s / c
  let r := s % c
  if 2 * r < c then q else if c < 2 * r then q + 1 else if q % 2 = 0 then q else q + 1

/-- `sort(xs)` (R7). -/
def sortSamples (xs : List Nat) : List Nat := xs.insertionSort (· ≤ ·)

/-- `distinct(xs)` (R7). -/
def distinctSamples (xs : List Nat) : List Nat := (sortSamples xs).dedup

/-- The "white count": copies of the current maximum of a sorted list (R122). -/
def whiteCount (l : List Nat) : Nat := l.count (l.getLastD 0)

/-- The "black count": copies of the current minimum of a sorted list (R122). -/
def blackCount (l : List Nat) : Nat := l.count (l.headD 0)

/-- The loop of R122.  The last-but-one argument bounds the turns; each turn drops a sample, so the
length of the list is enough (log 11). -/
def trimLoop (n : Nat) : Nat → List Nat → List Nat
  | 0, l => l
  | fuel + 1, l =>
    if blackCount l < whiteCount l then
      (if Config.quantTrimDiv * whiteCount l ≤ n then l else trimLoop n fuel l.dropLast)
    else
      (if Config.quantTrimDiv * blackCount l ≤ n then l else trimLoop n fuel l.tail)

/-- `Trim(L, N)` (R122). -/
def trim (l : List Nat) (n : Nat) : List Nat := trimLoop n l.length l

/-- One level of the bisection: the smaller half on the left (R124, D16). -/
def halves (p : List Nat) : List (List Nat) := [p.take (p.length / 2), p.drop (p.length / 2)]

/-- The bisection, `depth` levels deep (R124). -/
def bisectLevels : Nat → List (List Nat) → List (List Nat)
  | 0, parts => parts
  | depth + 1, parts => bisectLevels depth (parts.flatMap halves)

/-- `Bisect(L)` (R124). -/
def bisect (l : List Nat) : List (List Nat) := bisectLevels Config.quantDepth [l]

/-- The palette entries of the leaves: the rounded mean of each non-empty leaf, in order (R120, R125). -/
def leafValues (parts : List (List Nat)) : List Nat :=
  (parts.filter fun p => decide (0 < p.length)).map fun p => roundHalfEven p.sum p.length

/-- `QuantizeFn(S)` (R120, R121). -/
def quantizeFn (samples : List Nat) : List Nat :=
  if (distinctSamples samples).length ≤ Config.quantShortcut then distinctSamples samples
  else leafValues (bisect (trim (sortSamples samples) samples.length))

/-- The sequence S that QUANT reads: the CNT oldest bytes of IN (R126). -/
def quantSamples (s : State) : List Nat := (s.input.take s.cnt.toNat).map BitVec.toNat

/-- The pseudocode of QUANT (R126). -/
def quant (s : State) : Except Raise State :=
  if s.cnt = 0 then illegal s
  else if inCnt s < s.cnt.toNat then .error ⟨.truncatedInput, inEnd s⟩
  else .ok (consume s.cnt.toNat (setQPal (quantizeFn (quantSamples s)) s))

/-- QUANT (R126). -/
def execQuant (s : State) : Host.Outcome State Fault Refusal := complete .quant s (quant s)

end Sys2Proof.Machine
end

