-- ==== Sys2Proof/Machine/Rebalancer.lean ====
section
/-! DEFINITION. The unit palette_rebalancer: RDIST and RPUSH (R11, R140-R148). -/

namespace Sys2Proof.Machine

/-- `bucket(v) = v >> 3` (R11). -/
def bucket (v : Nat) : Nat := v >>> Config.bucketShift

/-- The inner loop of the forward sweep: raises `v` until its bucket exceeds that of `prev` or is 31
(R140).  The first argument bounds the turns; a byte needs at most 31 (log 11). -/
def raiseAbove : Nat → Nat → Nat → Nat
  | 0, _, v => v
  | fuel + 1, prev, v =>
    if bucket v ≤ bucket prev ∧ bucket v < Config.bucketMax then
      raiseAbove fuel prev (v + Config.bucketStep)
    else v

/-- The forward sweep over the entries after `prev` (R140). -/
def forwardFrom (prev : Nat) : List Nat → List Nat
  | [] => []
  | v :: vs =>
    let w := raiseAbove (Config.bucketMax + 1) prev v
    w :: forwardFrom w vs

/-- `ForwardSweep(Q)` (R140): the first entry stays. -/
def forwardSweep : List Nat → List Nat
  | [] => []
  | v :: vs => v :: forwardFrom v vs

/-- The inner loop of the backward sweep: lowers `v` until its bucket is below that of `next` (R141).
The first argument bounds the turns; a byte needs at most 31 (log 11). -/
def lowerBelow : Nat → Nat → Nat → Nat
  | 0, _, v => v
  | fuel + 1, next, v =>
    if bucket next ≤ bucket v then lowerBelow fuel next (v - Config.bucketStep) else v

/-- `BackwardSweep(Q)` (R141): the last entry stays. -/
def backwardSweep : List Nat → List Nat
  | [] => []
  | v :: vs =>
    match backwardSweep vs with
    | [] => [v]
    | next :: rest => lowerBelow (Config.bucketMax + 1) next v :: next :: rest

/-- `DistinctFn(P)` (R141). -/
def distinctFn (p : List Nat) : List Nat := backwardSweep (forwardSweep p)

/-- A push to the value `c` keeps the entry strictly below the next brighter entry's bucket; the
brightest entry has no such bound (R143, D21). -/
def pushAllowed (brighter : Option Nat) (c : Nat) : Bool :=
  match brighter with
  | none => true
  | some q => bucket c < bucket q

/-- The `while k < budget` loop of R143: one bucket a step, capped at 255; the first argument is
`budget - k`. -/
def pushEntry : Nat → Option Nat → Nat → Nat
  | 0, _, v => v
  | left + 1, brighter, v =>
    let c := min (v + Config.bucketStep) Config.pushCap
    if c = v then v
    else if pushAllowed brighter c then pushEntry left brighter c
    else v

/-- The entry one position darker exists and is below bucket 20 before it is pushed (R143). -/
def darkerIsDark : List Nat → Bool
  | [] => false
  | d :: _ => bucket d < Config.pushDarkLimit

/-- The budget for the darker entries (R143). -/
def nextBudget (budget before after : Nat) (darker : List Nat) : Nat :=
  if bucket before < bucket after ∧ darkerIsDark darker then budget + 1 else budget

/-- The sweep of R143 over the entries from brightest to darkest; `brighter` is the entry above,
already pushed. -/
def pushDown : Nat → Option Nat → List Nat → List Nat
  | _, _, [] => []
  | budget, brighter, v :: darker =>
    let w := pushEntry budget brighter v
    w :: pushDown (nextBudget budget v w darker) (some w) darker

/-- `PushFn(D)` (R143). -/
def pushFn (d : List Nat) : List Nat := (pushDown Config.pushBudget0 none d.reverse).reverse

/-- The pseudocode of RDIST (R145). -/
def rdist (s : State) : Except Raise State :=
  if tooLong s.qLen then illegal s
  else .ok (setDPal (distinctFn (paletteOf s.qPal s.qLen)) s)

/-- RDIST (R145). -/
def execRdist (s : State) : Host.Outcome State Fault Refusal := complete .rdist s (rdist s)

/-- The pseudocode of RPUSH (R146). -/
def rpush (en : Bool) (s : State) : Except Raise State :=
  if tooLong s.dLen then illegal s
  else
    let d := paletteOf s.dPal s.dLen
    .ok (setPPal (if en then pushFn d else d) s)

/-- RPUSH and RPUSH.EN (R146). -/
def execRpush (en : Bool) (s : State) : Host.Outcome State Fault Refusal :=
  complete (.rpush en) s (rpush en s)

end Sys2Proof.Machine
end

