-- ==== Sys2Proof/Machine/Dispatch.lean ====
section
/-! DEFINITION. The one match over the commands (R81): each arm is one call of the command's meaning. -/

namespace Sys2Proof.Machine

/-- Performs a command (R26): what the command does when STATUS.ERR = 0 lets it run (R253; log 10). -/
def exec (i : Instr) (s : State) : Host.Outcome State Fault Refusal :=
  match i with
  | .venc => Sys2Proof.Machine.execVenc s
  | .vdec => Sys2Proof.Machine.execVdec s
  | .quant => Sys2Proof.Machine.execQuant s
  | .rdist => Sys2Proof.Machine.execRdist s
  | .rpush en => Sys2Proof.Machine.execRpush en s
  | .inear => Sys2Proof.Machine.execInear s
  | .iexact => Sys2Proof.Machine.execIexact s
  | .ctadd => Sys2Proof.Machine.execCtadd s
  | .ctclr => Sys2Proof.Machine.execCtclr s
  | .rpack => Sys2Proof.Machine.execRpack s
  | .runpk => Sys2Proof.Machine.execRunpk s
  | .cwhdr => Sys2Proof.Machine.execCwhdr s
  | .cwpix => Sys2Proof.Machine.execCwpix s
  | .cwrun => Sys2Proof.Machine.execCwrun s
  | .cwend => Sys2Proof.Machine.execCwend s
  | .crhdr => Sys2Proof.Machine.execCrhdr s
  | .crrun => Sys2Proof.Machine.execCrrun s

end Sys2Proof.Machine
end

