-- ==== Sys2Proof/Machine/HostInterface.lean ====
section
/-! DEFINITION. Host reads and writes of the registers (R23-R25, R30-R32); issuing a command stands in Issue.lean. -/

namespace Sys2Proof.Machine

/-- INCLR: IN becomes empty, INCNT and INPOS 0 (R30). -/
def clearIn (s : State) : State := { s with input := [], inPos := 0 }

/-- OUTCLR: OUT becomes empty, OUTCNT and OUTTOT 0 (R30). -/
def clearOut (s : State) : State := { s with output := [], outTot := 0 }

/-- A write of CTRL: INCLR by bit 0, then OUTCLR by bit 1; bits 31:2 are ignored (R30). -/
def writeCtrl (value : Word64) (s : State) : State :=
  let t := if value.getLsbD 0 then clearIn s else s
  if value.getLsbD 1 then clearOut t else t

/-- A write of INDATA: appends the low byte to IN (R31). -/
def appendIn (value : Word64) (s : State) : State :=
  { s with input := s.input ++ [value.setWidth 8] }

/-- A host write to a register, keeping the low bits of the value (R24); read-only registers ignore
it.  For CMD this is the storing half of R26. -/
def writeReg (r : Reg) (value : Word64) (s : State) : State :=
  match r with
  | .cmd => { s with cmd := value.setWidth 32 }
  | .ctrl => writeCtrl value s
  | .inData => appendIn value s
  | .v => { s with v := value }
  | .cnt => { s with cnt := value }
  | .rIdx => { s with rIdx := value.setWidth 3 }
  | .rLen => { s with rLen := value }
  | .width => { s with width := value }
  | .height => { s with height := value }
  | .alpha => { s with alpha := value.setWidth 1 }
  | .sample => { s with sample := value.setWidth 8 }
  | .color => { s with color := value.setWidth 25 }
  | .idx => { s with idx := value.setWidth 4 }
  | .qPal i => { s with qPal := s.qPal.set i.val (value.setWidth 8) }
  | .dPal i => { s with dPal := s.dPal.set i.val (value.setWidth 8) }
  | .pPal i => { s with pPal := s.pPal.set i.val (value.setWidth 8) }
  | .qLen => { s with qLen := value.setWidth 4 }
  | .dLen => { s with dLen := value.setWidth 4 }
  | .ppLen => { s with ppLen := value.setWidth 4 }
  | .ct i => { s with ct := s.ct.set i.val (value.setWidth 32) }
  | .ctLen => { s with ctLen := value.setWidth 4 }
  | .status | .errCmd | .errPos | .inCnt | .inPos | .outData | .outCnt | .outTot
  | .cwTot | .cwCnt | .cwRIdx | .cwRLen | .crRem => s

/-- The value a host read of a register returns, zero-extended to 64 bits (R25); for OUTDATA the
oldest byte of OUT, or 0 when OUT is empty (R32). -/
def readReg (r : Reg) (s : State) : Word64 :=
  match r with
  | .cmd => s.cmd.setWidth 64
  | .status => s.status.word.setWidth 64
  | .errCmd => s.errCmd.setWidth 64
  | .errPos => countView .errPos s.errPos
  | .ctrl => 0
  | .inData => 0
  | .inCnt => countView .inCnt (inCnt s)
  | .inPos => countView .inPos s.inPos
  | .outData => (s.output.headD 0).setWidth 64
  | .outCnt => countView .outCnt (outCnt s)
  | .outTot => countView .outTot s.outTot
  | .v => s.v
  | .cnt => s.cnt
  | .rIdx => s.rIdx.setWidth 64
  | .rLen => s.rLen
  | .width => s.width
  | .height => s.height
  | .alpha => s.alpha.setWidth 64
  | .sample => s.sample.setWidth 64
  | .color => s.color.setWidth 64
  | .idx => s.idx.setWidth 64
  | .qPal i => (s.qPal[i.val]).setWidth 64
  | .dPal i => (s.dPal[i.val]).setWidth 64
  | .pPal i => (s.pPal[i.val]).setWidth 64
  | .qLen => s.qLen.setWidth 64
  | .dLen => s.dLen.setWidth 64
  | .ppLen => s.ppLen.setWidth 64
  | .ct i => (s.ct[i.val]).setWidth 64
  | .ctLen => s.ctLen.setWidth 64
  | .cwTot => s.cwTot
  | .cwCnt => s.cwCnt
  | .cwRIdx => s.cwRIdx.setWidth 64
  | .cwRLen => s.cwRLen
  | .crRem => s.crRem

/-- The side effect of a host read: a read of OUTDATA removes the oldest byte of OUT, if any; no other
read changes the core (R25, R32, R70). -/
def readEffect (r : Reg) (s : State) : State :=
  match r with
  | .outData => { s with output := s.output.tail }
  | .cmd | .status | .errCmd | .errPos | .ctrl | .inData | .inCnt | .inPos | .outCnt | .outTot
  | .v | .cnt | .rIdx | .rLen | .width | .height | .alpha | .sample | .color | .idx
  | .qPal _ | .dPal _ | .pPal _ | .qLen | .dLen | .ppLen | .ct _ | .ctLen
  | .cwTot | .cwCnt | .cwRIdx | .cwRLen | .crRem => s

/-- The host observes a value (R91). -/
def observe (value : Word64) (s : State) : State := { s with reads := s.reads ++ [value] }

/-- A host read of a register number: an unmapped number returns 0 and changes nothing (R25). -/
def hostRead (num : BitVec 8) (s : State) : State :=
  match Reg.ofNumber num with
  | none => observe 0 s
  | some r => observe (readReg r s) (readEffect r s)

end Sys2Proof.Machine
end

