-- ==== Sys2Proof/Machine/Issue.lean ====
section
/-! DEFINITION. Issuing a command by a write of CMD (R26, R83, R253), and performing one event of the host interface
(R20, R24, R25, R270). -/

namespace Sys2Proof.Machine

/-- Issues command word `c` (R26): nothing while ERR = 1 (R253); an illegal word raises
IllegalCommandError (R83); a legal one is performed. -/
def issue (c : Word32) (s : State) : Host.Outcome State Fault Refusal :=
  if s.status.err then .next s
  else
    match decode c with
    | .error _ => .next (errorEntry ⟨.illegalCommand, s.inPos⟩ c s)
    | .ok i => exec i s

/-- A host write to a register number: an unmapped number ignores it (R24), and a write to CMD stores
the word and then issues it (R26). -/
def hostWrite (num : BitVec 8) (value : Word64) (s : State) : Host.Outcome State Fault Refusal :=
  match Reg.ofNumber num with
  | none => .next s
  | some r =>
    if r = .cmd then issue (value.setWidth 32) (writeReg .cmd value s)
    else .next (writeReg r value s)

/-- Performs one event: a host operation (R20) or the hardware reset (R270). -/
def perform (e : Event) (s : State) : Host.Outcome State Fault Refusal :=
  match e with
  | .write num value => hostWrite num value s
  | .read num => .next (hostRead num s)
  | .hardReset => .next (hardReset s)

/-- Takes the oldest event of the queue and performs it; with no event the core stays as it is, since
it never acts on its own (R20, R71; log 1, log 2). -/
def nextEvent (s : State) : Host.Outcome State Fault Refusal :=
  match s.host with
  | [] => .next s
  | e :: rest => perform e { s with host := rest }

/-- `s` with the host's next operation a write of `nbits` bits `w` to CMD: where the next command is
taken from (R26, R74; log 1). -/
def withNextCommand (nbits w : Nat) (s : State) : State :=
  { s with host := .write Reg.cmd.number (BitVec.ofNat 64 (w % 2 ^ nbits)) :: s.host }

end Sys2Proof.Machine
end

