-- ==== Sys2Proof/Machine/Step.lean ====
section
/-! DEFINITION. One step of the machine, and the place a command word is put so that the next step runs it. -/

namespace Sys2Proof.Machine

/-- One step: one event of the host interface, whole (R9, R69, R71). -/
def step (s : State) : Host.Outcome State Fault Refusal := nextEvent s

/-- The state in which the next step writes the command word `w` to CMD. -/
def State.withFetchWord (s : State) (nbits w : Nat) : State := withNextCommand nbits w s

end Sys2Proof.Machine
end

