-- ==== Sys2Proof/WellFormed.lean ====
section
/-! DEFINITION. Well-formedness: which command words are legal (R83), and which lines and pseudo-instructions of a host
program stand for host operations (R91-R93). -/

namespace Sys2Proof

/-- Every instruction is well formed: the command word supplies no operand but EN, and both values
of EN are legal (R82, R86). -/
def Instr.wellFormed : Instr → Bool
  | .venc | .vdec | .quant | .rdist | .rpush _ | .inear | .iexact | .ctadd | .ctclr | .rpack | .runpk
  | .cwhdr | .cwpix | .cwrun | .cwend | .crhdr | .crrun => true

/-- The operation codes of R81. -/
def legalOps : List (BitVec 8) :=
  [0x01, 0x02, 0x10, 0x20, 0x21, 0x30, 0x31, 0x32, 0x33, 0x40, 0x48, 0x50, 0x51, 0x52, 0x53, 0x58, 0x59]

/-- A command word is legal when none of R83's three grounds for an illegal word holds. -/
def legalCommand (c : Word32) : Bool :=
  c.toNat / 512 == 0 && legalOps.contains (c.setWidth 8) && (!c.getLsbD 8 || c.setWidth 8 == 0x21)

/-- A register reference is a name of R23 or an 8-bit number (R92). -/
def RegRef.wellFormed : RegRef → Bool
  | .named _ => true
  | .number n => n < 256

/-- A line is well formed when its register exists as a number and its value has 64 bits (R92). -/
def Line.wellFormed : Line → Bool
  | .wr r value => r.wellFormed && value < 2 ^ 64
  | .rd r => r.wellFormed
  | .cmd i => i.wellFormed

/-- A pseudo-instruction is well formed when every line R93 expands it to is: FEED has at least one
byte, SETQ and SETD name 1 to 8 existing entries, and every value written has 64 bits.  DESIGN
CHOICE, safe (log 14). -/
def Pseudo.wellFormed : Pseudo → Bool
  | .feed bytes => !bytes.isEmpty && bytes.all (· < 2 ^ 64)
  | .drain => true
  | .vput n => n < 2 ^ 64
  | .setq entries => !entries.isEmpty && entries.length ≤ 8 && entries.all (· < 2 ^ 64)
  | .setd entries => !entries.isEmpty && entries.length ≤ 8 && entries.all (· < 2 ^ 64)
  | .addrgb r g b => r * 65536 + g * 256 + b < 2 ^ 64
  | .addtransp => true
  | .pix i => i < 2 ^ 64
  | .pixrun i n => i < 2 ^ 64 && n < 2 ^ 64
  | .clrstreams => true

end Sys2Proof
end

