-- ==== Sys2Proof/Safety.lean ====
section
/-! DEFINITION. What claims speak of: the invariant of a reachable state, which errors and which registers belong to a
command (R86, R240), the kinds of registers (R23, R24), and the VarInts and host sequences of the spec's properties. -/

namespace Sys2Proof.Safety

open Sys2Proof.Machine

/-- ERRCODE, ERRCMD and ERRPOS are 0 until an error is taken, and then ERRCODE is one of 1..7 (R27-R29,
R240). -/
abbrev ErrorOk (s : State) : Prop :=
  (s.status.err = false → s.status.errCode = 0 ∧ s.errCmd = 0 ∧ s.errPos = 0)
    ∧ (s.status.err = true → 1 ≤ s.status.errCode.toNat ∧ s.status.errCode.toNat ≤ 7)

/-- The writer's counters (R45, R205-R209): the pending run is part of the pixels accepted, which never
pass the total; an open writer has a pending run exactly when it has accepted a pixel; a closed one has
none and has accepted all. -/
abbrev WriterOk (s : State) : Prop :=
  s.cwRLen.toNat ≤ s.cwCnt.toNat
    ∧ s.cwCnt.toNat ≤ s.cwTot.toNat
    ∧ (s.status.cwOpen = true → (s.cwRLen = 0 ↔ s.cwCnt = 0))
    ∧ (s.status.cwOpen = false → s.cwRLen = 0 ∧ s.cwCnt = s.cwTot)

/-- CROPEN is 1 exactly while samples are still to be covered (R27, R46, R210, R211). -/
abbrev ReaderOk (s : State) : Prop := s.status.crOpen = decide (s.crRem ≠ 0)

/-- The bytes of OUT not yet read are among those ever appended (R32). -/
abbrev StreamOk (s : State) : Prop := s.output.length ≤ s.outTot

/-- What holds of every state a run from reset reaches. -/
abbrev Inv (s : State) : Prop := ErrorOk s ∧ WriterOk s ∧ ReaderOk s ∧ StreamOk s

/-- The error kinds a command can raise (R240-R247). -/
def raisedBy : Instr → List ErrorKind
  | .venc => []
  | .vdec => [.overflow, .truncatedInput]
  | .quant => [.illegalCommand, .truncatedInput]
  | .rdist => [.illegalCommand]
  | .rpush _ => [.illegalCommand]
  | .inear => [.illegalCommand]
  | .iexact => [.illegalCommand, .invalidPalette]
  | .ctadd => [.illegalCommand, .invalidPalette]
  | .ctclr => []
  | .rpack => [.overflow]
  | .runpk => [.truncatedInput, .malformedRunRecord, .overflow]
  | .cwhdr => [.illegalCommand, .invalidPalette, .overflow]
  | .cwpix => [.illegalCommand, .pixelCountMismatch]
  | .cwrun => [.illegalCommand, .overflow, .pixelCountMismatch]
  | .cwend => [.illegalCommand, .pixelCountMismatch]
  | .crhdr => [.illegalCommand, .truncatedInput, .badMagic, .overflow, .invalidPalette]
  | .crrun => [.illegalCommand, .truncatedInput, .malformedRunRecord, .overflow]

/-- `t` differs from `s` at most in what R86 lists as written by the command on success. -/
def WritesOnly (s t : State) : Instr → Prop
  | .venc => t = { s with output := t.output, outTot := t.outTot }
  | .vdec => t = { s with v := t.v, input := t.input, inPos := t.inPos }
  | .quant => t = { s with qPal := t.qPal, qLen := t.qLen, input := t.input, inPos := t.inPos }
  | .rdist => t = { s with dPal := t.dPal, dLen := t.dLen }
  | .rpush _ => t = { s with pPal := t.pPal, ppLen := t.ppLen }
  | .inear => t = { s with idx := t.idx }
  | .iexact => t = { s with idx := t.idx }
  | .ctadd => t = { s with ct := t.ct, ctLen := t.ctLen, idx := t.idx }
  | .ctclr => t = { s with ct := t.ct, ctLen := t.ctLen }
  | .rpack => t = { s with output := t.output, outTot := t.outTot }
  | .runpk => t = { s with rIdx := t.rIdx, rLen := t.rLen, input := t.input, inPos := t.inPos }
  | .cwhdr =>
    t = { s with
      output := t.output, outTot := t.outTot, cwTot := t.cwTot, cwCnt := t.cwCnt, cwRIdx := t.cwRIdx
      cwRLen := t.cwRLen, status := { s.status with cwOpen := t.status.cwOpen } }
  | .cwpix =>
    t = { s with
      output := t.output, outTot := t.outTot, cwCnt := t.cwCnt, cwRIdx := t.cwRIdx, cwRLen := t.cwRLen }
  | .cwrun =>
    t = { s with
      output := t.output, outTot := t.outTot, cwCnt := t.cwCnt, cwRIdx := t.cwRIdx, cwRLen := t.cwRLen }
  | .cwend =>
    t = { s with
      output := t.output, outTot := t.outTot, cwRLen := t.cwRLen
      status := { s.status with cwOpen := t.status.cwOpen } }
  | .crhdr =>
    t = { s with
      width := t.width, height := t.height, alpha := t.alpha, ct := t.ct, ctLen := t.ctLen
      crRem := t.crRem, input := t.input, inPos := t.inPos
      status := { s.status with crOpen := t.status.crOpen } }
  | .crrun =>
    t = { s with
      rIdx := t.rIdx, rLen := t.rLen, idx := t.idx, crRem := t.crRem, input := t.input, inPos := t.inPos
      status := { s.status with crOpen := t.status.crOpen } }

/-- Two states agree on what R86 lists as read by the command. -/
def ReadsAgree (s t : State) : Instr → Prop
  | .venc => s.v = t.v
  | .vdec => s.input = t.input
  | .quant => s.cnt = t.cnt ∧ s.input = t.input
  | .rdist => s.qPal = t.qPal ∧ s.qLen = t.qLen
  | .rpush _ => s.dPal = t.dPal ∧ s.dLen = t.dLen
  | .inear => s.sample = t.sample ∧ s.dPal = t.dPal ∧ s.dLen = t.dLen
  | .iexact => s.color = t.color ∧ s.ct = t.ct ∧ s.ctLen = t.ctLen
  | .ctadd => s.color = t.color ∧ s.ct = t.ct ∧ s.ctLen = t.ctLen
  | .ctclr => True
  | .rpack => s.rIdx = t.rIdx ∧ s.rLen = t.rLen
  | .runpk => s.input = t.input
  | .cwhdr =>
    s.width = t.width ∧ s.height = t.height ∧ s.alpha = t.alpha ∧ s.ct = t.ct ∧ s.ctLen = t.ctLen
      ∧ s.status.cwOpen = t.status.cwOpen
  | .cwpix =>
    s.idx = t.idx ∧ s.ctLen = t.ctLen ∧ s.status.cwOpen = t.status.cwOpen ∧ s.cwTot = t.cwTot
      ∧ s.cwCnt = t.cwCnt ∧ s.cwRIdx = t.cwRIdx ∧ s.cwRLen = t.cwRLen
  | .cwrun =>
    s.idx = t.idx ∧ s.rLen = t.rLen ∧ s.ctLen = t.ctLen ∧ s.status.cwOpen = t.status.cwOpen
      ∧ s.cwTot = t.cwTot ∧ s.cwCnt = t.cwCnt ∧ s.cwRIdx = t.cwRIdx ∧ s.cwRLen = t.cwRLen
  | .cwend =>
    s.status.cwOpen = t.status.cwOpen ∧ s.cwTot = t.cwTot ∧ s.cwCnt = t.cwCnt ∧ s.cwRIdx = t.cwRIdx
      ∧ s.cwRLen = t.cwRLen
  | .crhdr => s.input = t.input ∧ s.status.crOpen = t.status.crOpen
  | .crrun =>
    s.input = t.input ∧ s.ctLen = t.ctLen ∧ s.status.crOpen = t.status.crOpen ∧ s.crRem = t.crRem

/-- Two states agree on every register R86 lists as written by the command but for OUT. -/
def WritesAgree (s t : State) : Instr → Prop
  | .venc => True
  | .vdec => s.v = t.v ∧ s.input = t.input ∧ s.inPos = t.inPos
  | .quant => s.qPal = t.qPal ∧ s.qLen = t.qLen ∧ s.input = t.input ∧ s.inPos = t.inPos
  | .rdist => s.dPal = t.dPal ∧ s.dLen = t.dLen
  | .rpush _ => s.pPal = t.pPal ∧ s.ppLen = t.ppLen
  | .inear => s.idx = t.idx
  | .iexact => s.idx = t.idx
  | .ctadd => s.ct = t.ct ∧ s.ctLen = t.ctLen ∧ s.idx = t.idx
  | .ctclr => s.ct = t.ct ∧ s.ctLen = t.ctLen
  | .rpack => True
  | .runpk => s.rIdx = t.rIdx ∧ s.rLen = t.rLen ∧ s.input = t.input ∧ s.inPos = t.inPos
  | .cwhdr =>
    s.status.cwOpen = t.status.cwOpen ∧ s.cwTot = t.cwTot ∧ s.cwCnt = t.cwCnt ∧ s.cwRIdx = t.cwRIdx
      ∧ s.cwRLen = t.cwRLen
  | .cwpix => s.cwCnt = t.cwCnt ∧ s.cwRIdx = t.cwRIdx ∧ s.cwRLen = t.cwRLen
  | .cwrun => s.cwCnt = t.cwCnt ∧ s.cwRIdx = t.cwRIdx ∧ s.cwRLen = t.cwRLen
  | .cwend => s.status.cwOpen = t.status.cwOpen ∧ s.cwRLen = t.cwRLen
  | .crhdr =>
    s.width = t.width ∧ s.height = t.height ∧ s.alpha = t.alpha ∧ s.ct = t.ct ∧ s.ctLen = t.ctLen
      ∧ s.crRem = t.crRem ∧ s.status.crOpen = t.status.crOpen ∧ s.input = t.input ∧ s.inPos = t.inPos
  | .crrun =>
    s.rIdx = t.rIdx ∧ s.rLen = t.rLen ∧ s.idx = t.idx ∧ s.crRem = t.crRem
      ∧ s.status.crOpen = t.status.crOpen ∧ s.input = t.input ∧ s.inPos = t.inPos

/-- The width of a register in bits (R23). -/
def regWidth : Reg → Nat
  | .cmd | .status | .errCmd | .ctrl | .ct _ => 32
  | .errPos | .inCnt | .inPos | .outCnt | .outTot | .v | .cnt | .rLen | .width | .height
  | .cwTot | .cwCnt | .cwRLen | .crRem => 64
  | .inData | .outData | .sample | .qPal _ | .dPal _ | .pPal _ => 8
  | .rIdx | .cwRIdx => 3
  | .alpha => 1
  | .color => 25
  | .idx | .qLen | .dLen | .ppLen | .ctLen => 4

/-- The read-only registers of R24. -/
def readOnlyReg : Reg → Bool
  | .status | .errCmd | .errPos | .inCnt | .inPos | .outData | .outCnt | .outTot
  | .cwTot | .cwCnt | .cwRIdx | .cwRLen | .crRem => true
  | .cmd | .ctrl | .inData | .v | .cnt | .rIdx | .rLen | .width | .height | .alpha | .sample | .color
  | .idx | .qPal _ | .dPal _ | .pPal _ | .qLen | .dLen | .ppLen | .ct _ | .ctLen => false

/-- The registers a host write only stores to: writable, and not CMD, CTRL or INDATA (R24). -/
def storedReg (r : Reg) : Bool :=
  !readOnlyReg r && decide (r ≠ .cmd) && decide (r ≠ .ctrl) && decide (r ≠ .inData)

/-- The value of a sequence of VarInt groups, most significant first (R87). -/
def varIntValue (bs : List Byte) : Nat := bs.foldl (fun acc b => acc * 128 + b.toNat % 128) 0

/-- Every byte carries the continuation flag (R87). -/
abbrev AllContinue (bs : List Byte) : Prop := ∀ b ∈ bs, b.getLsbD 7 = true

/-- `bs` is a VarInt of value `n` below 2^64: the flag on every byte but the last (R87, R101). -/
abbrev IsVarInt (bs : List Byte) (n : Nat) : Prop :=
  bs ≠ [] ∧ AllContinue bs.dropLast ∧ (bs.getLastD 0).getLsbD 7 = false
    ∧ varIntValue bs = n ∧ n < 2 ^ 64

/-- The records of a run stream have counts and the indices of a table of `n` entries. -/
abbrev RunsOk (n : Nat) (runs : List (BitVec 3 × Nat)) : Prop := ∀ r ∈ runs, 1 ≤ r.2 ∧ r.1.toNat < n

/-- The samples a sequence of runs covers (R185). -/
def runsTotal (runs : List (BitVec 3 × Nat)) : Nat := (runs.map Prod.snd).sum

/-- The sizes of the two halves of a list of `n` elements, the smaller half first (R124, D16). -/
def halfSizes (n : Nat) : List Nat := [n / 2, n - n / 2]

/-- The command `i` performed `n` times. -/
def repeatExec (i : Instr) : Nat → State → Host.Outcome State Fault Refusal
  | 0, s => .next s
  | n + 1, s =>
    match exec i s with
    | .next t => repeatExec i n t
    | .fault e => .fault e
    | .refused e => .refused e

/-- PIXRUN for each run in turn, then CWEND: the host writes IDX and RLEN before each CWRUN (R93, R274). -/
def writeRuns : List (BitVec 3 × Nat) → State → Host.Outcome State Fault Refusal
  | [], s => exec .cwend s
  | (i, n) :: runs, s =>
    match exec .cwrun { s with idx := BitVec.ofNat 4 (i.toNat + 1), rLen := BitVec.ofNat 64 n } with
    | .next t => writeRuns runs t
    | .fault e => .fault e
    | .refused e => .refused e

/-- CRRUN while CROPEN = 1, collecting (RIDX, RLEN) (R275); none when an error is taken or `fuel` records
are not enough. -/
def readRuns : Nat → State → Option (List (BitVec 3 × Nat) × State)
  | 0, s => if s.status.crOpen then none else some ([], s)
  | fuel + 1, s =>
    if s.status.crOpen then
      match exec .crrun s with
      | .next t =>
        if t.status.err then none
        else (readRuns fuel t).map fun p => ((t.rIdx, t.rLen.toNat) :: p.1, p.2)
      | .fault _ => none
      | .refused _ => none
    else some ([], s)

end Sys2Proof.Safety
end

