-- ==== Sys2Proof/Certificates/Slice0/Obligations.lean ====
section
/-! DEFINITION. The statements for the provers, from the numbered rules of spec/. -/

open Sys2Proof Sys2Proof.Machine Sys2Proof.Safety

/-! ## Command words and register numbers -/

/-- Decode and encode agree (R81, R82, R83): every instruction's word decodes to it, and no other word
does. -/
def Obligations.DecodeEncodeAgree : Prop :=
  ∀ (c : Word32) (i : Instr), decode c = .ok i ↔ i.wellFormed = true ∧ c = encode i

/-- R81: a word selects the row with `(c & Mask) = Match`, and at most one row matches any word; R82: EN
is bit 8. -/
def Obligations.WordSelectsItsRow : Prop :=
  (∀ (c : Word32) (i : Instr), decode c = .ok i → c &&& i.maskWord = i.matchWord)
    ∧ (∀ (c : Word32) (i : Instr), c &&& i.maskWord = i.matchWord →
        ∃ j, decode c = .ok j ∧ j.matchWord = i.matchWord)
    ∧ (∀ (c : Word32) (i j : Instr), c &&& i.maskWord = i.matchWord → c &&& j.maskWord = j.matchWord →
        i.matchWord = j.matchWord)
    ∧ (∀ (c : Word32) (en : Bool), decode c = .ok (.rpush en) → en = c.getLsbD 8)

/-- R83: which words are illegal, and that executing one raises IllegalCommandError(INPOS) and changes
nothing else (CMD holds the word, R26).  The queue `host` is the model's (log 1). -/
def Obligations.IllegalWordRaisesIllegalCommand : Prop :=
  (∀ c : Word32, (∃ i, decode c = .ok i) ↔ legalCommand c = true)
    ∧ ∀ (s : State) (value : Word64) (rest : List Event),
        s.host = .write 0x00 value :: rest → s.status.err = false →
        legalCommand (value.setWidth 32) = false →
        step s = .next { s with
          host := rest, cmd := value.setWidth 32, errCmd := value.setWidth 32, errPos := s.inPos
          status := { s.status with err := true, errCode := 6 } }

/-- Words written out bit by bit from R80 and R81 decode to the instructions they stand for. -/
def Obligations.WrittenWordsDecode : Prop :=
  decode 0b00000000000000000000000000000010#32 = .ok .vdec
    ∧ decode 0b00000000000000000000000000010000#32 = .ok .quant
    ∧ decode 0b00000000000000000000000000100001#32 = .ok (.rpush false)
    ∧ decode 0b00000000000000000000000100100001#32 = .ok (.rpush true)
    ∧ decode 0b00000000000000000000000000110001#32 = .ok .iexact
    ∧ decode 0b00000000000000000000000001001000#32 = .ok .runpk
    ∧ decode 0b00000000000000000000000001010011#32 = .ok .cwend
    ∧ decode 0b00000000000000000000000001011001#32 = .ok .crrun
    ∧ decode 0b00000000000000000000000000000000#32 = .error .unknownOp
    ∧ decode 0b00000000000000000000000100000001#32 = .error .modifierNotAllowed
    ∧ decode 0b00000000000000000000001000100001#32 = .error .reservedBits

/-- R23: the number of each register, that a number names the register it belongs to, and which numbers
are unmapped. -/
def Obligations.RegisterNumbersFollowTheMap : Prop :=
  (Reg.cmd.number = 0x00 ∧ Reg.status.number = 0x01 ∧ Reg.errCmd.number = 0x02
      ∧ Reg.errPos.number = 0x03 ∧ Reg.ctrl.number = 0x04 ∧ Reg.inData.number = 0x05
      ∧ Reg.inCnt.number = 0x06 ∧ Reg.inPos.number = 0x07 ∧ Reg.outData.number = 0x08
      ∧ Reg.outCnt.number = 0x09 ∧ Reg.outTot.number = 0x0A)
    ∧ (Reg.v.number = 0x10 ∧ Reg.cnt.number = 0x11 ∧ Reg.rIdx.number = 0x12 ∧ Reg.rLen.number = 0x13
      ∧ Reg.width.number = 0x14 ∧ Reg.height.number = 0x15 ∧ Reg.alpha.number = 0x16
      ∧ Reg.sample.number = 0x17 ∧ Reg.color.number = 0x18 ∧ Reg.idx.number = 0x19)
    ∧ (∀ i : Fin 8,
        (Reg.qPal i).number.toNat = 0x20 + i.val ∧ (Reg.dPal i).number.toNat = 0x28 + i.val
          ∧ (Reg.pPal i).number.toNat = 0x30 + i.val ∧ (Reg.ct i).number.toNat = 0x40 + i.val)
    ∧ (Reg.qLen.number = 0x38 ∧ Reg.dLen.number = 0x39 ∧ Reg.ppLen.number = 0x3A
      ∧ Reg.ctLen.number = 0x48 ∧ Reg.cwTot.number = 0x50 ∧ Reg.cwCnt.number = 0x51
      ∧ Reg.cwRIdx.number = 0x52 ∧ Reg.cwRLen.number = 0x53 ∧ Reg.crRem.number = 0x58)
    ∧ (∀ r : Reg, Reg.ofNumber r.number = some r)
    ∧ ∀ n : BitVec 8, Reg.ofNumber n = none ↔
        (0x0B ≤ n.toNat ∧ n.toNat ≤ 0x0F) ∨ (0x1A ≤ n.toNat ∧ n.toNat ≤ 0x1F)
          ∨ (0x3B ≤ n.toNat ∧ n.toNat ≤ 0x3F) ∨ (0x49 ≤ n.toNat ∧ n.toNat ≤ 0x4F)
          ∨ (0x54 ≤ n.toNat ∧ n.toNat ≤ 0x57) ∨ 0x59 ≤ n.toNat

/-- R92, R93: the host operations the pseudo-instructions stand for. -/
def Obligations.PseudoInstructionsExpand : Prop :=
  (∀ (k : Nat) (bytes : List Nat),
      (Pseudo.feed bytes).events k = bytes.map fun b => .write 0x05 (BitVec.ofNat 64 b))
    ∧ (∀ k : Nat, Pseudo.drain.events k = List.replicate k (.read 0x08))
    ∧ (∀ k n : Nat, (Pseudo.vput n).events k = [.write 0x10 (BitVec.ofNat 64 n), .write 0x00 0x01])
    ∧ (∀ (k : Nat) (es : List Nat), es.length ≤ 8 →
        (Pseudo.setq es).events k =
          (es.zipIdx.map fun e => .write (BitVec.ofNat 8 (0x20 + e.2)) (BitVec.ofNat 64 e.1))
            ++ [.write 0x38 (BitVec.ofNat 64 es.length)])
    ∧ (∀ (k : Nat) (es : List Nat), es.length ≤ 8 →
        (Pseudo.setd es).events k =
          (es.zipIdx.map fun e => .write (BitVec.ofNat 8 (0x28 + e.2)) (BitVec.ofNat 64 e.1))
            ++ [.write 0x39 (BitVec.ofNat 64 es.length)])
    ∧ (∀ k r g b : Nat, (Pseudo.addrgb r g b).events k =
        [.write 0x18 (BitVec.ofNat 64 (r * 65536 + g * 256 + b)), .write 0x00 0x32])
    ∧ (∀ k : Nat, Pseudo.addtransp.events k = [.write 0x18 0x1000000, .write 0x00 0x32])
    ∧ (∀ k i : Nat, (Pseudo.pix i).events k = [.write 0x19 (BitVec.ofNat 64 i), .write 0x00 0x51])
    ∧ (∀ k i n : Nat, (Pseudo.pixrun i n).events k =
        [.write 0x19 (BitVec.ofNat 64 i), .write 0x13 (BitVec.ofNat 64 n), .write 0x00 0x52])
    ∧ (∀ k : Nat, Pseudo.clrstreams.events k = [.write 0x04 3])

/-! ## The step and the host interface -/

/-- R26: a write of a legal command word to CMD stores it and, while ERR = 0, performs the instruction
it decodes to.  The queue `host` and its advance are the model's own (log 1). -/
def Obligations.StepRunsDecodedCommand : Prop :=
  ∀ (s : State) (value : Word64) (rest : List Event) (i : Instr),
    s.host = .write 0x00 value :: rest → s.status.err = false →
    decode (value.setWidth 32) = .ok i →
    step s = exec i { s with host := rest, cmd := value.setWidth 32 }

/-- R253: while ERR = 1 a write of CMD stores the word and performs no command: no check, no error
entry, no state change.  The queue `host` is the model's (log 1). -/
def Obligations.CommandsRefusedWhileInError : Prop :=
  ∀ (s : State) (value : Word64) (rest : List Event),
    s.host = .write 0x00 value :: rest → s.status.err = true →
    step s = .next { s with host := rest, cmd := value.setWidth 32 }

/-- R24: a host write to a register that is only stored to keeps the value modulo 2^N and changes no
other register and no stream, whatever ERR is.  The queue `host` is the model's (log 1). -/
def Obligations.HostWriteStoresLowBits : Prop :=
  ∀ (s : State) (r : Reg) (value : Word64) (rest : List Event),
    storedReg r = true → s.host = .write r.number value :: rest →
    ∃ t, step s = .next t
      ∧ (readReg r t).toNat = value.toNat % 2 ^ regWidth r
      ∧ (∀ r' : Reg, r' ≠ r → readReg r' t = readReg r' s)
      ∧ t.input = s.input ∧ t.output = s.output ∧ t.inPos = s.inPos ∧ t.outTot = s.outTot
      ∧ t.errPos = s.errPos ∧ t.host = rest ∧ t.reads = s.reads

/-- R24: a host write to a read-only register or to an unmapped number has no effect.  The queue `host` is
the model's (log 1). -/
def Obligations.HostWriteIgnoredElsewhere : Prop :=
  ∀ (s : State) (num : BitVec 8) (value : Word64) (rest : List Event),
    s.host = .write num value :: rest →
    (∀ r, Reg.ofNumber num = some r → readOnlyReg r = true) →
    step s = .next { s with host := rest }

/-- R25: a host read of a mapped register other than OUTDATA returns its value, zero-extended, and has
no side effect; CTRL, INDATA and the unmapped numbers read 0.  R26-R46: which part of the state each
register shows (the counts and ERRPOS stand in CountersShowExactNumbers).  The queue `host` and the record `reads` of
what was read are the model's (log 1, log 3). -/
def Obligations.HostReadReturnsTheRegister : Prop :=
  (∀ (s : State) (r : Reg) (rest : List Event), r ≠ .outData → s.host = .read r.number :: rest →
      step s = .next { s with host := rest, reads := s.reads ++ [readReg r s] })
    ∧ (∀ (s : State) (num : BitVec 8) (rest : List Event), Reg.ofNumber num = none →
        s.host = .read num :: rest → step s = .next { s with host := rest, reads := s.reads ++ [0] })
    ∧ (∀ (s : State) (r : Reg), (readReg r s).toNat < 2 ^ regWidth r)
    ∧ (∀ s : State, readReg .ctrl s = 0 ∧ readReg .inData s = 0)
    ∧ (∀ s : State,
        readReg .cmd s = s.cmd.setWidth 64 ∧ readReg .status s = s.status.word.setWidth 64
          ∧ readReg .errCmd s = s.errCmd.setWidth 64)
    ∧ (∀ s : State,
        readReg .v s = s.v ∧ readReg .cnt s = s.cnt ∧ readReg .rIdx s = s.rIdx.setWidth 64
          ∧ readReg .rLen s = s.rLen ∧ readReg .width s = s.width ∧ readReg .height s = s.height
          ∧ readReg .alpha s = s.alpha.setWidth 64 ∧ readReg .sample s = s.sample.setWidth 64
          ∧ readReg .color s = s.color.setWidth 64 ∧ readReg .idx s = s.idx.setWidth 64)
    ∧ (∀ (s : State) (i : Fin 8),
        readReg (.qPal i) s = s.qPal[i].setWidth 64 ∧ readReg (.dPal i) s = s.dPal[i].setWidth 64
          ∧ readReg (.pPal i) s = s.pPal[i].setWidth 64 ∧ readReg (.ct i) s = s.ct[i].setWidth 64)
    ∧ (∀ s : State,
        readReg .qLen s = s.qLen.setWidth 64 ∧ readReg .dLen s = s.dLen.setWidth 64
          ∧ readReg .ppLen s = s.ppLen.setWidth 64 ∧ readReg .ctLen s = s.ctLen.setWidth 64)
    ∧ ∀ s : State,
        readReg .cwTot s = s.cwTot ∧ readReg .cwCnt s = s.cwCnt
          ∧ readReg .cwRIdx s = s.cwRIdx.setWidth 64 ∧ readReg .cwRLen s = s.cwRLen
          ∧ readReg .crRem s = s.crRem

/-- R32: a read of OUTDATA returns and removes the oldest byte of OUT, or returns 0 and changes nothing;
OUTTOT does not change.  The queue `host` and the record `reads` are the model's (log 1, log 3). -/
def Obligations.OutDataReadPopsOldestByte : Prop :=
  (∀ (s : State) (b : Byte) (bs : List Byte) (rest : List Event),
      s.host = .read 0x08 :: rest → s.output = b :: bs →
      step s = .next { s with host := rest, output := bs, reads := s.reads ++ [b.setWidth 64] })
    ∧ ∀ (s : State) (rest : List Event), s.host = .read 0x08 :: rest → s.output = [] →
        step s = .next { s with host := rest, reads := s.reads ++ [0] }

/-- R30: CTRL clears IN by bit 0 and OUT by bit 1, ignores bits 31:2, and changes no other state.  The
queue `host` is the model's (log 1). -/
def Obligations.CtrlClearsStreams : Prop :=
  ∀ (s : State) (value : Word64) (rest : List Event), s.host = .write 0x04 value :: rest →
    step s = .next { s with
      host := rest
      input := if value.toNat % 2 = 1 then [] else s.input
      inPos := if value.toNat % 2 = 1 then 0 else s.inPos
      output := if value.toNat / 2 % 2 = 1 then [] else s.output
      outTot := if value.toNat / 2 % 2 = 1 then 0 else s.outTot }

/-- R31: a write of INDATA appends the byte `v mod 256` at the end of IN.  The queue `host` is the model's
(log 1). -/
def Obligations.InDataWriteAppendsByte : Prop :=
  ∀ (s : State) (value : Word64) (rest : List Event), s.host = .write 0x05 value :: rest →
    step s = .next { s with
      host := rest, input := s.input ++ [BitVec.ofNat 8 (value.toNat % 256)] }

/-- R27: the fields of STATUS as the host reads them; the reserved bits, BUSY, and the bits above the
register's 32 (R25) read 0. -/
def Obligations.StatusWordLayout : Prop :=
  ∀ s : State,
    (readReg .status s).getLsbD 0 = s.status.err
      ∧ (readReg .status s).extractLsb' 4 4 = s.status.errCode
      ∧ (readReg .status s).getLsbD 8 = s.status.cwOpen
      ∧ (readReg .status s).getLsbD 9 = s.status.crOpen
      ∧ (readReg .status s).extractLsb' 1 3 = 0
      ∧ (readReg .status s).extractLsb' 10 21 = 0
      ∧ (readReg .status s).getLsbD 31 = false
      ∧ (readReg .status s).extractLsb' 32 32 = 0

/-- R31, R32, R29: below 2^64 the count and offset registers show the exact numbers.  Above, the model
shows a free value (DESIGN CHOICE, log 5), about which nothing is said. -/
def Obligations.CountersShowExactNumbers : Prop :=
  ∀ s : State,
    (s.input.length < 2 ^ 64 → (readReg .inCnt s).toNat = s.input.length)
      ∧ (s.inPos < 2 ^ 64 → (readReg .inPos s).toNat = s.inPos)
      ∧ (s.output.length < 2 ^ 64 → (readReg .outCnt s).toNat = s.output.length)
      ∧ (s.outTot < 2 ^ 64 → (readReg .outTot s).toNat = s.outTot)
      ∧ (s.errPos < 2 ^ 64 → (readReg .errPos s).toNat = s.errPos)

/-- R271: after reset every register reads 0 and both streams are empty.  That the coming operations and
the values read so far stay is the model's (log 4). -/
def Obligations.ResetClearsEverything : Prop :=
  (∀ r : Reg, readReg r State.reset = 0)
    ∧ State.reset.input = [] ∧ State.reset.output = []
    ∧ ∀ (s : State) (rest : List Event), s.host = .hardReset :: rest →
        step s = .next { State.reset with host := rest, reads := s.reads }

/-- R252, R270: while ERR = 1 nothing but a hardware reset changes STATUS.ERR, ERRCODE, ERRCMD or ERRPOS,
and a reset clears them.  The queue `host` is the model's (log 1). -/
def Obligations.ErrorStaysUntilReset : Prop :=
  ∀ (s t : State) (e : Event) (rest : List Event),
    s.host = e :: rest → s.status.err = true → step s = .next t →
    (e ≠ .hardReset → t.status = s.status ∧ t.errCmd = s.errCmd ∧ t.errPos = s.errPos)
      ∧ (e = .hardReset → t.status.err = false ∧ t.status.errCode = 0 ∧ t.errCmd = 0 ∧ t.errPos = 0)

/-- Every step of every state ends in a next state.  That the core never faults or halts is the model's
deduction (DEDUCED, log 9) from R24, R25, R83, R251 and R253, which give every operation and every error a
next state.  R20 says that the core never acts on its own; that a step with no event answers the same
state is the model's deduction too (DEDUCED, log 2). -/
def Obligations.EveryStepCompletes : Prop :=
  (∀ s : State, ∃ t, step s = .next t) ∧ ∀ s : State, s.host = [] → step s = .next s

/-! ## Errors and frames over all commands -/

/-- R250, R251: a command that raises writes ERR, ERRCODE, ERRCMD (its word) and ERRPOS and nothing else;
R240: only with a kind the error table gives it. -/
def Obligations.ErrorsArePrecise : Prop :=
  ∀ (i : Instr) (s t : State), s.status.err = false → exec i s = .next t → t.status.err = true →
    ∃ kind pos, kind ∈ raisedBy i
      ∧ t = { s with
          status := { s.status with err := true, errCode := kind.code }
          errCmd := encode i
          errPos := pos }

/-- R86: a command that completes writes only the registers its row lists, and no flag of STATUS but
the CWOPEN or CROPEN the row names. -/
def Obligations.CommandsWriteOnlyTheirRegisters : Prop :=
  ∀ (i : Instr) (s t : State), s.status.err = false → exec i s = .next t → t.status.err = false →
    WritesOnly s t i

/-- R86: what a command does depends only on the registers its row lists as read, and on INPOS for the
recorded position: from states that agree on those it ends alike, appends the same bytes and writes the
same values. -/
def Obligations.CommandsReadOnlyTheirOperands : Prop :=
  ∀ (i : Instr) (s s' t t' : State), s.status.err = false → s'.status.err = false →
    s.inPos = s'.inPos → ReadsAgree s s' i → exec i s = .next t → exec i s' = .next t' →
    t.status.err = t'.status.err
      ∧ (t.status.err = true →
          t.status.errCode = t'.status.errCode ∧ t.errPos = t'.errPos ∧ t.errCmd = t'.errCmd)
      ∧ (t.status.err = false → WritesAgree t t' i)
      ∧ ∃ xs, t.output = s.output ++ xs ∧ t'.output = s'.output ++ xs

/-- R62, R63: a command removes bytes from IN only at its old end, with INPOS moving by as many, and
appends bytes to OUT only at its new end, with OUTTOT growing by as many; one that raises does
neither. -/
def Obligations.CommandsConsumeAndAppend : Prop :=
  ∀ (i : Instr) (s t : State), s.status.err = false → exec i s = .next t →
    ∃ (k : Nat) (xs : List Byte), k ≤ s.input.length
      ∧ t.input = s.input.drop k ∧ t.inPos = s.inPos + k
      ∧ t.output = s.output ++ xs ∧ t.outTot = s.outTot + xs.length
      ∧ (t.status.err = true → k = 0 ∧ xs = [])

/-! ## Invariants -/

/-- Every step keeps the error, writer, reader and stream invariant of Safety (R27-R29, R32, R45, R46,
R205-R211). -/
def Obligations.StepKeepsInvariant : Prop :=
  ∀ s t : State, Inv s → step s = .next t → Inv t

/-- The state after reset has the invariant (R271). -/
def Obligations.ResetHasInvariant : Prop := Inv State.reset

/-! ## VarInt -/

/-- R102 with R87 and R100: VENC appends the minimal VarInt of V, and changes nothing else. -/
def Obligations.VencEmitsMinimalVarInt : Prop :=
  ∀ s : State, ∃ bs : List Byte,
    exec .venc s = .next { s with output := s.output ++ bs, outTot := s.outTot + bs.length }
      ∧ IsVarInt bs s.v.toNat ∧ bs.head? ≠ some 0x80 ∧ bs.length ≤ 10

/-- R103 with R101: VDEC decodes the VarInt at INPOS, minimal or not, and consumes exactly its bytes; the
first byte that takes the value to 2^64 raises OverflowError at its offset, and an IN that ends before a
byte with the flag clear raises TruncatedInputError at its end. -/
def Obligations.VdecDecodesOneVarInt : Prop :=
  (∀ (s : State) (bs rest : List Byte) (n : Nat), s.input = bs ++ rest → IsVarInt bs n →
      exec .vdec s = .next { s with
        v := BitVec.ofNat 64 n, input := rest, inPos := s.inPos + bs.length })
    ∧ (∀ (s : State) (cs rest : List Byte) (b : Byte), s.input = cs ++ b :: rest → AllContinue cs →
        varIntValue cs < 2 ^ 64 → 2 ^ 64 ≤ varIntValue (cs ++ [b]) →
        exec .vdec s = .next (errorEntry ⟨.overflow, s.inPos + cs.length⟩ (encode .vdec) s))
    ∧ (∀ s : State, AllContinue s.input → varIntValue s.input < 2 ^ 64 →
        exec .vdec s =
          .next (errorEntry ⟨.truncatedInput, s.inPos + s.input.length⟩ (encode .vdec) s))

/-- R104: decoding `VarIntEncode(n)`, followed by any bytes, gives back n and the length k with
`128^(k-1) <= n < 128^k`. -/
def Obligations.VarIntRoundTrip : Prop :=
  ∀ (n pos : Nat) (rest : List Byte), n < 2 ^ 64 →
    varIntDecode pos (varIntEncode n ++ rest) = .ok (n, (varIntEncode n).length)
      ∧ n < 128 ^ (varIntEncode n).length
      ∧ ((varIntEncode n).length = 1 ∨ 128 ^ ((varIntEncode n).length - 1) ≤ n)

/-! ## Quantizer -/

/-- R10: `round_half_even(s, c)` is the integer nearest to s/c, ties to the even integer. -/
def Obligations.RoundHalfEvenIsNearest : Prop :=
  ∀ s c : Nat, 1 ≤ c →
    2 * (c * roundHalfEven s c) ≤ 2 * s + c
      ∧ 2 * s ≤ 2 * (c * roundHalfEven s c) + c
      ∧ (2 * (c * roundHalfEven s c) = 2 * s + c ∨ 2 * s = 2 * (c * roundHalfEven s c) + c →
          roundHalfEven s c % 2 = 0)

/-- R126: QUANT replaces QPAL and QLEN by the palette of the CNT oldest bytes, 0 past its end, and
consumes them; CNT = 0 is illegal, and fewer bytes than CNT are a truncated input. -/
def Obligations.QuantWritesThePalette : Prop :=
  (∀ s : State, s.cnt ≠ 0 → s.cnt.toNat ≤ s.input.length →
      ∃ q : Vector Byte 8,
        exec .quant s = .next { s with
          qPal := q
          qLen := BitVec.ofNat 4 (quantizeFn ((s.input.take s.cnt.toNat).map BitVec.toNat)).length
          input := s.input.drop s.cnt.toNat
          inPos := s.inPos + s.cnt.toNat }
        ∧ ∀ i : Fin 8,
            q[i].toNat = (quantizeFn ((s.input.take s.cnt.toNat).map BitVec.toNat)).getD i.val 0)
    ∧ (∀ s : State, s.cnt = 0 →
        exec .quant s = .next (errorEntry ⟨.illegalCommand, s.inPos⟩ (encode .quant) s))
    ∧ (∀ s : State, s.cnt ≠ 0 → s.input.length < s.cnt.toNat →
        exec .quant s =
          .next (errorEntry ⟨.truncatedInput, s.inPos + s.input.length⟩ (encode .quant) s))

/-- R127: the palette has 1 to 8 entries, is non-decreasing, lies between the least and the greatest
sample, is the sorted set of samples when those have at most 7 values, and else has exactly 8 entries;
R120, R125: these are the rounded means of the 8 leaves of the sorted and trimmed samples, in order.  The
trimmed list is TrimClosedForm's, the leaves are BisectionGivesEightLeaves', the rounding is
RoundHalfEvenIsNearest's. -/
def Obligations.QuantizedPaletteProperties : Prop :=
  ∀ samples : List Nat, samples ≠ [] →
    1 ≤ (quantizeFn samples).length ∧ (quantizeFn samples).length ≤ 8
      ∧ (quantizeFn samples).Pairwise (· ≤ ·)
      ∧ (∀ v ∈ quantizeFn samples, (∃ a ∈ samples, a ≤ v) ∧ ∃ b ∈ samples, v ≤ b)
      ∧ (samples.toFinset.card ≤ 7 →
          (quantizeFn samples).Pairwise (· < ·) ∧ ∀ v, v ∈ quantizeFn samples ↔ v ∈ samples)
      ∧ (8 ≤ samples.toFinset.card →
          (quantizeFn samples).length = 8
            ∧ quantizeFn samples =
              (bisect (trim (sortSamples samples) samples.length)).map fun p =>
                roundHalfEven p.sum p.length)

/-- R123: trimming reduces the copies of the least and of the greatest sample to at most `N div 8` each
and keeps every other sample; R7: the list it works on is the non-decreasing permutation of the samples. -/
def Obligations.TrimClosedForm : Prop :=
  (∀ samples : List Nat,
    (sortSamples samples).Perm samples ∧ (sortSamples samples).Pairwise (· ≤ ·))
  ∧ ∀ (samples : List Nat) (lo hi : Nat), 8 ≤ samples.toFinset.card →
    lo ∈ samples → hi ∈ samples → (∀ x ∈ samples, lo ≤ x ∧ x ≤ hi) →
    trim (sortSamples samples) samples.length =
      List.replicate (min (samples.count lo) (samples.length / 8)) lo
        ++ (sortSamples samples).filter (fun x => decide (x ≠ lo ∧ x ≠ hi))
        ++ List.replicate (min (samples.count hi) (samples.length / 8)) hi

/-- R128: the palette depends on the samples only as a multiset. -/
def Obligations.QuantizerIgnoresSampleOrder : Prop :=
  ∀ xs ys : List Nat, xs.Perm ys → quantizeFn xs = quantizeFn ys

/-- R124, R125: the bisection cuts the list into 8 leaves, in order, that join to the list; the leaf sizes
are those of halving the length three times, the smaller half on the left (D16); with at least 8 samples
none is empty. -/
def Obligations.BisectionGivesEightLeaves : Prop :=
  ∀ l : List Nat,
    (bisect l).length = 8 ∧ (bisect l).flatten = l
      ∧ (bisect l).map List.length =
        (((halfSizes l.length).flatMap halfSizes).flatMap halfSizes)
      ∧ (8 ≤ l.length → ∀ p ∈ bisect l, p ≠ [])

/-! ## Rebalancer -/

/-- R145 with R142: RDIST writes DPAL and DLEN with the distinct palette of QPAL, whose buckets strictly
increase, whose values are bytes, and whose low 3 bits are QPAL's; QLEN above 8 is illegal. -/
def Obligations.RdistMakesBucketsDistinct : Prop :=
  (∀ s : State, s.qLen.toNat ≤ 8 →
      ∃ (d : Vector Byte 8) (q : List Nat),
        exec .rdist s = .next { s with dPal := d, dLen := s.qLen }
          ∧ q = distinctFn (paletteOf s.qPal s.qLen)
          ∧ (∀ i : Fin 8, d[i].toNat = q.getD i.val 0)
          ∧ q.length = s.qLen.toNat
          ∧ q.Pairwise (fun a b => a / 8 < b / 8)
          ∧ (∀ x ∈ q, x < 256)
          ∧ q.map (· % 8) = (paletteOf s.qPal s.qLen).map (· % 8))
    ∧ (∀ s : State, 8 < s.qLen.toNat →
        exec .rdist s = .next (errorEntry ⟨.illegalCommand, s.inPos⟩ (encode .rdist) s))

/-- R140, R141: what the inner loops of the two sweeps reach, and what the sweeps do with them.  The
forward loop raises an entry to the bucket after its neighbour's, or to 31; the backward one lowers it to
the bucket before its neighbour's.  The forward sweep keeps the first entry and raises each later one
against the entry before it, already swept; the backward sweep keeps the last entry and lowers each
earlier one against the entry after it, already swept; DistinctFn is the forward sweep and then the
backward one. -/
def Obligations.SweepsMoveByWholeBuckets : Prop :=
  (∀ prev v : Nat, prev < 256 → v < 256 →
      raiseAbove 32 prev v =
        if prev / 8 < v / 8 then v else v + 8 * (min (prev / 8 + 1) 31 - v / 8))
    ∧ (∀ next v : Nat, v < 256 → 8 ≤ next →
        lowerBelow 32 next v = if v / 8 < next / 8 then v else v - 8 * (v / 8 + 1 - next / 8))
    ∧ (∀ p : List Nat, (forwardSweep p).length = p.length
        ∧ (forwardSweep p).head? = p.head?
        ∧ ∀ i, i + 1 < p.length →
            (forwardSweep p).getD (i + 1) 0 =
              raiseAbove 32 ((forwardSweep p).getD i 0) (p.getD (i + 1) 0))
    ∧ (∀ p : List Nat, (backwardSweep p).length = p.length
        ∧ (backwardSweep p).getLast? = p.getLast?
        ∧ ∀ i, i + 1 < p.length →
            (backwardSweep p).getD i 0 =
              lowerBelow 32 ((backwardSweep p).getD (i + 1) 0) (p.getD i 0))
    ∧ ∀ p : List Nat, distinctFn p = backwardSweep (forwardSweep p)

/-- R146: RPUSH copies DPAL when EN = 0 and pushes it when EN = 1, with 0 past DLEN; DLEN above 8 is
illegal. -/
def Obligations.RpushCopiesOrPushes : Prop :=
  (∀ s : State, s.dLen.toNat ≤ 8 →
      ∃ p : Vector Byte 8, exec (.rpush false) s = .next { s with pPal := p, ppLen := s.dLen }
        ∧ ∀ i : Fin 8, p[i] = if i.val < s.dLen.toNat then s.dPal[i] else 0)
    ∧ (∀ s : State, s.dLen.toNat ≤ 8 →
        ∃ p : Vector Byte 8, exec (.rpush true) s = .next { s with pPal := p, ppLen := s.dLen }
          ∧ ∀ i : Fin 8, p[i].toNat = (pushFn (paletteOf s.dPal s.dLen)).getD i.val 0)
    ∧ (∀ (en : Bool) (s : State), 8 < s.dLen.toNat →
        exec (.rpush en) s = .next (errorEntry ⟨.illegalCommand, s.inPos⟩ (encode (.rpush en)) s))

/-- R144: for strictly increasing buckets the push keeps the length, raises no entry above 255 and lowers
none, keeps the buckets strictly increasing, and its budget never decreases. -/
def Obligations.PushKeepsBucketsIncreasing : Prop :=
  (∀ d : List Nat, d.length ≤ 8 → (∀ x ∈ d, x < 256) → d.Pairwise (fun a b => a / 8 < b / 8) →
      (pushFn d).length = d.length
        ∧ List.Forall₂ (· ≤ ·) d (pushFn d)
        ∧ (∀ x ∈ pushFn d, x ≤ 255)
        ∧ (pushFn d).Pairwise (fun a b => a / 8 < b / 8))
    ∧ ∀ (budget before after : Nat) (darker : List Nat), budget ≤ nextBudget budget before after darker

/-- R143: an entry rises one bucket a step up to its budget; the brightest is capped at 255 and any other
stays strictly below the bucket of its brighter neighbour.  PushFn pushes the brightest entry, the last,
with budget 1, and each darker one against its brighter neighbour, already pushed; the budget for the
darker entries grows by 1 exactly when the entry's bucket rose and the next darker entry, not yet pushed,
is below bucket 20. -/
def Obligations.PushStopsAtBudgetOrNeighbour : Prop :=
  (∀ budget v : Nat, v ≤ 255 → pushEntry budget none v = min (v + 8 * budget) 255)
    ∧ (∀ budget q v : Nat, q ≤ 255 → v ≤ 255 →
        pushEntry budget (some q) v = v + 8 * min budget (q / 8 - 1 - v / 8))
    ∧ (∀ (budget before after : Nat) (darker : List Nat),
        nextBudget budget before after darker =
          if before / 8 < after / 8 ∧ darker ≠ [] ∧ darker.headD 0 / 8 < 20 then budget + 1
          else budget)
    ∧ ∀ d : List Nat, d ≠ [] → ∃ budget : Nat → Nat,
        (pushFn d).length = d.length
          ∧ budget (d.length - 1) = 1
          ∧ (pushFn d).getD (d.length - 1) 0 = pushEntry 1 none (d.getD (d.length - 1) 0)
          ∧ ∀ i, i + 1 < d.length →
              budget i =
                  (if d.getD (i + 1) 0 / 8 < (pushFn d).getD (i + 1) 0 / 8 ∧ d.getD i 0 / 8 < 20
                    then budget (i + 1) + 1 else budget (i + 1))
                ∧ (pushFn d).getD i 0 =
                  pushEntry (budget i) (some ((pushFn d).getD (i + 1) 0)) (d.getD i 0)

/-- R147: the push pass does not affect indexing: INEAR after RPUSH, with or without EN, ends as INEAR
before it, PPAL and PPLEN apart. -/
def Obligations.PushDoesNotAffectIndexing : Prop :=
  ∀ (en : Bool) (s t u : State), s.status.err = false → exec (.rpush en) s = .next t →
    t.status.err = false → exec .inear s = .next u →
    exec .inear t = .next { u with pPal := t.pPal, ppLen := t.ppLen }

/-! ## Indexer -/

/-- R161 with R160: INEAR writes IDX with the 1-based index of the nearest entry of DPAL, the lowest such
index; DLEN of 0 or above 8 is illegal. -/
def Obligations.InearFindsLowestNearest : Prop :=
  (∀ s : State, s.dLen ≠ 0 → s.dLen.toNat ≤ 8 →
      ∃ j : Fin 8, j.val < s.dLen.toNat
        ∧ exec .inear s = .next { s with idx := BitVec.ofNat 4 (j.val + 1) }
        ∧ ∀ k : Fin 8, k.val < s.dLen.toNat →
            ((s.sample.toNat : Int) - s.dPal[j].toNat).natAbs
                ≤ ((s.sample.toNat : Int) - s.dPal[k].toNat).natAbs
              ∧ (k < j →
                  ((s.sample.toNat : Int) - s.dPal[j].toNat).natAbs
                    < ((s.sample.toNat : Int) - s.dPal[k].toNat).natAbs))
    ∧ (∀ s : State, s.dLen = 0 ∨ 8 < s.dLen.toNat →
        exec .inear s = .next (errorEntry ⟨.illegalCommand, s.inPos⟩ (encode .inear) s))

/-- R162: the colour-table entry of COLOR: 0 for the transparent sentinel, else R, G, B in the three top
bytes and 255 in the low byte. -/
def Obligations.NormColorLayout : Prop :=
  ∀ c : BitVec 25,
    (c.getLsbD 24 = true → normColor c = 0)
      ∧ (c.getLsbD 24 = false → (normColor c).toNat = c.toNat * 256 + 255)

/-- R163: IEXACT writes IDX with the least position of COLOR's entry below CTLEN, plus 1; a colour not
in the table is an invalid palette, and CTLEN above 8 is illegal. -/
def Obligations.IexactFindsLowestEntry : Prop :=
  (∀ (s : State) (j : Fin 8), s.ctLen.toNat ≤ 8 → j.val < s.ctLen.toNat →
      s.ct[j] = normColor s.color → (∀ k : Fin 8, k < j → s.ct[k] ≠ normColor s.color) →
      exec .iexact s = .next { s with idx := BitVec.ofNat 4 (j.val + 1) })
    ∧ (∀ s : State, s.ctLen.toNat ≤ 8 →
        (∀ k : Fin 8, k.val < s.ctLen.toNat → s.ct[k] ≠ normColor s.color) →
        exec .iexact s = .next (errorEntry ⟨.invalidPalette, s.inPos⟩ (encode .iexact) s))
    ∧ (∀ s : State, 8 < s.ctLen.toNat →
        exec .iexact s = .next (errorEntry ⟨.illegalCommand, s.inPos⟩ (encode .iexact) s))

/-- R164: CTADD finds COLOR in the table, or appends it at CTLEN and counts it; a ninth distinct colour is
an invalid palette, and CTLEN above 8 is illegal. -/
def Obligations.CtaddFindsOrAppends : Prop :=
  (∀ (s : State) (j : Fin 8), s.ctLen.toNat ≤ 8 → j.val < s.ctLen.toNat →
      s.ct[j] = normColor s.color → (∀ k : Fin 8, k < j → s.ct[k] ≠ normColor s.color) →
      exec .ctadd s = .next { s with idx := BitVec.ofNat 4 (j.val + 1) })
    ∧ (∀ s : State, s.ctLen.toNat < 8 →
        (∀ k : Fin 8, k.val < s.ctLen.toNat → s.ct[k] ≠ normColor s.color) →
        ∃ ct' : Vector Word32 8,
          exec .ctadd s = .next { s with ct := ct', ctLen := s.ctLen + 1, idx := s.ctLen + 1 }
            ∧ ∀ k : Fin 8, ct'[k] = if k.val = s.ctLen.toNat then normColor s.color else s.ct[k])
    ∧ (∀ s : State, s.ctLen.toNat = 8 → (∀ k : Fin 8, s.ct[k] ≠ normColor s.color) →
        exec .ctadd s = .next (errorEntry ⟨.invalidPalette, s.inPos⟩ (encode .ctadd) s))
    ∧ (∀ s : State, 8 < s.ctLen.toNat →
        exec .ctadd s = .next (errorEntry ⟨.illegalCommand, s.inPos⟩ (encode .ctadd) s))

/-- R163, R164: IEXACT after a CTADD that completes finds the same index, and so changes nothing. -/
def Obligations.IexactAgreesWithCtadd : Prop :=
  ∀ s t : State, s.status.err = false → exec .ctadd s = .next t → t.status.err = false →
    exec .iexact t = .next t

/-- R165: CTCLR empties the colour table and changes nothing else. -/
def Obligations.CtclrEmptiesTheTable : Prop :=
  ∀ s : State, exec .ctclr s = .next { s with ct := #v[0, 0, 0, 0, 0, 0, 0, 0], ctLen := 0 }

/-! ## Runs -/

/-- R182 with R180 and R181: RPACK appends `RLEN div 4095` long records of count 4095 and then the record
of the rest, short up to 15; RLEN = 0 is an overflow. -/
def Obligations.RpackPacksCappedChunks : Prop :=
  (∀ (s : State) (i n r : Nat), s.rIdx.toNat = i → s.rLen.toNat = n → n ≠ 0 → r = n % 4095 →
      ∃ bs : List Byte,
        exec .rpack s = .next { s with output := s.output ++ bs, outTot := s.outTot + bs.length }
          ∧ bs =
            (List.replicate (n / 4095) [BitVec.ofNat 8 (i * 32 + 31), 0xFF]).flatten
              ++ (if r = 0 then []
                  else if r ≤ 15 then [BitVec.ofNat 8 (i * 32 + r)]
                  else [BitVec.ofNat 8 (i * 32 + 16 + r / 256), BitVec.ofNat 8 (r % 256)]))
    ∧ (∀ s : State, s.rLen = 0 →
        exec .rpack s = .next (errorEntry ⟨.overflow, s.inPos⟩ (encode .rpack) s))

/-- R184 with R183, R88 and R89: RUNPK decodes one record into RIDX and RLEN and consumes its 1 or 2
bytes; an empty IN, a missing second byte and a count of 0 raise their errors at INPOS. -/
def Obligations.RunpkDecodesOneRecord : Prop :=
  (∀ (s : State) (b0 : Byte) (rest : List Byte), s.input = b0 :: rest →
      b0.toNat / 16 % 2 = 0 → b0.toNat % 16 ≠ 0 →
      exec .runpk s = .next { s with
        rIdx := BitVec.ofNat 3 (b0.toNat / 32), rLen := BitVec.ofNat 64 (b0.toNat % 16)
        input := rest, inPos := s.inPos + 1 })
    ∧ (∀ (s : State) (b0 b1 : Byte) (rest : List Byte), s.input = b0 :: b1 :: rest →
        b0.toNat / 16 % 2 = 1 → b0.toNat % 16 * 256 + b1.toNat ≠ 0 →
        exec .runpk s = .next { s with
          rIdx := BitVec.ofNat 3 (b0.toNat / 32)
          rLen := BitVec.ofNat 64 (b0.toNat % 16 * 256 + b1.toNat)
          input := rest, inPos := s.inPos + 2 })
    ∧ (∀ s : State, s.input = [] →
        exec .runpk s = .next (errorEntry ⟨.truncatedInput, s.inPos⟩ (encode .runpk) s))
    ∧ (∀ (s : State) (b0 : Byte), s.input = [b0] → b0.toNat / 16 % 2 = 1 →
        exec .runpk s = .next (errorEntry ⟨.malformedRunRecord, s.inPos⟩ (encode .runpk) s))
    ∧ (∀ (s : State) (b0 : Byte) (rest : List Byte), s.input = b0 :: rest →
        b0.toNat / 16 % 2 = 0 → b0.toNat % 16 = 0 →
        exec .runpk s = .next (errorEntry ⟨.overflow, s.inPos⟩ (encode .runpk) s))
    ∧ (∀ (s : State) (b0 b1 : Byte) (rest : List Byte), s.input = b0 :: b1 :: rest →
        b0.toNat / 16 % 2 = 1 → b0.toNat % 16 * 256 + b1.toNat = 0 →
        exec .runpk s = .next (errorEntry ⟨.overflow, s.inPos⟩ (encode .runpk) s))

/-- R186: decoding a packed run gives `ceil(n / 4095)` records of its index whose counts sum to n and
merge to the run; packing a sequence of runs with no two equal neighbours, decoding and merging gives the
sequence; and how many bytes a packed run takes. -/
def Obligations.PackedRunsRoundTrip : Prop :=
  (∀ (i : BitVec 3) (n : Nat), 1 ≤ n →
      ∃ rs, decodeRecords (packRun i n) = some rs ∧ rs.length = (n + 4094) / 4095
        ∧ (∀ r ∈ rs, r.1 = i) ∧ runsTotal rs = n ∧ mergeRecords rs = [(i, n)])
    ∧ (∀ (i : BitVec 3) (n : Nat), 1 ≤ n →
        (packRun i n).length =
          2 * (n / 4095) + (if n % 4095 = 0 then 0 else if n % 4095 ≤ 15 then 1 else 2))
    ∧ ∀ runs : List (BitVec 3 × Nat), (∀ r ∈ runs, 1 ≤ r.2) →
        runs.IsChain (fun a b => a.1 ≠ b.1) →
        ∃ rs, decodeRecords (runs.flatMap fun r => packRun r.1 r.2) = some rs
          ∧ mergeRecords rs = runs

/-! ## Container writer -/

/-- R205 with R200-R203: CWHDR emits magic, width, height, flags and colour table and opens the writer
for W*H pixels; its three errors come in order.  The values of the magic bytes are PRESUMED (log 12): R201
itself marks them 'from general knowledge, not in source'. -/
def Obligations.CwhdrWritesTheHeader : Prop :=
  (∀ s : State, s.status.cwOpen = false → s.ctLen ≠ 0 → s.ctLen.toNat ≤ 8 →
      s.width.toNat * s.height.toNat < 2 ^ 64 →
      ∃ bs : List Byte,
        exec .cwhdr s = .next { s with
          output := s.output ++ bs, outTot := s.outTot + bs.length
          status := { s.status with cwOpen := true }
          cwTot := s.width * s.height, cwCnt := 0, cwRIdx := 0, cwRLen := 0 }
        ∧ bs = [0x52, 0x4C, 0x45, 0x33] ++ varIntEncode s.width.toNat ++ varIntEncode s.height.toNat
            ++ [BitVec.ofNat 8 (s.alpha.toNat * 128 + s.ctLen.toNat)]
            ++ ((s.ct.toList.take s.ctLen.toNat).map fun e =>
                [BitVec.ofNat 8 (e.toNat / 2 ^ 24), BitVec.ofNat 8 (e.toNat / 2 ^ 16),
                  BitVec.ofNat 8 (e.toNat / 2 ^ 8)]
                  ++ (if s.alpha = 1 then [BitVec.ofNat 8 e.toNat] else [])).flatten
        ∧ bs.length = 4 + (varIntEncode s.width.toNat).length + (varIntEncode s.height.toNat).length + 1
            + s.ctLen.toNat * (3 + s.alpha.toNat))
    ∧ (∀ s : State, s.status.cwOpen = true →
        exec .cwhdr s = .next (errorEntry ⟨.illegalCommand, s.inPos⟩ (encode .cwhdr) s))
    ∧ (∀ s : State, s.status.cwOpen = false → s.ctLen = 0 ∨ 8 < s.ctLen.toNat →
        exec .cwhdr s = .next (errorEntry ⟨.invalidPalette, s.inPos⟩ (encode .cwhdr) s))
    ∧ (∀ s : State, s.status.cwOpen = false → s.ctLen ≠ 0 → s.ctLen.toNat ≤ 8 →
        2 ^ 64 ≤ s.width.toNat * s.height.toNat →
        exec .cwhdr s = .next (errorEntry ⟨.overflow, s.inPos⟩ (encode .cwhdr) s))

/-- R206, R207: CWPIX extends the pending run, or packs it and starts one of length 1; its two errors
come in order.  The premise on the counters is part of the invariant that StepKeepsInvariant states. -/
def Obligations.CwpixAddsOnePixel : Prop :=
  (∀ (s : State) (w : BitVec 3), WriterOk s → s.status.cwOpen = true →
      1 ≤ s.idx.toNat → s.idx.toNat ≤ 8 → s.idx.toNat ≤ s.ctLen.toNat → w.toNat + 1 = s.idx.toNat →
      s.cwCnt ≠ s.cwTot →
      (s.cwRLen ≠ 0 → s.cwRIdx = w →
          exec .cwpix s = .next { s with cwRLen := s.cwRLen + 1, cwCnt := s.cwCnt + 1 })
        ∧ (s.cwRLen ≠ 0 → s.cwRIdx ≠ w →
            exec .cwpix s = .next { s with
              output := s.output ++ packRun s.cwRIdx s.cwRLen.toNat
              outTot := s.outTot + (packRun s.cwRIdx s.cwRLen.toNat).length
              cwRIdx := w, cwRLen := 1, cwCnt := s.cwCnt + 1 })
        ∧ (s.cwRLen = 0 →
            exec .cwpix s = .next { s with cwRIdx := w, cwRLen := 1, cwCnt := s.cwCnt + 1 }))
    ∧ (∀ s : State,
        s.status.cwOpen = false ∨ s.idx = 0 ∨ 8 < s.idx.toNat ∨ s.ctLen.toNat < s.idx.toNat →
        exec .cwpix s = .next (errorEntry ⟨.illegalCommand, s.inPos⟩ (encode .cwpix) s))
    ∧ (∀ s : State, s.status.cwOpen = true → 1 ≤ s.idx.toNat → s.idx.toNat ≤ 8 →
        s.idx.toNat ≤ s.ctLen.toNat → s.cwCnt = s.cwTot →
        exec .cwpix s = .next (errorEntry ⟨.pixelCountMismatch, s.inPos⟩ (encode .cwpix) s))

/-- R206, R208: CWRUN extends the pending run by RLEN, or packs it and starts one of length RLEN; its
three errors come in order.  The premise on the counters is part of the invariant that
StepKeepsInvariant states. -/
def Obligations.CwrunAddsOneRun : Prop :=
  (∀ (s : State) (w : BitVec 3), WriterOk s → s.status.cwOpen = true →
      1 ≤ s.idx.toNat → s.idx.toNat ≤ 8 → s.idx.toNat ≤ s.ctLen.toNat → w.toNat + 1 = s.idx.toNat →
      s.rLen ≠ 0 → s.cwCnt.toNat + s.rLen.toNat ≤ s.cwTot.toNat →
      (s.cwRLen ≠ 0 → s.cwRIdx = w →
          exec .cwrun s = .next { s with cwRLen := s.cwRLen + s.rLen, cwCnt := s.cwCnt + s.rLen })
        ∧ (s.cwRLen ≠ 0 → s.cwRIdx ≠ w →
            exec .cwrun s = .next { s with
              output := s.output ++ packRun s.cwRIdx s.cwRLen.toNat
              outTot := s.outTot + (packRun s.cwRIdx s.cwRLen.toNat).length
              cwRIdx := w, cwRLen := s.rLen, cwCnt := s.cwCnt + s.rLen })
        ∧ (s.cwRLen = 0 →
            exec .cwrun s = .next { s with
              cwRIdx := w, cwRLen := s.rLen, cwCnt := s.cwCnt + s.rLen }))
    ∧ (∀ s : State,
        s.status.cwOpen = false ∨ s.idx = 0 ∨ 8 < s.idx.toNat ∨ s.ctLen.toNat < s.idx.toNat →
        exec .cwrun s = .next (errorEntry ⟨.illegalCommand, s.inPos⟩ (encode .cwrun) s))
    ∧ (∀ s : State, s.status.cwOpen = true → 1 ≤ s.idx.toNat → s.idx.toNat ≤ 8 →
        s.idx.toNat ≤ s.ctLen.toNat → s.rLen = 0 →
        exec .cwrun s = .next (errorEntry ⟨.overflow, s.inPos⟩ (encode .cwrun) s))
    ∧ (∀ s : State, s.status.cwOpen = true → 1 ≤ s.idx.toNat → s.idx.toNat ≤ 8 →
        s.idx.toNat ≤ s.ctLen.toNat → s.rLen ≠ 0 → s.cwCnt.toNat ≤ s.cwTot.toNat →
        s.cwTot.toNat < s.cwCnt.toNat + s.rLen.toNat →
        exec .cwrun s = .next (errorEntry ⟨.pixelCountMismatch, s.inPos⟩ (encode .cwrun) s))

/-- R209: CWEND packs the pending run and closes the writer; its two errors come in order. -/
def Obligations.CwendClosesTheWriter : Prop :=
  (∀ s : State, s.status.cwOpen = true → s.cwCnt = s.cwTot →
      (s.cwRLen ≠ 0 →
          exec .cwend s = .next { s with
            output := s.output ++ packRun s.cwRIdx s.cwRLen.toNat
            outTot := s.outTot + (packRun s.cwRIdx s.cwRLen.toNat).length
            status := { s.status with cwOpen := false }, cwRLen := 0 })
        ∧ (s.cwRLen = 0 →
            exec .cwend s = .next { s with status := { s.status with cwOpen := false } }))
    ∧ (∀ s : State, s.status.cwOpen = false →
        exec .cwend s = .next (errorEntry ⟨.illegalCommand, s.inPos⟩ (encode .cwend) s))
    ∧ (∀ s : State, s.status.cwOpen = true → s.cwCnt ≠ s.cwTot →
        exec .cwend s = .next (errorEntry ⟨.pixelCountMismatch, s.inPos⟩ (encode .cwend) s))

/-- R208: CWRUN with RLEN = m has the same effect as m CWPIX with the same IDX.  The premise on the
counters is part of the invariant that StepKeepsInvariant states. -/
def Obligations.CwrunIsRepeatedCwpix : Prop :=
  ∀ s : State, WriterOk s → s.status.cwOpen = true →
    1 ≤ s.idx.toNat → s.idx.toNat ≤ 8 → s.idx.toNat ≤ s.ctLen.toNat →
    s.rLen ≠ 0 → s.cwCnt.toNat + s.rLen.toNat ≤ s.cwTot.toNat →
    exec .cwrun s = repeatExec .cwpix s.rLen.toNat s

/-- R206, R209: writing a container run by run emits the header and then one packed run for every
maximal run of the given sequence, and closes the writer. -/
def Obligations.WriterPacksMaximalRuns : Prop :=
  ∀ (s : State) (runs : List (BitVec 3 × Nat)),
    s.status.cwOpen = false → s.ctLen ≠ 0 → s.ctLen.toNat ≤ 8 →
    runsTotal runs = s.width.toNat * s.height.toNat → runsTotal runs < 2 ^ 64 →
    RunsOk s.ctLen.toNat runs →
    ∃ t0 t, exec .cwhdr s = .next t0 ∧ writeRuns runs t0 = .next t
      ∧ t.status = s.status
      ∧ t.output = s.output ++ headerBytes s.width.toNat s.height.toNat s.alpha (tableOf s)
          ++ (mergeRecords runs).flatMap (fun r => packRun r.1 r.2)
      ∧ (mergeRecords runs).IsChain (fun a b => a.1 ≠ b.1)

/-! ## Container reader -/

/-- R210: CRHDR reads a container header at INPOS: width, height, ALPHA, the table with marker 255 where
there is none, and CROPEN when there are samples to cover; it consumes exactly the header.  The values of
the magic bytes are PRESUMED (log 12): R201 itself marks them 'from general knowledge, not in source'. -/
def Obligations.CrhdrReadsTheHeader : Prop :=
  ∀ (s : State) (vw vh tb rest : List Byte) (w h n : Nat) (f : Byte) (a : BitVec 1),
    s.status.crOpen = false →
    s.input = [0x52, 0x4C, 0x45, 0x33] ++ vw ++ vh ++ [f] ++ tb ++ rest →
    IsVarInt vw w → IsVarInt vh h → w * h < 2 ^ 64 →
    f.toNat = a.toNat * 128 + n → 1 ≤ n → n ≤ 8 → tb.length = n * (3 + a.toNat) →
    ∃ ct' : Vector Word32 8,
      exec .crhdr s = .next { s with
        width := BitVec.ofNat 64 w, height := BitVec.ofNat 64 h, alpha := a
        ct := ct', ctLen := BitVec.ofNat 4 n, crRem := BitVec.ofNat 64 (w * h)
        status := { s.status with crOpen := decide (0 < w * h) }
        input := rest, inPos := s.inPos + (4 + vw.length + vh.length + 1 + tb.length) }
      ∧ ∀ j : Fin 8,
          ct'[j] =
            if j.val < n then
              tb.getD ((3 + a.toNat) * j.val) 0 ++ tb.getD ((3 + a.toNat) * j.val + 1) 0
                ++ tb.getD ((3 + a.toNat) * j.val + 2) 0
                ++ (if a = 1 then tb.getD ((3 + a.toNat) * j.val + 3) 0 else 0xFF#8)
            else 0

/-- R210: the errors of CRHDR, each at the first byte that shows it.  The values of the magic bytes are
PRESUMED (log 12): R201 itself marks them 'from general knowledge, not in source'. -/
def Obligations.CrhdrRaisesAtTheFirstBadByte : Prop :=
  (∀ s : State, s.status.crOpen = true →
      exec .crhdr s = .next (errorEntry ⟨.illegalCommand, s.inPos⟩ (encode .crhdr) s))
    ∧ (∀ (s : State) (j : Nat), s.status.crOpen = false → j < 4 →
        s.input = [0x52, 0x4C, 0x45, 0x33].take j →
        exec .crhdr s = .next (errorEntry ⟨.truncatedInput, s.inPos + j⟩ (encode .crhdr) s))
    ∧ (∀ (s : State) (j : Fin 4) (b : Byte) (rest : List Byte), s.status.crOpen = false →
        s.input = [0x52, 0x4C, 0x45, 0x33].take j.val ++ b :: rest →
        b ≠ (#v[0x52, 0x4C, 0x45, 0x33] : Vector Byte 4)[j] →
        exec .crhdr s = .next (errorEntry ⟨.badMagic, s.inPos + j.val⟩ (encode .crhdr) s))
    ∧ (∀ (s : State) (cs : List Byte), s.status.crOpen = false →
        s.input = [0x52, 0x4C, 0x45, 0x33] ++ cs → AllContinue cs → varIntValue cs < 2 ^ 64 →
        exec .crhdr s =
          .next (errorEntry ⟨.truncatedInput, s.inPos + s.input.length⟩ (encode .crhdr) s))
    ∧ (∀ (s : State) (cs rest : List Byte) (b : Byte), s.status.crOpen = false →
        s.input = [0x52, 0x4C, 0x45, 0x33] ++ cs ++ b :: rest → AllContinue cs →
        varIntValue cs < 2 ^ 64 → 2 ^ 64 ≤ varIntValue (cs ++ [b]) →
        exec .crhdr s =
          .next (errorEntry ⟨.overflow, s.inPos + 4 + cs.length⟩ (encode .crhdr) s))
    ∧ (∀ (s : State) (vw cs : List Byte) (w : Nat), s.status.crOpen = false →
        s.input = [0x52, 0x4C, 0x45, 0x33] ++ vw ++ cs → IsVarInt vw w → AllContinue cs →
        varIntValue cs < 2 ^ 64 →
        exec .crhdr s =
          .next (errorEntry ⟨.truncatedInput, s.inPos + s.input.length⟩ (encode .crhdr) s))
    ∧ (∀ (s : State) (vw cs rest : List Byte) (w : Nat) (b : Byte), s.status.crOpen = false →
        s.input = [0x52, 0x4C, 0x45, 0x33] ++ vw ++ cs ++ b :: rest → IsVarInt vw w →
        AllContinue cs → varIntValue cs < 2 ^ 64 → 2 ^ 64 ≤ varIntValue (cs ++ [b]) →
        exec .crhdr s =
          .next (errorEntry ⟨.overflow, s.inPos + 4 + vw.length + cs.length⟩ (encode .crhdr) s))
    ∧ (∀ (s : State) (vw vh rest : List Byte) (w h : Nat), s.status.crOpen = false →
        s.input = [0x52, 0x4C, 0x45, 0x33] ++ vw ++ vh ++ rest → IsVarInt vw w → IsVarInt vh h →
        2 ^ 64 ≤ w * h →
        exec .crhdr s =
          .next (errorEntry ⟨.overflow, s.inPos + 4 + vw.length + vh.length - 1⟩ (encode .crhdr) s))
    ∧ (∀ (s : State) (vw vh : List Byte) (w h : Nat), s.status.crOpen = false →
        s.input = [0x52, 0x4C, 0x45, 0x33] ++ vw ++ vh → IsVarInt vw w → IsVarInt vh h →
        w * h < 2 ^ 64 →
        exec .crhdr s =
          .next (errorEntry ⟨.truncatedInput, s.inPos + s.input.length⟩ (encode .crhdr) s))
    ∧ (∀ (s : State) (vw vh rest : List Byte) (w h : Nat) (f : Byte), s.status.crOpen = false →
        s.input = [0x52, 0x4C, 0x45, 0x33] ++ vw ++ vh ++ f :: rest → IsVarInt vw w → IsVarInt vh h →
        w * h < 2 ^ 64 → f.toNat % 128 = 0 ∨ 8 < f.toNat % 128 →
        exec .crhdr s =
          .next (errorEntry ⟨.invalidPalette, s.inPos + 4 + vw.length + vh.length⟩ (encode .crhdr) s))
    ∧ (∀ (s : State) (vw vh tb : List Byte) (w h : Nat) (f : Byte), s.status.crOpen = false →
        s.input = [0x52, 0x4C, 0x45, 0x33] ++ vw ++ vh ++ f :: tb → IsVarInt vw w → IsVarInt vh h →
        w * h < 2 ^ 64 → 1 ≤ f.toNat % 128 → f.toNat % 128 ≤ 8 →
        tb.length < f.toNat % 128 * (3 + f.toNat / 128) →
        exec .crhdr s =
          .next (errorEntry ⟨.truncatedInput, s.inPos + s.input.length⟩ (encode .crhdr) s))

/-- R212 for the header: CRHDR on the bytes CWHDR writes gives back width, height, ALPHA and the table, a
marker written only with ALPHA = 1 and read as 255 without. -/
def Obligations.HeaderRoundTrip : Prop :=
  ∀ (s : State) (w h : Nat) (a : BitVec 1) (table : List Word32) (rest : List Byte),
    s.status.crOpen = false → w < 2 ^ 64 → h < 2 ^ 64 → w * h < 2 ^ 64 →
    table ≠ [] → table.length ≤ 8 → s.input = headerBytes w h a table ++ rest →
    ∃ t, exec .crhdr s = .next t
      ∧ t.width.toNat = w ∧ t.height.toNat = h ∧ t.alpha = a
      ∧ tableOf t = table.map (fun e => if a = 1 then e else e.extractLsb' 8 24 ++ 0xFF#8)
      ∧ t.crRem.toNat = w * h ∧ t.input = rest ∧ t.inPos = s.inPos + (headerBytes w h a table).length
      ∧ t.status = { s.status with crOpen := decide (0 < w * h) }

/-- R211: CRRUN decodes the record at INPOS into RIDX, RLEN and IDX, counts its samples down, and closes
the reader with the last one; its errors come in order. -/
def Obligations.CrrunDecodesOneRecord : Prop :=
  (∀ (s : State) (i : BitVec 3) (c k : Nat), s.status.crOpen = true →
      decodeRecordAt s.inPos s.input = .ok (i, c, k) →
      i.toNat < s.ctLen.toNat → c ≤ s.crRem.toNat →
      exec .crrun s = .next { s with
        rIdx := i, rLen := BitVec.ofNat 64 c, idx := BitVec.ofNat 4 (i.toNat + 1)
        crRem := s.crRem - BitVec.ofNat 64 c
        status := { s.status with crOpen := decide (c < s.crRem.toNat) }
        input := s.input.drop k, inPos := s.inPos + k })
    ∧ (∀ s : State, s.status.crOpen = false →
        exec .crrun s = .next (errorEntry ⟨.illegalCommand, s.inPos⟩ (encode .crrun) s))
    ∧ (∀ (s : State) (e : Raise), s.status.crOpen = true →
        decodeRecordAt s.inPos s.input = .error e →
        e.pos = s.inPos ∧ exec .crrun s = .next (errorEntry e (encode .crrun) s))
    ∧ (∀ (s : State) (i : BitVec 3) (c k : Nat), s.status.crOpen = true →
        decodeRecordAt s.inPos s.input = .ok (i, c, k) →
        s.ctLen.toNat ≤ i.toNat ∨ s.crRem.toNat < c →
        exec .crrun s = .next (errorEntry ⟨.malformedRunRecord, s.inPos⟩ (encode .crrun) s))

/-- R212, R275: CRRUN while CROPEN = 1, on the packed runs of an image, ends with the reader closed and
the bytes after the stream left, and returns records that merge to the runs. -/
def Obligations.ReaderRecoversTheRuns : Prop :=
  ∀ (s : State) (runs : List (BitVec 3 × Nat)) (rest : List Byte),
    s.status.crOpen = true → s.status.err = false → runs ≠ [] → RunsOk s.ctLen.toNat runs →
    runsTotal runs = s.crRem.toNat →
    s.input = runs.flatMap (fun r => packRun r.1 r.2) ++ rest →
    ∃ rs t, readRuns s.input.length s = some (rs, t)
      ∧ mergeRecords rs = mergeRecords runs ∧ expandRecords rs = expandRecords runs
      ∧ t.input = rest ∧ t.crRem = 0 ∧ t.status = { s.status with crOpen := false }
end

