-- ==== Sys2Proof/Laws/State.lean ====
section
/-! SUPPORT. One simp lemma per field per named update of the state, each true by rfl, so that no proof unfolds a record
update. -/

namespace Sys2Proof.Machine

@[simp] theorem Status.withError_err (k : ErrorKind) (f : Status) : (f.withError k).err = true := rfl
@[simp] theorem Status.withError_errCode (k : ErrorKind) (f : Status) : (f.withError k).errCode = k.code := rfl
@[simp] theorem Status.withError_cwOpen (k : ErrorKind) (f : Status) : (f.withError k).cwOpen = f.cwOpen := rfl
@[simp] theorem Status.withError_crOpen (k : ErrorKind) (f : Status) : (f.withError k).crOpen = f.crOpen := rfl

@[simp] theorem Status.withCwOpen_err (b : Bool) (f : Status) : (f.withCwOpen b).err = f.err := rfl
@[simp] theorem Status.withCwOpen_errCode (b : Bool) (f : Status) : (f.withCwOpen b).errCode = f.errCode := rfl
@[simp] theorem Status.withCwOpen_cwOpen (b : Bool) (f : Status) : (f.withCwOpen b).cwOpen = b := rfl
@[simp] theorem Status.withCwOpen_crOpen (b : Bool) (f : Status) : (f.withCwOpen b).crOpen = f.crOpen := rfl

@[simp] theorem Status.withCrOpen_err (b : Bool) (f : Status) : (f.withCrOpen b).err = f.err := rfl
@[simp] theorem Status.withCrOpen_errCode (b : Bool) (f : Status) : (f.withCrOpen b).errCode = f.errCode := rfl
@[simp] theorem Status.withCrOpen_cwOpen (b : Bool) (f : Status) : (f.withCrOpen b).cwOpen = f.cwOpen := rfl
@[simp] theorem Status.withCrOpen_crOpen (b : Bool) (f : Status) : (f.withCrOpen b).crOpen = b := rfl

@[simp] theorem consume_cmd (k : Nat) (s : State) : (consume k s).cmd = s.cmd := rfl
@[simp] theorem consume_status (k : Nat) (s : State) : (consume k s).status = s.status := rfl
@[simp] theorem consume_errCmd (k : Nat) (s : State) : (consume k s).errCmd = s.errCmd := rfl
@[simp] theorem consume_errPos (k : Nat) (s : State) : (consume k s).errPos = s.errPos := rfl
@[simp] theorem consume_input (k : Nat) (s : State) : (consume k s).input = s.input.drop k := rfl
@[simp] theorem consume_inPos (k : Nat) (s : State) : (consume k s).inPos = s.inPos + k := rfl
@[simp] theorem consume_output (k : Nat) (s : State) : (consume k s).output = s.output := rfl
@[simp] theorem consume_outTot (k : Nat) (s : State) : (consume k s).outTot = s.outTot := rfl
@[simp] theorem consume_v (k : Nat) (s : State) : (consume k s).v = s.v := rfl
@[simp] theorem consume_cnt (k : Nat) (s : State) : (consume k s).cnt = s.cnt := rfl
@[simp] theorem consume_rIdx (k : Nat) (s : State) : (consume k s).rIdx = s.rIdx := rfl
@[simp] theorem consume_rLen (k : Nat) (s : State) : (consume k s).rLen = s.rLen := rfl
@[simp] theorem consume_width (k : Nat) (s : State) : (consume k s).width = s.width := rfl
@[simp] theorem consume_height (k : Nat) (s : State) : (consume k s).height = s.height := rfl
@[simp] theorem consume_alpha (k : Nat) (s : State) : (consume k s).alpha = s.alpha := rfl
@[simp] theorem consume_sample (k : Nat) (s : State) : (consume k s).sample = s.sample := rfl
@[simp] theorem consume_color (k : Nat) (s : State) : (consume k s).color = s.color := rfl
@[simp] theorem consume_idx (k : Nat) (s : State) : (consume k s).idx = s.idx := rfl
@[simp] theorem consume_qPal (k : Nat) (s : State) : (consume k s).qPal = s.qPal := rfl
@[simp] theorem consume_dPal (k : Nat) (s : State) : (consume k s).dPal = s.dPal := rfl
@[simp] theorem consume_pPal (k : Nat) (s : State) : (consume k s).pPal = s.pPal := rfl
@[simp] theorem consume_qLen (k : Nat) (s : State) : (consume k s).qLen = s.qLen := rfl
@[simp] theorem consume_dLen (k : Nat) (s : State) : (consume k s).dLen = s.dLen := rfl
@[simp] theorem consume_ppLen (k : Nat) (s : State) : (consume k s).ppLen = s.ppLen := rfl
@[simp] theorem consume_ct (k : Nat) (s : State) : (consume k s).ct = s.ct := rfl
@[simp] theorem consume_ctLen (k : Nat) (s : State) : (consume k s).ctLen = s.ctLen := rfl
@[simp] theorem consume_cwTot (k : Nat) (s : State) : (consume k s).cwTot = s.cwTot := rfl
@[simp] theorem consume_cwCnt (k : Nat) (s : State) : (consume k s).cwCnt = s.cwCnt := rfl
@[simp] theorem consume_cwRIdx (k : Nat) (s : State) : (consume k s).cwRIdx = s.cwRIdx := rfl
@[simp] theorem consume_cwRLen (k : Nat) (s : State) : (consume k s).cwRLen = s.cwRLen := rfl
@[simp] theorem consume_crRem (k : Nat) (s : State) : (consume k s).crRem = s.crRem := rfl
@[simp] theorem consume_host (k : Nat) (s : State) : (consume k s).host = s.host := rfl
@[simp] theorem consume_reads (k : Nat) (s : State) : (consume k s).reads = s.reads := rfl

@[simp] theorem emit_cmd (xs : List Byte) (s : State) : (emit xs s).cmd = s.cmd := rfl
@[simp] theorem emit_status (xs : List Byte) (s : State) : (emit xs s).status = s.status := rfl
@[simp] theorem emit_errCmd (xs : List Byte) (s : State) : (emit xs s).errCmd = s.errCmd := rfl
@[simp] theorem emit_errPos (xs : List Byte) (s : State) : (emit xs s).errPos = s.errPos := rfl
@[simp] theorem emit_input (xs : List Byte) (s : State) : (emit xs s).input = s.input := rfl
@[simp] theorem emit_inPos (xs : List Byte) (s : State) : (emit xs s).inPos = s.inPos := rfl
@[simp] theorem emit_output (xs : List Byte) (s : State) : (emit xs s).output = s.output ++ xs := rfl
@[simp] theorem emit_outTot (xs : List Byte) (s : State) : (emit xs s).outTot = s.outTot + xs.length := rfl
@[simp] theorem emit_v (xs : List Byte) (s : State) : (emit xs s).v = s.v := rfl
@[simp] theorem emit_cnt (xs : List Byte) (s : State) : (emit xs s).cnt = s.cnt := rfl
@[simp] theorem emit_rIdx (xs : List Byte) (s : State) : (emit xs s).rIdx = s.rIdx := rfl
@[simp] theorem emit_rLen (xs : List Byte) (s : State) : (emit xs s).rLen = s.rLen := rfl
@[simp] theorem emit_width (xs : List Byte) (s : State) : (emit xs s).width = s.width := rfl
@[simp] theorem emit_height (xs : List Byte) (s : State) : (emit xs s).height = s.height := rfl
@[simp] theorem emit_alpha (xs : List Byte) (s : State) : (emit xs s).alpha = s.alpha := rfl
@[simp] theorem emit_sample (xs : List Byte) (s : State) : (emit xs s).sample = s.sample := rfl
@[simp] theorem emit_color (xs : List Byte) (s : State) : (emit xs s).color = s.color := rfl
@[simp] theorem emit_idx (xs : List Byte) (s : State) : (emit xs s).idx = s.idx := rfl
@[simp] theorem emit_qPal (xs : List Byte) (s : State) : (emit xs s).qPal = s.qPal := rfl
@[simp] theorem emit_dPal (xs : List Byte) (s : State) : (emit xs s).dPal = s.dPal := rfl
@[simp] theorem emit_pPal (xs : List Byte) (s : State) : (emit xs s).pPal = s.pPal := rfl
@[simp] theorem emit_qLen (xs : List Byte) (s : State) : (emit xs s).qLen = s.qLen := rfl
@[simp] theorem emit_dLen (xs : List Byte) (s : State) : (emit xs s).dLen = s.dLen := rfl
@[simp] theorem emit_ppLen (xs : List Byte) (s : State) : (emit xs s).ppLen = s.ppLen := rfl
@[simp] theorem emit_ct (xs : List Byte) (s : State) : (emit xs s).ct = s.ct := rfl
@[simp] theorem emit_ctLen (xs : List Byte) (s : State) : (emit xs s).ctLen = s.ctLen := rfl
@[simp] theorem emit_cwTot (xs : List Byte) (s : State) : (emit xs s).cwTot = s.cwTot := rfl
@[simp] theorem emit_cwCnt (xs : List Byte) (s : State) : (emit xs s).cwCnt = s.cwCnt := rfl
@[simp] theorem emit_cwRIdx (xs : List Byte) (s : State) : (emit xs s).cwRIdx = s.cwRIdx := rfl
@[simp] theorem emit_cwRLen (xs : List Byte) (s : State) : (emit xs s).cwRLen = s.cwRLen := rfl
@[simp] theorem emit_crRem (xs : List Byte) (s : State) : (emit xs s).crRem = s.crRem := rfl
@[simp] theorem emit_host (xs : List Byte) (s : State) : (emit xs s).host = s.host := rfl
@[simp] theorem emit_reads (xs : List Byte) (s : State) : (emit xs s).reads = s.reads := rfl

@[simp] theorem errorEntry_cmd (e : Raise) (c : Word32) (s : State) : (errorEntry e c s).cmd = s.cmd := rfl
@[simp] theorem errorEntry_status (e : Raise) (c : Word32) (s : State) : (errorEntry e c s).status = s.status.withError e.kind := rfl
@[simp] theorem errorEntry_errCmd (e : Raise) (c : Word32) (s : State) : (errorEntry e c s).errCmd = c := rfl
@[simp] theorem errorEntry_errPos (e : Raise) (c : Word32) (s : State) : (errorEntry e c s).errPos = e.pos := rfl
@[simp] theorem errorEntry_input (e : Raise) (c : Word32) (s : State) : (errorEntry e c s).input = s.input := rfl
@[simp] theorem errorEntry_inPos (e : Raise) (c : Word32) (s : State) : (errorEntry e c s).inPos = s.inPos := rfl
@[simp] theorem errorEntry_output (e : Raise) (c : Word32) (s : State) : (errorEntry e c s).output = s.output := rfl
@[simp] theorem errorEntry_outTot (e : Raise) (c : Word32) (s : State) : (errorEntry e c s).outTot = s.outTot := rfl
@[simp] theorem errorEntry_v (e : Raise) (c : Word32) (s : State) : (errorEntry e c s).v = s.v := rfl
@[simp] theorem errorEntry_cnt (e : Raise) (c : Word32) (s : State) : (errorEntry e c s).cnt = s.cnt := rfl
@[simp] theorem errorEntry_rIdx (e : Raise) (c : Word32) (s : State) : (errorEntry e c s).rIdx = s.rIdx := rfl
@[simp] theorem errorEntry_rLen (e : Raise) (c : Word32) (s : State) : (errorEntry e c s).rLen = s.rLen := rfl
@[simp] theorem errorEntry_width (e : Raise) (c : Word32) (s : State) : (errorEntry e c s).width = s.width := rfl
@[simp] theorem errorEntry_height (e : Raise) (c : Word32) (s : State) : (errorEntry e c s).height = s.height := rfl
@[simp] theorem errorEntry_alpha (e : Raise) (c : Word32) (s : State) : (errorEntry e c s).alpha = s.alpha := rfl
@[simp] theorem errorEntry_sample (e : Raise) (c : Word32) (s : State) : (errorEntry e c s).sample = s.sample := rfl
@[simp] theorem errorEntry_color (e : Raise) (c : Word32) (s : State) : (errorEntry e c s).color = s.color := rfl
@[simp] theorem errorEntry_idx (e : Raise) (c : Word32) (s : State) : (errorEntry e c s).idx = s.idx := rfl
@[simp] theorem errorEntry_qPal (e : Raise) (c : Word32) (s : State) : (errorEntry e c s).qPal = s.qPal := rfl
@[simp] theorem errorEntry_dPal (e : Raise) (c : Word32) (s : State) : (errorEntry e c s).dPal = s.dPal := rfl
@[simp] theorem errorEntry_pPal (e : Raise) (c : Word32) (s : State) : (errorEntry e c s).pPal = s.pPal := rfl
@[simp] theorem errorEntry_qLen (e : Raise) (c : Word32) (s : State) : (errorEntry e c s).qLen = s.qLen := rfl
@[simp] theorem errorEntry_dLen (e : Raise) (c : Word32) (s : State) : (errorEntry e c s).dLen = s.dLen := rfl
@[simp] theorem errorEntry_ppLen (e : Raise) (c : Word32) (s : State) : (errorEntry e c s).ppLen = s.ppLen := rfl
@[simp] theorem errorEntry_ct (e : Raise) (c : Word32) (s : State) : (errorEntry e c s).ct = s.ct := rfl
@[simp] theorem errorEntry_ctLen (e : Raise) (c : Word32) (s : State) : (errorEntry e c s).ctLen = s.ctLen := rfl
@[simp] theorem errorEntry_cwTot (e : Raise) (c : Word32) (s : State) : (errorEntry e c s).cwTot = s.cwTot := rfl
@[simp] theorem errorEntry_cwCnt (e : Raise) (c : Word32) (s : State) : (errorEntry e c s).cwCnt = s.cwCnt := rfl
@[simp] theorem errorEntry_cwRIdx (e : Raise) (c : Word32) (s : State) : (errorEntry e c s).cwRIdx = s.cwRIdx := rfl
@[simp] theorem errorEntry_cwRLen (e : Raise) (c : Word32) (s : State) : (errorEntry e c s).cwRLen = s.cwRLen := rfl
@[simp] theorem errorEntry_crRem (e : Raise) (c : Word32) (s : State) : (errorEntry e c s).crRem = s.crRem := rfl
@[simp] theorem errorEntry_host (e : Raise) (c : Word32) (s : State) : (errorEntry e c s).host = s.host := rfl
@[simp] theorem errorEntry_reads (e : Raise) (c : Word32) (s : State) : (errorEntry e c s).reads = s.reads := rfl

@[simp] theorem setQPal_cmd (p : List Nat) (s : State) : (setQPal p s).cmd = s.cmd := rfl
@[simp] theorem setQPal_status (p : List Nat) (s : State) : (setQPal p s).status = s.status := rfl
@[simp] theorem setQPal_errCmd (p : List Nat) (s : State) : (setQPal p s).errCmd = s.errCmd := rfl
@[simp] theorem setQPal_errPos (p : List Nat) (s : State) : (setQPal p s).errPos = s.errPos := rfl
@[simp] theorem setQPal_input (p : List Nat) (s : State) : (setQPal p s).input = s.input := rfl
@[simp] theorem setQPal_inPos (p : List Nat) (s : State) : (setQPal p s).inPos = s.inPos := rfl
@[simp] theorem setQPal_output (p : List Nat) (s : State) : (setQPal p s).output = s.output := rfl
@[simp] theorem setQPal_outTot (p : List Nat) (s : State) : (setQPal p s).outTot = s.outTot := rfl
@[simp] theorem setQPal_v (p : List Nat) (s : State) : (setQPal p s).v = s.v := rfl
@[simp] theorem setQPal_cnt (p : List Nat) (s : State) : (setQPal p s).cnt = s.cnt := rfl
@[simp] theorem setQPal_rIdx (p : List Nat) (s : State) : (setQPal p s).rIdx = s.rIdx := rfl
@[simp] theorem setQPal_rLen (p : List Nat) (s : State) : (setQPal p s).rLen = s.rLen := rfl
@[simp] theorem setQPal_width (p : List Nat) (s : State) : (setQPal p s).width = s.width := rfl
@[simp] theorem setQPal_height (p : List Nat) (s : State) : (setQPal p s).height = s.height := rfl
@[simp] theorem setQPal_alpha (p : List Nat) (s : State) : (setQPal p s).alpha = s.alpha := rfl
@[simp] theorem setQPal_sample (p : List Nat) (s : State) : (setQPal p s).sample = s.sample := rfl
@[simp] theorem setQPal_color (p : List Nat) (s : State) : (setQPal p s).color = s.color := rfl
@[simp] theorem setQPal_idx (p : List Nat) (s : State) : (setQPal p s).idx = s.idx := rfl
@[simp] theorem setQPal_qPal (p : List Nat) (s : State) : (setQPal p s).qPal = fileOf p := rfl
@[simp] theorem setQPal_dPal (p : List Nat) (s : State) : (setQPal p s).dPal = s.dPal := rfl
@[simp] theorem setQPal_pPal (p : List Nat) (s : State) : (setQPal p s).pPal = s.pPal := rfl
@[simp] theorem setQPal_qLen (p : List Nat) (s : State) : (setQPal p s).qLen = lenOf p := rfl
@[simp] theorem setQPal_dLen (p : List Nat) (s : State) : (setQPal p s).dLen = s.dLen := rfl
@[simp] theorem setQPal_ppLen (p : List Nat) (s : State) : (setQPal p s).ppLen = s.ppLen := rfl
@[simp] theorem setQPal_ct (p : List Nat) (s : State) : (setQPal p s).ct = s.ct := rfl
@[simp] theorem setQPal_ctLen (p : List Nat) (s : State) : (setQPal p s).ctLen = s.ctLen := rfl
@[simp] theorem setQPal_cwTot (p : List Nat) (s : State) : (setQPal p s).cwTot = s.cwTot := rfl
@[simp] theorem setQPal_cwCnt (p : List Nat) (s : State) : (setQPal p s).cwCnt = s.cwCnt := rfl
@[simp] theorem setQPal_cwRIdx (p : List Nat) (s : State) : (setQPal p s).cwRIdx = s.cwRIdx := rfl
@[simp] theorem setQPal_cwRLen (p : List Nat) (s : State) : (setQPal p s).cwRLen = s.cwRLen := rfl
@[simp] theorem setQPal_crRem (p : List Nat) (s : State) : (setQPal p s).crRem = s.crRem := rfl
@[simp] theorem setQPal_host (p : List Nat) (s : State) : (setQPal p s).host = s.host := rfl
@[simp] theorem setQPal_reads (p : List Nat) (s : State) : (setQPal p s).reads = s.reads := rfl

@[simp] theorem setDPal_cmd (p : List Nat) (s : State) : (setDPal p s).cmd = s.cmd := rfl
@[simp] theorem setDPal_status (p : List Nat) (s : State) : (setDPal p s).status = s.status := rfl
@[simp] theorem setDPal_errCmd (p : List Nat) (s : State) : (setDPal p s).errCmd = s.errCmd := rfl
@[simp] theorem setDPal_errPos (p : List Nat) (s : State) : (setDPal p s).errPos = s.errPos := rfl
@[simp] theorem setDPal_input (p : List Nat) (s : State) : (setDPal p s).input = s.input := rfl
@[simp] theorem setDPal_inPos (p : List Nat) (s : State) : (setDPal p s).inPos = s.inPos := rfl
@[simp] theorem setDPal_output (p : List Nat) (s : State) : (setDPal p s).output = s.output := rfl
@[simp] theorem setDPal_outTot (p : List Nat) (s : State) : (setDPal p s).outTot = s.outTot := rfl
@[simp] theorem setDPal_v (p : List Nat) (s : State) : (setDPal p s).v = s.v := rfl
@[simp] theorem setDPal_cnt (p : List Nat) (s : State) : (setDPal p s).cnt = s.cnt := rfl
@[simp] theorem setDPal_rIdx (p : List Nat) (s : State) : (setDPal p s).rIdx = s.rIdx := rfl
@[simp] theorem setDPal_rLen (p : List Nat) (s : State) : (setDPal p s).rLen = s.rLen := rfl
@[simp] theorem setDPal_width (p : List Nat) (s : State) : (setDPal p s).width = s.width := rfl
@[simp] theorem setDPal_height (p : List Nat) (s : State) : (setDPal p s).height = s.height := rfl
@[simp] theorem setDPal_alpha (p : List Nat) (s : State) : (setDPal p s).alpha = s.alpha := rfl
@[simp] theorem setDPal_sample (p : List Nat) (s : State) : (setDPal p s).sample = s.sample := rfl
@[simp] theorem setDPal_color (p : List Nat) (s : State) : (setDPal p s).color = s.color := rfl
@[simp] theorem setDPal_idx (p : List Nat) (s : State) : (setDPal p s).idx = s.idx := rfl
@[simp] theorem setDPal_qPal (p : List Nat) (s : State) : (setDPal p s).qPal = s.qPal := rfl
@[simp] theorem setDPal_dPal (p : List Nat) (s : State) : (setDPal p s).dPal = fileOf p := rfl
@[simp] theorem setDPal_pPal (p : List Nat) (s : State) : (setDPal p s).pPal = s.pPal := rfl
@[simp] theorem setDPal_qLen (p : List Nat) (s : State) : (setDPal p s).qLen = s.qLen := rfl
@[simp] theorem setDPal_dLen (p : List Nat) (s : State) : (setDPal p s).dLen = lenOf p := rfl
@[simp] theorem setDPal_ppLen (p : List Nat) (s : State) : (setDPal p s).ppLen = s.ppLen := rfl
@[simp] theorem setDPal_ct (p : List Nat) (s : State) : (setDPal p s).ct = s.ct := rfl
@[simp] theorem setDPal_ctLen (p : List Nat) (s : State) : (setDPal p s).ctLen = s.ctLen := rfl
@[simp] theorem setDPal_cwTot (p : List Nat) (s : State) : (setDPal p s).cwTot = s.cwTot := rfl
@[simp] theorem setDPal_cwCnt (p : List Nat) (s : State) : (setDPal p s).cwCnt = s.cwCnt := rfl
@[simp] theorem setDPal_cwRIdx (p : List Nat) (s : State) : (setDPal p s).cwRIdx = s.cwRIdx := rfl
@[simp] theorem setDPal_cwRLen (p : List Nat) (s : State) : (setDPal p s).cwRLen = s.cwRLen := rfl
@[simp] theorem setDPal_crRem (p : List Nat) (s : State) : (setDPal p s).crRem = s.crRem := rfl
@[simp] theorem setDPal_host (p : List Nat) (s : State) : (setDPal p s).host = s.host := rfl
@[simp] theorem setDPal_reads (p : List Nat) (s : State) : (setDPal p s).reads = s.reads := rfl

@[simp] theorem setPPal_cmd (p : List Nat) (s : State) : (setPPal p s).cmd = s.cmd := rfl
@[simp] theorem setPPal_status (p : List Nat) (s : State) : (setPPal p s).status = s.status := rfl
@[simp] theorem setPPal_errCmd (p : List Nat) (s : State) : (setPPal p s).errCmd = s.errCmd := rfl
@[simp] theorem setPPal_errPos (p : List Nat) (s : State) : (setPPal p s).errPos = s.errPos := rfl
@[simp] theorem setPPal_input (p : List Nat) (s : State) : (setPPal p s).input = s.input := rfl
@[simp] theorem setPPal_inPos (p : List Nat) (s : State) : (setPPal p s).inPos = s.inPos := rfl
@[simp] theorem setPPal_output (p : List Nat) (s : State) : (setPPal p s).output = s.output := rfl
@[simp] theorem setPPal_outTot (p : List Nat) (s : State) : (setPPal p s).outTot = s.outTot := rfl
@[simp] theorem setPPal_v (p : List Nat) (s : State) : (setPPal p s).v = s.v := rfl
@[simp] theorem setPPal_cnt (p : List Nat) (s : State) : (setPPal p s).cnt = s.cnt := rfl
@[simp] theorem setPPal_rIdx (p : List Nat) (s : State) : (setPPal p s).rIdx = s.rIdx := rfl
@[simp] theorem setPPal_rLen (p : List Nat) (s : State) : (setPPal p s).rLen = s.rLen := rfl
@[simp] theorem setPPal_width (p : List Nat) (s : State) : (setPPal p s).width = s.width := rfl
@[simp] theorem setPPal_height (p : List Nat) (s : State) : (setPPal p s).height = s.height := rfl
@[simp] theorem setPPal_alpha (p : List Nat) (s : State) : (setPPal p s).alpha = s.alpha := rfl
@[simp] theorem setPPal_sample (p : List Nat) (s : State) : (setPPal p s).sample = s.sample := rfl
@[simp] theorem setPPal_color (p : List Nat) (s : State) : (setPPal p s).color = s.color := rfl
@[simp] theorem setPPal_idx (p : List Nat) (s : State) : (setPPal p s).idx = s.idx := rfl
@[simp] theorem setPPal_qPal (p : List Nat) (s : State) : (setPPal p s).qPal = s.qPal := rfl
@[simp] theorem setPPal_dPal (p : List Nat) (s : State) : (setPPal p s).dPal = s.dPal := rfl
@[simp] theorem setPPal_pPal (p : List Nat) (s : State) : (setPPal p s).pPal = fileOf p := rfl
@[simp] theorem setPPal_qLen (p : List Nat) (s : State) : (setPPal p s).qLen = s.qLen := rfl
@[simp] theorem setPPal_dLen (p : List Nat) (s : State) : (setPPal p s).dLen = s.dLen := rfl
@[simp] theorem setPPal_ppLen (p : List Nat) (s : State) : (setPPal p s).ppLen = lenOf p := rfl
@[simp] theorem setPPal_ct (p : List Nat) (s : State) : (setPPal p s).ct = s.ct := rfl
@[simp] theorem setPPal_ctLen (p : List Nat) (s : State) : (setPPal p s).ctLen = s.ctLen := rfl
@[simp] theorem setPPal_cwTot (p : List Nat) (s : State) : (setPPal p s).cwTot = s.cwTot := rfl
@[simp] theorem setPPal_cwCnt (p : List Nat) (s : State) : (setPPal p s).cwCnt = s.cwCnt := rfl
@[simp] theorem setPPal_cwRIdx (p : List Nat) (s : State) : (setPPal p s).cwRIdx = s.cwRIdx := rfl
@[simp] theorem setPPal_cwRLen (p : List Nat) (s : State) : (setPPal p s).cwRLen = s.cwRLen := rfl
@[simp] theorem setPPal_crRem (p : List Nat) (s : State) : (setPPal p s).crRem = s.crRem := rfl
@[simp] theorem setPPal_host (p : List Nat) (s : State) : (setPPal p s).host = s.host := rfl
@[simp] theorem setPPal_reads (p : List Nat) (s : State) : (setPPal p s).reads = s.reads := rfl

@[simp] theorem setIdx_cmd (n : Nat) (s : State) : (setIdx n s).cmd = s.cmd := rfl
@[simp] theorem setIdx_status (n : Nat) (s : State) : (setIdx n s).status = s.status := rfl
@[simp] theorem setIdx_errCmd (n : Nat) (s : State) : (setIdx n s).errCmd = s.errCmd := rfl
@[simp] theorem setIdx_errPos (n : Nat) (s : State) : (setIdx n s).errPos = s.errPos := rfl
@[simp] theorem setIdx_input (n : Nat) (s : State) : (setIdx n s).input = s.input := rfl
@[simp] theorem setIdx_inPos (n : Nat) (s : State) : (setIdx n s).inPos = s.inPos := rfl
@[simp] theorem setIdx_output (n : Nat) (s : State) : (setIdx n s).output = s.output := rfl
@[simp] theorem setIdx_outTot (n : Nat) (s : State) : (setIdx n s).outTot = s.outTot := rfl
@[simp] theorem setIdx_v (n : Nat) (s : State) : (setIdx n s).v = s.v := rfl
@[simp] theorem setIdx_cnt (n : Nat) (s : State) : (setIdx n s).cnt = s.cnt := rfl
@[simp] theorem setIdx_rIdx (n : Nat) (s : State) : (setIdx n s).rIdx = s.rIdx := rfl
@[simp] theorem setIdx_rLen (n : Nat) (s : State) : (setIdx n s).rLen = s.rLen := rfl
@[simp] theorem setIdx_width (n : Nat) (s : State) : (setIdx n s).width = s.width := rfl
@[simp] theorem setIdx_height (n : Nat) (s : State) : (setIdx n s).height = s.height := rfl
@[simp] theorem setIdx_alpha (n : Nat) (s : State) : (setIdx n s).alpha = s.alpha := rfl
@[simp] theorem setIdx_sample (n : Nat) (s : State) : (setIdx n s).sample = s.sample := rfl
@[simp] theorem setIdx_color (n : Nat) (s : State) : (setIdx n s).color = s.color := rfl
@[simp] theorem setIdx_idx (n : Nat) (s : State) : (setIdx n s).idx = BitVec.ofNat 4 n := rfl
@[simp] theorem setIdx_qPal (n : Nat) (s : State) : (setIdx n s).qPal = s.qPal := rfl
@[simp] theorem setIdx_dPal (n : Nat) (s : State) : (setIdx n s).dPal = s.dPal := rfl
@[simp] theorem setIdx_pPal (n : Nat) (s : State) : (setIdx n s).pPal = s.pPal := rfl
@[simp] theorem setIdx_qLen (n : Nat) (s : State) : (setIdx n s).qLen = s.qLen := rfl
@[simp] theorem setIdx_dLen (n : Nat) (s : State) : (setIdx n s).dLen = s.dLen := rfl
@[simp] theorem setIdx_ppLen (n : Nat) (s : State) : (setIdx n s).ppLen = s.ppLen := rfl
@[simp] theorem setIdx_ct (n : Nat) (s : State) : (setIdx n s).ct = s.ct := rfl
@[simp] theorem setIdx_ctLen (n : Nat) (s : State) : (setIdx n s).ctLen = s.ctLen := rfl
@[simp] theorem setIdx_cwTot (n : Nat) (s : State) : (setIdx n s).cwTot = s.cwTot := rfl
@[simp] theorem setIdx_cwCnt (n : Nat) (s : State) : (setIdx n s).cwCnt = s.cwCnt := rfl
@[simp] theorem setIdx_cwRIdx (n : Nat) (s : State) : (setIdx n s).cwRIdx = s.cwRIdx := rfl
@[simp] theorem setIdx_cwRLen (n : Nat) (s : State) : (setIdx n s).cwRLen = s.cwRLen := rfl
@[simp] theorem setIdx_crRem (n : Nat) (s : State) : (setIdx n s).crRem = s.crRem := rfl
@[simp] theorem setIdx_host (n : Nat) (s : State) : (setIdx n s).host = s.host := rfl
@[simp] theorem setIdx_reads (n : Nat) (s : State) : (setIdx n s).reads = s.reads := rfl

@[simp] theorem setRecord_cmd (i : BitVec 3) (c : Nat) (s : State) : (setRecord i c s).cmd = s.cmd := rfl
@[simp] theorem setRecord_status (i : BitVec 3) (c : Nat) (s : State) : (setRecord i c s).status = s.status := rfl
@[simp] theorem setRecord_errCmd (i : BitVec 3) (c : Nat) (s : State) : (setRecord i c s).errCmd = s.errCmd := rfl
@[simp] theorem setRecord_errPos (i : BitVec 3) (c : Nat) (s : State) : (setRecord i c s).errPos = s.errPos := rfl
@[simp] theorem setRecord_input (i : BitVec 3) (c : Nat) (s : State) : (setRecord i c s).input = s.input := rfl
@[simp] theorem setRecord_inPos (i : BitVec 3) (c : Nat) (s : State) : (setRecord i c s).inPos = s.inPos := rfl
@[simp] theorem setRecord_output (i : BitVec 3) (c : Nat) (s : State) : (setRecord i c s).output = s.output := rfl
@[simp] theorem setRecord_outTot (i : BitVec 3) (c : Nat) (s : State) : (setRecord i c s).outTot = s.outTot := rfl
@[simp] theorem setRecord_v (i : BitVec 3) (c : Nat) (s : State) : (setRecord i c s).v = s.v := rfl
@[simp] theorem setRecord_cnt (i : BitVec 3) (c : Nat) (s : State) : (setRecord i c s).cnt = s.cnt := rfl
@[simp] theorem setRecord_rIdx (i : BitVec 3) (c : Nat) (s : State) : (setRecord i c s).rIdx = i := rfl
@[simp] theorem setRecord_rLen (i : BitVec 3) (c : Nat) (s : State) : (setRecord i c s).rLen = BitVec.ofNat 64 c := rfl
@[simp] theorem setRecord_width (i : BitVec 3) (c : Nat) (s : State) : (setRecord i c s).width = s.width := rfl
@[simp] theorem setRecord_height (i : BitVec 3) (c : Nat) (s : State) : (setRecord i c s).height = s.height := rfl
@[simp] theorem setRecord_alpha (i : BitVec 3) (c : Nat) (s : State) : (setRecord i c s).alpha = s.alpha := rfl
@[simp] theorem setRecord_sample (i : BitVec 3) (c : Nat) (s : State) : (setRecord i c s).sample = s.sample := rfl
@[simp] theorem setRecord_color (i : BitVec 3) (c : Nat) (s : State) : (setRecord i c s).color = s.color := rfl
@[simp] theorem setRecord_idx (i : BitVec 3) (c : Nat) (s : State) : (setRecord i c s).idx = s.idx := rfl
@[simp] theorem setRecord_qPal (i : BitVec 3) (c : Nat) (s : State) : (setRecord i c s).qPal = s.qPal := rfl
@[simp] theorem setRecord_dPal (i : BitVec 3) (c : Nat) (s : State) : (setRecord i c s).dPal = s.dPal := rfl
@[simp] theorem setRecord_pPal (i : BitVec 3) (c : Nat) (s : State) : (setRecord i c s).pPal = s.pPal := rfl
@[simp] theorem setRecord_qLen (i : BitVec 3) (c : Nat) (s : State) : (setRecord i c s).qLen = s.qLen := rfl
@[simp] theorem setRecord_dLen (i : BitVec 3) (c : Nat) (s : State) : (setRecord i c s).dLen = s.dLen := rfl
@[simp] theorem setRecord_ppLen (i : BitVec 3) (c : Nat) (s : State) : (setRecord i c s).ppLen = s.ppLen := rfl
@[simp] theorem setRecord_ct (i : BitVec 3) (c : Nat) (s : State) : (setRecord i c s).ct = s.ct := rfl
@[simp] theorem setRecord_ctLen (i : BitVec 3) (c : Nat) (s : State) : (setRecord i c s).ctLen = s.ctLen := rfl
@[simp] theorem setRecord_cwTot (i : BitVec 3) (c : Nat) (s : State) : (setRecord i c s).cwTot = s.cwTot := rfl
@[simp] theorem setRecord_cwCnt (i : BitVec 3) (c : Nat) (s : State) : (setRecord i c s).cwCnt = s.cwCnt := rfl
@[simp] theorem setRecord_cwRIdx (i : BitVec 3) (c : Nat) (s : State) : (setRecord i c s).cwRIdx = s.cwRIdx := rfl
@[simp] theorem setRecord_cwRLen (i : BitVec 3) (c : Nat) (s : State) : (setRecord i c s).cwRLen = s.cwRLen := rfl
@[simp] theorem setRecord_crRem (i : BitVec 3) (c : Nat) (s : State) : (setRecord i c s).crRem = s.crRem := rfl
@[simp] theorem setRecord_host (i : BitVec 3) (c : Nat) (s : State) : (setRecord i c s).host = s.host := rfl
@[simp] theorem setRecord_reads (i : BitVec 3) (c : Nat) (s : State) : (setRecord i c s).reads = s.reads := rfl

@[simp] theorem tableAppend_cmd (e : Word32) (s : State) : (tableAppend e s).cmd = s.cmd := rfl
@[simp] theorem tableAppend_status (e : Word32) (s : State) : (tableAppend e s).status = s.status := rfl
@[simp] theorem tableAppend_errCmd (e : Word32) (s : State) : (tableAppend e s).errCmd = s.errCmd := rfl
@[simp] theorem tableAppend_errPos (e : Word32) (s : State) : (tableAppend e s).errPos = s.errPos := rfl
@[simp] theorem tableAppend_input (e : Word32) (s : State) : (tableAppend e s).input = s.input := rfl
@[simp] theorem tableAppend_inPos (e : Word32) (s : State) : (tableAppend e s).inPos = s.inPos := rfl
@[simp] theorem tableAppend_output (e : Word32) (s : State) : (tableAppend e s).output = s.output := rfl
@[simp] theorem tableAppend_outTot (e : Word32) (s : State) : (tableAppend e s).outTot = s.outTot := rfl
@[simp] theorem tableAppend_v (e : Word32) (s : State) : (tableAppend e s).v = s.v := rfl
@[simp] theorem tableAppend_cnt (e : Word32) (s : State) : (tableAppend e s).cnt = s.cnt := rfl
@[simp] theorem tableAppend_rIdx (e : Word32) (s : State) : (tableAppend e s).rIdx = s.rIdx := rfl
@[simp] theorem tableAppend_rLen (e : Word32) (s : State) : (tableAppend e s).rLen = s.rLen := rfl
@[simp] theorem tableAppend_width (e : Word32) (s : State) : (tableAppend e s).width = s.width := rfl
@[simp] theorem tableAppend_height (e : Word32) (s : State) : (tableAppend e s).height = s.height := rfl
@[simp] theorem tableAppend_alpha (e : Word32) (s : State) : (tableAppend e s).alpha = s.alpha := rfl
@[simp] theorem tableAppend_sample (e : Word32) (s : State) : (tableAppend e s).sample = s.sample := rfl
@[simp] theorem tableAppend_color (e : Word32) (s : State) : (tableAppend e s).color = s.color := rfl
@[simp] theorem tableAppend_idx (e : Word32) (s : State) : (tableAppend e s).idx = s.idx := rfl
@[simp] theorem tableAppend_qPal (e : Word32) (s : State) : (tableAppend e s).qPal = s.qPal := rfl
@[simp] theorem tableAppend_dPal (e : Word32) (s : State) : (tableAppend e s).dPal = s.dPal := rfl
@[simp] theorem tableAppend_pPal (e : Word32) (s : State) : (tableAppend e s).pPal = s.pPal := rfl
@[simp] theorem tableAppend_qLen (e : Word32) (s : State) : (tableAppend e s).qLen = s.qLen := rfl
@[simp] theorem tableAppend_dLen (e : Word32) (s : State) : (tableAppend e s).dLen = s.dLen := rfl
@[simp] theorem tableAppend_ppLen (e : Word32) (s : State) : (tableAppend e s).ppLen = s.ppLen := rfl
@[simp] theorem tableAppend_ct (e : Word32) (s : State) : (tableAppend e s).ct = s.ct.setIfInBounds s.ctLen.toNat e := rfl
@[simp] theorem tableAppend_ctLen (e : Word32) (s : State) : (tableAppend e s).ctLen = s.ctLen + 1 := rfl
@[simp] theorem tableAppend_cwTot (e : Word32) (s : State) : (tableAppend e s).cwTot = s.cwTot := rfl
@[simp] theorem tableAppend_cwCnt (e : Word32) (s : State) : (tableAppend e s).cwCnt = s.cwCnt := rfl
@[simp] theorem tableAppend_cwRIdx (e : Word32) (s : State) : (tableAppend e s).cwRIdx = s.cwRIdx := rfl
@[simp] theorem tableAppend_cwRLen (e : Word32) (s : State) : (tableAppend e s).cwRLen = s.cwRLen := rfl
@[simp] theorem tableAppend_crRem (e : Word32) (s : State) : (tableAppend e s).crRem = s.crRem := rfl
@[simp] theorem tableAppend_host (e : Word32) (s : State) : (tableAppend e s).host = s.host := rfl
@[simp] theorem tableAppend_reads (e : Word32) (s : State) : (tableAppend e s).reads = s.reads := rfl

@[simp] theorem openWriter_cmd (t : Nat) (s : State) : (openWriter t s).cmd = s.cmd := rfl
@[simp] theorem openWriter_status (t : Nat) (s : State) : (openWriter t s).status = s.status.withCwOpen true := rfl
@[simp] theorem openWriter_errCmd (t : Nat) (s : State) : (openWriter t s).errCmd = s.errCmd := rfl
@[simp] theorem openWriter_errPos (t : Nat) (s : State) : (openWriter t s).errPos = s.errPos := rfl
@[simp] theorem openWriter_input (t : Nat) (s : State) : (openWriter t s).input = s.input := rfl
@[simp] theorem openWriter_inPos (t : Nat) (s : State) : (openWriter t s).inPos = s.inPos := rfl
@[simp] theorem openWriter_output (t : Nat) (s : State) : (openWriter t s).output = s.output := rfl
@[simp] theorem openWriter_outTot (t : Nat) (s : State) : (openWriter t s).outTot = s.outTot := rfl
@[simp] theorem openWriter_v (t : Nat) (s : State) : (openWriter t s).v = s.v := rfl
@[simp] theorem openWriter_cnt (t : Nat) (s : State) : (openWriter t s).cnt = s.cnt := rfl
@[simp] theorem openWriter_rIdx (t : Nat) (s : State) : (openWriter t s).rIdx = s.rIdx := rfl
@[simp] theorem openWriter_rLen (t : Nat) (s : State) : (openWriter t s).rLen = s.rLen := rfl
@[simp] theorem openWriter_width (t : Nat) (s : State) : (openWriter t s).width = s.width := rfl
@[simp] theorem openWriter_height (t : Nat) (s : State) : (openWriter t s).height = s.height := rfl
@[simp] theorem openWriter_alpha (t : Nat) (s : State) : (openWriter t s).alpha = s.alpha := rfl
@[simp] theorem openWriter_sample (t : Nat) (s : State) : (openWriter t s).sample = s.sample := rfl
@[simp] theorem openWriter_color (t : Nat) (s : State) : (openWriter t s).color = s.color := rfl
@[simp] theorem openWriter_idx (t : Nat) (s : State) : (openWriter t s).idx = s.idx := rfl
@[simp] theorem openWriter_qPal (t : Nat) (s : State) : (openWriter t s).qPal = s.qPal := rfl
@[simp] theorem openWriter_dPal (t : Nat) (s : State) : (openWriter t s).dPal = s.dPal := rfl
@[simp] theorem openWriter_pPal (t : Nat) (s : State) : (openWriter t s).pPal = s.pPal := rfl
@[simp] theorem openWriter_qLen (t : Nat) (s : State) : (openWriter t s).qLen = s.qLen := rfl
@[simp] theorem openWriter_dLen (t : Nat) (s : State) : (openWriter t s).dLen = s.dLen := rfl
@[simp] theorem openWriter_ppLen (t : Nat) (s : State) : (openWriter t s).ppLen = s.ppLen := rfl
@[simp] theorem openWriter_ct (t : Nat) (s : State) : (openWriter t s).ct = s.ct := rfl
@[simp] theorem openWriter_ctLen (t : Nat) (s : State) : (openWriter t s).ctLen = s.ctLen := rfl
@[simp] theorem openWriter_cwTot (t : Nat) (s : State) : (openWriter t s).cwTot = BitVec.ofNat 64 t := rfl
@[simp] theorem openWriter_cwCnt (t : Nat) (s : State) : (openWriter t s).cwCnt = 0 := rfl
@[simp] theorem openWriter_cwRIdx (t : Nat) (s : State) : (openWriter t s).cwRIdx = 0 := rfl
@[simp] theorem openWriter_cwRLen (t : Nat) (s : State) : (openWriter t s).cwRLen = 0 := rfl
@[simp] theorem openWriter_crRem (t : Nat) (s : State) : (openWriter t s).crRem = s.crRem := rfl
@[simp] theorem openWriter_host (t : Nat) (s : State) : (openWriter t s).host = s.host := rfl
@[simp] theorem openWriter_reads (t : Nat) (s : State) : (openWriter t s).reads = s.reads := rfl

@[simp] theorem closeWriter_cmd (s : State) : (closeWriter s).cmd = s.cmd := rfl
@[simp] theorem closeWriter_status (s : State) : (closeWriter s).status = s.status.withCwOpen false := rfl
@[simp] theorem closeWriter_errCmd (s : State) : (closeWriter s).errCmd = s.errCmd := rfl
@[simp] theorem closeWriter_errPos (s : State) : (closeWriter s).errPos = s.errPos := rfl
@[simp] theorem closeWriter_input (s : State) : (closeWriter s).input = s.input := rfl
@[simp] theorem closeWriter_inPos (s : State) : (closeWriter s).inPos = s.inPos := rfl
@[simp] theorem closeWriter_output (s : State) : (closeWriter s).output = s.output := rfl
@[simp] theorem closeWriter_outTot (s : State) : (closeWriter s).outTot = s.outTot := rfl
@[simp] theorem closeWriter_v (s : State) : (closeWriter s).v = s.v := rfl
@[simp] theorem closeWriter_cnt (s : State) : (closeWriter s).cnt = s.cnt := rfl
@[simp] theorem closeWriter_rIdx (s : State) : (closeWriter s).rIdx = s.rIdx := rfl
@[simp] theorem closeWriter_rLen (s : State) : (closeWriter s).rLen = s.rLen := rfl
@[simp] theorem closeWriter_width (s : State) : (closeWriter s).width = s.width := rfl
@[simp] theorem closeWriter_height (s : State) : (closeWriter s).height = s.height := rfl
@[simp] theorem closeWriter_alpha (s : State) : (closeWriter s).alpha = s.alpha := rfl
@[simp] theorem closeWriter_sample (s : State) : (closeWriter s).sample = s.sample := rfl
@[simp] theorem closeWriter_color (s : State) : (closeWriter s).color = s.color := rfl
@[simp] theorem closeWriter_idx (s : State) : (closeWriter s).idx = s.idx := rfl
@[simp] theorem closeWriter_qPal (s : State) : (closeWriter s).qPal = s.qPal := rfl
@[simp] theorem closeWriter_dPal (s : State) : (closeWriter s).dPal = s.dPal := rfl
@[simp] theorem closeWriter_pPal (s : State) : (closeWriter s).pPal = s.pPal := rfl
@[simp] theorem closeWriter_qLen (s : State) : (closeWriter s).qLen = s.qLen := rfl
@[simp] theorem closeWriter_dLen (s : State) : (closeWriter s).dLen = s.dLen := rfl
@[simp] theorem closeWriter_ppLen (s : State) : (closeWriter s).ppLen = s.ppLen := rfl
@[simp] theorem closeWriter_ct (s : State) : (closeWriter s).ct = s.ct := rfl
@[simp] theorem closeWriter_ctLen (s : State) : (closeWriter s).ctLen = s.ctLen := rfl
@[simp] theorem closeWriter_cwTot (s : State) : (closeWriter s).cwTot = s.cwTot := rfl
@[simp] theorem closeWriter_cwCnt (s : State) : (closeWriter s).cwCnt = s.cwCnt := rfl
@[simp] theorem closeWriter_cwRIdx (s : State) : (closeWriter s).cwRIdx = s.cwRIdx := rfl
@[simp] theorem closeWriter_cwRLen (s : State) : (closeWriter s).cwRLen = 0 := rfl
@[simp] theorem closeWriter_crRem (s : State) : (closeWriter s).crRem = s.crRem := rfl
@[simp] theorem closeWriter_host (s : State) : (closeWriter s).host = s.host := rfl
@[simp] theorem closeWriter_reads (s : State) : (closeWriter s).reads = s.reads := rfl

@[simp] theorem openReader_cmd (hd : Header) (s : State) : (openReader hd s).cmd = s.cmd := rfl
@[simp] theorem openReader_status (hd : Header) (s : State) : (openReader hd s).status = s.status.withCrOpen (decide (0 < hd.width * hd.height)) := rfl
@[simp] theorem openReader_errCmd (hd : Header) (s : State) : (openReader hd s).errCmd = s.errCmd := rfl
@[simp] theorem openReader_errPos (hd : Header) (s : State) : (openReader hd s).errPos = s.errPos := rfl
@[simp] theorem openReader_input (hd : Header) (s : State) : (openReader hd s).input = s.input := rfl
@[simp] theorem openReader_inPos (hd : Header) (s : State) : (openReader hd s).inPos = s.inPos := rfl
@[simp] theorem openReader_output (hd : Header) (s : State) : (openReader hd s).output = s.output := rfl
@[simp] theorem openReader_outTot (hd : Header) (s : State) : (openReader hd s).outTot = s.outTot := rfl
@[simp] theorem openReader_v (hd : Header) (s : State) : (openReader hd s).v = s.v := rfl
@[simp] theorem openReader_cnt (hd : Header) (s : State) : (openReader hd s).cnt = s.cnt := rfl
@[simp] theorem openReader_rIdx (hd : Header) (s : State) : (openReader hd s).rIdx = s.rIdx := rfl
@[simp] theorem openReader_rLen (hd : Header) (s : State) : (openReader hd s).rLen = s.rLen := rfl
@[simp] theorem openReader_width (hd : Header) (s : State) : (openReader hd s).width = BitVec.ofNat 64 hd.width := rfl
@[simp] theorem openReader_height (hd : Header) (s : State) : (openReader hd s).height = BitVec.ofNat 64 hd.height := rfl
@[simp] theorem openReader_alpha (hd : Header) (s : State) : (openReader hd s).alpha = hd.alpha := rfl
@[simp] theorem openReader_sample (hd : Header) (s : State) : (openReader hd s).sample = s.sample := rfl
@[simp] theorem openReader_color (hd : Header) (s : State) : (openReader hd s).color = s.color := rfl
@[simp] theorem openReader_idx (hd : Header) (s : State) : (openReader hd s).idx = s.idx := rfl
@[simp] theorem openReader_qPal (hd : Header) (s : State) : (openReader hd s).qPal = s.qPal := rfl
@[simp] theorem openReader_dPal (hd : Header) (s : State) : (openReader hd s).dPal = s.dPal := rfl
@[simp] theorem openReader_pPal (hd : Header) (s : State) : (openReader hd s).pPal = s.pPal := rfl
@[simp] theorem openReader_qLen (hd : Header) (s : State) : (openReader hd s).qLen = s.qLen := rfl
@[simp] theorem openReader_dLen (hd : Header) (s : State) : (openReader hd s).dLen = s.dLen := rfl
@[simp] theorem openReader_ppLen (hd : Header) (s : State) : (openReader hd s).ppLen = s.ppLen := rfl
@[simp] theorem openReader_ct (hd : Header) (s : State) : (openReader hd s).ct = tableFile hd.table := rfl
@[simp] theorem openReader_ctLen (hd : Header) (s : State) : (openReader hd s).ctLen = BitVec.ofNat 4 hd.table.length := rfl
@[simp] theorem openReader_cwTot (hd : Header) (s : State) : (openReader hd s).cwTot = s.cwTot := rfl
@[simp] theorem openReader_cwCnt (hd : Header) (s : State) : (openReader hd s).cwCnt = s.cwCnt := rfl
@[simp] theorem openReader_cwRIdx (hd : Header) (s : State) : (openReader hd s).cwRIdx = s.cwRIdx := rfl
@[simp] theorem openReader_cwRLen (hd : Header) (s : State) : (openReader hd s).cwRLen = s.cwRLen := rfl
@[simp] theorem openReader_crRem (hd : Header) (s : State) : (openReader hd s).crRem = BitVec.ofNat 64 (hd.width * hd.height) := rfl
@[simp] theorem openReader_host (hd : Header) (s : State) : (openReader hd s).host = s.host := rfl
@[simp] theorem openReader_reads (hd : Header) (s : State) : (openReader hd s).reads = s.reads := rfl

@[simp] theorem coverSamples_cmd (c : Nat) (s : State) : (coverSamples c s).cmd = s.cmd := rfl
@[simp] theorem coverSamples_status (c : Nat) (s : State) : (coverSamples c s).status = s.status.withCrOpen (decide (0 < s.crRem.toNat - c)) := rfl
@[simp] theorem coverSamples_errCmd (c : Nat) (s : State) : (coverSamples c s).errCmd = s.errCmd := rfl
@[simp] theorem coverSamples_errPos (c : Nat) (s : State) : (coverSamples c s).errPos = s.errPos := rfl
@[simp] theorem coverSamples_input (c : Nat) (s : State) : (coverSamples c s).input = s.input := rfl
@[simp] theorem coverSamples_inPos (c : Nat) (s : State) : (coverSamples c s).inPos = s.inPos := rfl
@[simp] theorem coverSamples_output (c : Nat) (s : State) : (coverSamples c s).output = s.output := rfl
@[simp] theorem coverSamples_outTot (c : Nat) (s : State) : (coverSamples c s).outTot = s.outTot := rfl
@[simp] theorem coverSamples_v (c : Nat) (s : State) : (coverSamples c s).v = s.v := rfl
@[simp] theorem coverSamples_cnt (c : Nat) (s : State) : (coverSamples c s).cnt = s.cnt := rfl
@[simp] theorem coverSamples_rIdx (c : Nat) (s : State) : (coverSamples c s).rIdx = s.rIdx := rfl
@[simp] theorem coverSamples_rLen (c : Nat) (s : State) : (coverSamples c s).rLen = s.rLen := rfl
@[simp] theorem coverSamples_width (c : Nat) (s : State) : (coverSamples c s).width = s.width := rfl
@[simp] theorem coverSamples_height (c : Nat) (s : State) : (coverSamples c s).height = s.height := rfl
@[simp] theorem coverSamples_alpha (c : Nat) (s : State) : (coverSamples c s).alpha = s.alpha := rfl
@[simp] theorem coverSamples_sample (c : Nat) (s : State) : (coverSamples c s).sample = s.sample := rfl
@[simp] theorem coverSamples_color (c : Nat) (s : State) : (coverSamples c s).color = s.color := rfl
@[simp] theorem coverSamples_idx (c : Nat) (s : State) : (coverSamples c s).idx = s.idx := rfl
@[simp] theorem coverSamples_qPal (c : Nat) (s : State) : (coverSamples c s).qPal = s.qPal := rfl
@[simp] theorem coverSamples_dPal (c : Nat) (s : State) : (coverSamples c s).dPal = s.dPal := rfl
@[simp] theorem coverSamples_pPal (c : Nat) (s : State) : (coverSamples c s).pPal = s.pPal := rfl
@[simp] theorem coverSamples_qLen (c : Nat) (s : State) : (coverSamples c s).qLen = s.qLen := rfl
@[simp] theorem coverSamples_dLen (c : Nat) (s : State) : (coverSamples c s).dLen = s.dLen := rfl
@[simp] theorem coverSamples_ppLen (c : Nat) (s : State) : (coverSamples c s).ppLen = s.ppLen := rfl
@[simp] theorem coverSamples_ct (c : Nat) (s : State) : (coverSamples c s).ct = s.ct := rfl
@[simp] theorem coverSamples_ctLen (c : Nat) (s : State) : (coverSamples c s).ctLen = s.ctLen := rfl
@[simp] theorem coverSamples_cwTot (c : Nat) (s : State) : (coverSamples c s).cwTot = s.cwTot := rfl
@[simp] theorem coverSamples_cwCnt (c : Nat) (s : State) : (coverSamples c s).cwCnt = s.cwCnt := rfl
@[simp] theorem coverSamples_cwRIdx (c : Nat) (s : State) : (coverSamples c s).cwRIdx = s.cwRIdx := rfl
@[simp] theorem coverSamples_cwRLen (c : Nat) (s : State) : (coverSamples c s).cwRLen = s.cwRLen := rfl
@[simp] theorem coverSamples_crRem (c : Nat) (s : State) : (coverSamples c s).crRem = BitVec.ofNat 64 (s.crRem.toNat - c) := rfl
@[simp] theorem coverSamples_host (c : Nat) (s : State) : (coverSamples c s).host = s.host := rfl
@[simp] theorem coverSamples_reads (c : Nat) (s : State) : (coverSamples c s).reads = s.reads := rfl

@[simp] theorem clearIn_cmd (s : State) : (clearIn s).cmd = s.cmd := rfl
@[simp] theorem clearIn_status (s : State) : (clearIn s).status = s.status := rfl
@[simp] theorem clearIn_errCmd (s : State) : (clearIn s).errCmd = s.errCmd := rfl
@[simp] theorem clearIn_errPos (s : State) : (clearIn s).errPos = s.errPos := rfl
@[simp] theorem clearIn_input (s : State) : (clearIn s).input = [] := rfl
@[simp] theorem clearIn_inPos (s : State) : (clearIn s).inPos = 0 := rfl
@[simp] theorem clearIn_output (s : State) : (clearIn s).output = s.output := rfl
@[simp] theorem clearIn_outTot (s : State) : (clearIn s).outTot = s.outTot := rfl
@[simp] theorem clearIn_v (s : State) : (clearIn s).v = s.v := rfl
@[simp] theorem clearIn_cnt (s : State) : (clearIn s).cnt = s.cnt := rfl
@[simp] theorem clearIn_rIdx (s : State) : (clearIn s).rIdx = s.rIdx := rfl
@[simp] theorem clearIn_rLen (s : State) : (clearIn s).rLen = s.rLen := rfl
@[simp] theorem clearIn_width (s : State) : (clearIn s).width = s.width := rfl
@[simp] theorem clearIn_height (s : State) : (clearIn s).height = s.height := rfl
@[simp] theorem clearIn_alpha (s : State) : (clearIn s).alpha = s.alpha := rfl
@[simp] theorem clearIn_sample (s : State) : (clearIn s).sample = s.sample := rfl
@[simp] theorem clearIn_color (s : State) : (clearIn s).color = s.color := rfl
@[simp] theorem clearIn_idx (s : State) : (clearIn s).idx = s.idx := rfl
@[simp] theorem clearIn_qPal (s : State) : (clearIn s).qPal = s.qPal := rfl
@[simp] theorem clearIn_dPal (s : State) : (clearIn s).dPal = s.dPal := rfl
@[simp] theorem clearIn_pPal (s : State) : (clearIn s).pPal = s.pPal := rfl
@[simp] theorem clearIn_qLen (s : State) : (clearIn s).qLen = s.qLen := rfl
@[simp] theorem clearIn_dLen (s : State) : (clearIn s).dLen = s.dLen := rfl
@[simp] theorem clearIn_ppLen (s : State) : (clearIn s).ppLen = s.ppLen := rfl
@[simp] theorem clearIn_ct (s : State) : (clearIn s).ct = s.ct := rfl
@[simp] theorem clearIn_ctLen (s : State) : (clearIn s).ctLen = s.ctLen := rfl
@[simp] theorem clearIn_cwTot (s : State) : (clearIn s).cwTot = s.cwTot := rfl
@[simp] theorem clearIn_cwCnt (s : State) : (clearIn s).cwCnt = s.cwCnt := rfl
@[simp] theorem clearIn_cwRIdx (s : State) : (clearIn s).cwRIdx = s.cwRIdx := rfl
@[simp] theorem clearIn_cwRLen (s : State) : (clearIn s).cwRLen = s.cwRLen := rfl
@[simp] theorem clearIn_crRem (s : State) : (clearIn s).crRem = s.crRem := rfl
@[simp] theorem clearIn_host (s : State) : (clearIn s).host = s.host := rfl
@[simp] theorem clearIn_reads (s : State) : (clearIn s).reads = s.reads := rfl

@[simp] theorem clearOut_cmd (s : State) : (clearOut s).cmd = s.cmd := rfl
@[simp] theorem clearOut_status (s : State) : (clearOut s).status = s.status := rfl
@[simp] theorem clearOut_errCmd (s : State) : (clearOut s).errCmd = s.errCmd := rfl
@[simp] theorem clearOut_errPos (s : State) : (clearOut s).errPos = s.errPos := rfl
@[simp] theorem clearOut_input (s : State) : (clearOut s).input = s.input := rfl
@[simp] theorem clearOut_inPos (s : State) : (clearOut s).inPos = s.inPos := rfl
@[simp] theorem clearOut_output (s : State) : (clearOut s).output = [] := rfl
@[simp] theorem clearOut_outTot (s : State) : (clearOut s).outTot = 0 := rfl
@[simp] theorem clearOut_v (s : State) : (clearOut s).v = s.v := rfl
@[simp] theorem clearOut_cnt (s : State) : (clearOut s).cnt = s.cnt := rfl
@[simp] theorem clearOut_rIdx (s : State) : (clearOut s).rIdx = s.rIdx := rfl
@[simp] theorem clearOut_rLen (s : State) : (clearOut s).rLen = s.rLen := rfl
@[simp] theorem clearOut_width (s : State) : (clearOut s).width = s.width := rfl
@[simp] theorem clearOut_height (s : State) : (clearOut s).height = s.height := rfl
@[simp] theorem clearOut_alpha (s : State) : (clearOut s).alpha = s.alpha := rfl
@[simp] theorem clearOut_sample (s : State) : (clearOut s).sample = s.sample := rfl
@[simp] theorem clearOut_color (s : State) : (clearOut s).color = s.color := rfl
@[simp] theorem clearOut_idx (s : State) : (clearOut s).idx = s.idx := rfl
@[simp] theorem clearOut_qPal (s : State) : (clearOut s).qPal = s.qPal := rfl
@[simp] theorem clearOut_dPal (s : State) : (clearOut s).dPal = s.dPal := rfl
@[simp] theorem clearOut_pPal (s : State) : (clearOut s).pPal = s.pPal := rfl
@[simp] theorem clearOut_qLen (s : State) : (clearOut s).qLen = s.qLen := rfl
@[simp] theorem clearOut_dLen (s : State) : (clearOut s).dLen = s.dLen := rfl
@[simp] theorem clearOut_ppLen (s : State) : (clearOut s).ppLen = s.ppLen := rfl
@[simp] theorem clearOut_ct (s : State) : (clearOut s).ct = s.ct := rfl
@[simp] theorem clearOut_ctLen (s : State) : (clearOut s).ctLen = s.ctLen := rfl
@[simp] theorem clearOut_cwTot (s : State) : (clearOut s).cwTot = s.cwTot := rfl
@[simp] theorem clearOut_cwCnt (s : State) : (clearOut s).cwCnt = s.cwCnt := rfl
@[simp] theorem clearOut_cwRIdx (s : State) : (clearOut s).cwRIdx = s.cwRIdx := rfl
@[simp] theorem clearOut_cwRLen (s : State) : (clearOut s).cwRLen = s.cwRLen := rfl
@[simp] theorem clearOut_crRem (s : State) : (clearOut s).crRem = s.crRem := rfl
@[simp] theorem clearOut_host (s : State) : (clearOut s).host = s.host := rfl
@[simp] theorem clearOut_reads (s : State) : (clearOut s).reads = s.reads := rfl

@[simp] theorem appendIn_cmd (w : Word64) (s : State) : (appendIn w s).cmd = s.cmd := rfl
@[simp] theorem appendIn_status (w : Word64) (s : State) : (appendIn w s).status = s.status := rfl
@[simp] theorem appendIn_errCmd (w : Word64) (s : State) : (appendIn w s).errCmd = s.errCmd := rfl
@[simp] theorem appendIn_errPos (w : Word64) (s : State) : (appendIn w s).errPos = s.errPos := rfl
@[simp] theorem appendIn_input (w : Word64) (s : State) : (appendIn w s).input = s.input ++ [w.setWidth 8] := rfl
@[simp] theorem appendIn_inPos (w : Word64) (s : State) : (appendIn w s).inPos = s.inPos := rfl
@[simp] theorem appendIn_output (w : Word64) (s : State) : (appendIn w s).output = s.output := rfl
@[simp] theorem appendIn_outTot (w : Word64) (s : State) : (appendIn w s).outTot = s.outTot := rfl
@[simp] theorem appendIn_v (w : Word64) (s : State) : (appendIn w s).v = s.v := rfl
@[simp] theorem appendIn_cnt (w : Word64) (s : State) : (appendIn w s).cnt = s.cnt := rfl
@[simp] theorem appendIn_rIdx (w : Word64) (s : State) : (appendIn w s).rIdx = s.rIdx := rfl
@[simp] theorem appendIn_rLen (w : Word64) (s : State) : (appendIn w s).rLen = s.rLen := rfl
@[simp] theorem appendIn_width (w : Word64) (s : State) : (appendIn w s).width = s.width := rfl
@[simp] theorem appendIn_height (w : Word64) (s : State) : (appendIn w s).height = s.height := rfl
@[simp] theorem appendIn_alpha (w : Word64) (s : State) : (appendIn w s).alpha = s.alpha := rfl
@[simp] theorem appendIn_sample (w : Word64) (s : State) : (appendIn w s).sample = s.sample := rfl
@[simp] theorem appendIn_color (w : Word64) (s : State) : (appendIn w s).color = s.color := rfl
@[simp] theorem appendIn_idx (w : Word64) (s : State) : (appendIn w s).idx = s.idx := rfl
@[simp] theorem appendIn_qPal (w : Word64) (s : State) : (appendIn w s).qPal = s.qPal := rfl
@[simp] theorem appendIn_dPal (w : Word64) (s : State) : (appendIn w s).dPal = s.dPal := rfl
@[simp] theorem appendIn_pPal (w : Word64) (s : State) : (appendIn w s).pPal = s.pPal := rfl
@[simp] theorem appendIn_qLen (w : Word64) (s : State) : (appendIn w s).qLen = s.qLen := rfl
@[simp] theorem appendIn_dLen (w : Word64) (s : State) : (appendIn w s).dLen = s.dLen := rfl
@[simp] theorem appendIn_ppLen (w : Word64) (s : State) : (appendIn w s).ppLen = s.ppLen := rfl
@[simp] theorem appendIn_ct (w : Word64) (s : State) : (appendIn w s).ct = s.ct := rfl
@[simp] theorem appendIn_ctLen (w : Word64) (s : State) : (appendIn w s).ctLen = s.ctLen := rfl
@[simp] theorem appendIn_cwTot (w : Word64) (s : State) : (appendIn w s).cwTot = s.cwTot := rfl
@[simp] theorem appendIn_cwCnt (w : Word64) (s : State) : (appendIn w s).cwCnt = s.cwCnt := rfl
@[simp] theorem appendIn_cwRIdx (w : Word64) (s : State) : (appendIn w s).cwRIdx = s.cwRIdx := rfl
@[simp] theorem appendIn_cwRLen (w : Word64) (s : State) : (appendIn w s).cwRLen = s.cwRLen := rfl
@[simp] theorem appendIn_crRem (w : Word64) (s : State) : (appendIn w s).crRem = s.crRem := rfl
@[simp] theorem appendIn_host (w : Word64) (s : State) : (appendIn w s).host = s.host := rfl
@[simp] theorem appendIn_reads (w : Word64) (s : State) : (appendIn w s).reads = s.reads := rfl

@[simp] theorem observe_cmd (w : Word64) (s : State) : (observe w s).cmd = s.cmd := rfl
@[simp] theorem observe_status (w : Word64) (s : State) : (observe w s).status = s.status := rfl
@[simp] theorem observe_errCmd (w : Word64) (s : State) : (observe w s).errCmd = s.errCmd := rfl
@[simp] theorem observe_errPos (w : Word64) (s : State) : (observe w s).errPos = s.errPos := rfl
@[simp] theorem observe_input (w : Word64) (s : State) : (observe w s).input = s.input := rfl
@[simp] theorem observe_inPos (w : Word64) (s : State) : (observe w s).inPos = s.inPos := rfl
@[simp] theorem observe_output (w : Word64) (s : State) : (observe w s).output = s.output := rfl
@[simp] theorem observe_outTot (w : Word64) (s : State) : (observe w s).outTot = s.outTot := rfl
@[simp] theorem observe_v (w : Word64) (s : State) : (observe w s).v = s.v := rfl
@[simp] theorem observe_cnt (w : Word64) (s : State) : (observe w s).cnt = s.cnt := rfl
@[simp] theorem observe_rIdx (w : Word64) (s : State) : (observe w s).rIdx = s.rIdx := rfl
@[simp] theorem observe_rLen (w : Word64) (s : State) : (observe w s).rLen = s.rLen := rfl
@[simp] theorem observe_width (w : Word64) (s : State) : (observe w s).width = s.width := rfl
@[simp] theorem observe_height (w : Word64) (s : State) : (observe w s).height = s.height := rfl
@[simp] theorem observe_alpha (w : Word64) (s : State) : (observe w s).alpha = s.alpha := rfl
@[simp] theorem observe_sample (w : Word64) (s : State) : (observe w s).sample = s.sample := rfl
@[simp] theorem observe_color (w : Word64) (s : State) : (observe w s).color = s.color := rfl
@[simp] theorem observe_idx (w : Word64) (s : State) : (observe w s).idx = s.idx := rfl
@[simp] theorem observe_qPal (w : Word64) (s : State) : (observe w s).qPal = s.qPal := rfl
@[simp] theorem observe_dPal (w : Word64) (s : State) : (observe w s).dPal = s.dPal := rfl
@[simp] theorem observe_pPal (w : Word64) (s : State) : (observe w s).pPal = s.pPal := rfl
@[simp] theorem observe_qLen (w : Word64) (s : State) : (observe w s).qLen = s.qLen := rfl
@[simp] theorem observe_dLen (w : Word64) (s : State) : (observe w s).dLen = s.dLen := rfl
@[simp] theorem observe_ppLen (w : Word64) (s : State) : (observe w s).ppLen = s.ppLen := rfl
@[simp] theorem observe_ct (w : Word64) (s : State) : (observe w s).ct = s.ct := rfl
@[simp] theorem observe_ctLen (w : Word64) (s : State) : (observe w s).ctLen = s.ctLen := rfl
@[simp] theorem observe_cwTot (w : Word64) (s : State) : (observe w s).cwTot = s.cwTot := rfl
@[simp] theorem observe_cwCnt (w : Word64) (s : State) : (observe w s).cwCnt = s.cwCnt := rfl
@[simp] theorem observe_cwRIdx (w : Word64) (s : State) : (observe w s).cwRIdx = s.cwRIdx := rfl
@[simp] theorem observe_cwRLen (w : Word64) (s : State) : (observe w s).cwRLen = s.cwRLen := rfl
@[simp] theorem observe_crRem (w : Word64) (s : State) : (observe w s).crRem = s.crRem := rfl
@[simp] theorem observe_host (w : Word64) (s : State) : (observe w s).host = s.host := rfl
@[simp] theorem observe_reads (w : Word64) (s : State) : (observe w s).reads = s.reads ++ [w] := rfl

@[simp] theorem hardReset_cmd (s : State) : (hardReset s).cmd = State.reset.cmd := rfl
@[simp] theorem hardReset_status (s : State) : (hardReset s).status = State.reset.status := rfl
@[simp] theorem hardReset_errCmd (s : State) : (hardReset s).errCmd = State.reset.errCmd := rfl
@[simp] theorem hardReset_errPos (s : State) : (hardReset s).errPos = State.reset.errPos := rfl
@[simp] theorem hardReset_input (s : State) : (hardReset s).input = State.reset.input := rfl
@[simp] theorem hardReset_inPos (s : State) : (hardReset s).inPos = State.reset.inPos := rfl
@[simp] theorem hardReset_output (s : State) : (hardReset s).output = State.reset.output := rfl
@[simp] theorem hardReset_outTot (s : State) : (hardReset s).outTot = State.reset.outTot := rfl
@[simp] theorem hardReset_v (s : State) : (hardReset s).v = State.reset.v := rfl
@[simp] theorem hardReset_cnt (s : State) : (hardReset s).cnt = State.reset.cnt := rfl
@[simp] theorem hardReset_rIdx (s : State) : (hardReset s).rIdx = State.reset.rIdx := rfl
@[simp] theorem hardReset_rLen (s : State) : (hardReset s).rLen = State.reset.rLen := rfl
@[simp] theorem hardReset_width (s : State) : (hardReset s).width = State.reset.width := rfl
@[simp] theorem hardReset_height (s : State) : (hardReset s).height = State.reset.height := rfl
@[simp] theorem hardReset_alpha (s : State) : (hardReset s).alpha = State.reset.alpha := rfl
@[simp] theorem hardReset_sample (s : State) : (hardReset s).sample = State.reset.sample := rfl
@[simp] theorem hardReset_color (s : State) : (hardReset s).color = State.reset.color := rfl
@[simp] theorem hardReset_idx (s : State) : (hardReset s).idx = State.reset.idx := rfl
@[simp] theorem hardReset_qPal (s : State) : (hardReset s).qPal = State.reset.qPal := rfl
@[simp] theorem hardReset_dPal (s : State) : (hardReset s).dPal = State.reset.dPal := rfl
@[simp] theorem hardReset_pPal (s : State) : (hardReset s).pPal = State.reset.pPal := rfl
@[simp] theorem hardReset_qLen (s : State) : (hardReset s).qLen = State.reset.qLen := rfl
@[simp] theorem hardReset_dLen (s : State) : (hardReset s).dLen = State.reset.dLen := rfl
@[simp] theorem hardReset_ppLen (s : State) : (hardReset s).ppLen = State.reset.ppLen := rfl
@[simp] theorem hardReset_ct (s : State) : (hardReset s).ct = State.reset.ct := rfl
@[simp] theorem hardReset_ctLen (s : State) : (hardReset s).ctLen = State.reset.ctLen := rfl
@[simp] theorem hardReset_cwTot (s : State) : (hardReset s).cwTot = State.reset.cwTot := rfl
@[simp] theorem hardReset_cwCnt (s : State) : (hardReset s).cwCnt = State.reset.cwCnt := rfl
@[simp] theorem hardReset_cwRIdx (s : State) : (hardReset s).cwRIdx = State.reset.cwRIdx := rfl
@[simp] theorem hardReset_cwRLen (s : State) : (hardReset s).cwRLen = State.reset.cwRLen := rfl
@[simp] theorem hardReset_crRem (s : State) : (hardReset s).crRem = State.reset.crRem := rfl
@[simp] theorem hardReset_host (s : State) : (hardReset s).host = s.host := rfl
@[simp] theorem hardReset_reads (s : State) : (hardReset s).reads = s.reads := rfl

end Sys2Proof.Machine
end

