-- ==== Sys2Proof/Laws/Ops.lean ====
section
/-! SUPPORT. One lemma per shared operation that says once everything it can do; proofs cite these instead of unfolding the
operations. -/

namespace Sys2Proof.Machine

/-! The stream primitives (R8, R61). -/

theorem peek_eq (k : Nat) (s : State) : peek k s = s.input[k]? := by
  simp [peek, memRead]

theorem memRead_eq_some_iff (a : Nat) (s : State) (b : Byte) :
    memRead a s = some b ↔ s.inPos ≤ a ∧ s.input[a - s.inPos]? = some b := by
  unfold memRead; split <;> simp [*]

/-- A byte is readable exactly when it is unconsumed (R61). -/
theorem memRead_isSome_iff (a : Nat) (s : State) :
    (memRead a s).isSome = true ↔ s.inPos ≤ a ∧ a < s.inPos + inCnt s := by
  unfold memRead inCnt
  split
  · simp; omega
  · simp; omega

@[simp] theorem inCnt_consume (k : Nat) (s : State) : inCnt (consume k s) = inCnt s - k := by
  simp [inCnt]

@[simp] theorem outCnt_emit (xs : List Byte) (s : State) :
    outCnt (emit xs s) = outCnt s + xs.length := by
  simp [outCnt]

/-- Consuming twice is consuming the sum (R61). -/
theorem consume_consume (j k : Nat) (s : State) : consume j (consume k s) = consume (k + j) s := by
  simp [consume, Nat.add_assoc]

/-- Emitting twice is emitting the concatenation (R63). -/
theorem emit_emit (xs ys : List Byte) (s : State) : emit ys (emit xs s) = emit (xs ++ ys) s := by
  simp [emit, Nat.add_assoc]

@[simp] theorem emit_nil (s : State) : emit [] s = s := by simp [emit]

/-! The 64-bit views. -/

theorem countView_of_lt {r : Reg} {n : Nat} (h : n < 2 ^ 64) :
    countView r n = BitVec.ofNat 64 n := by
  rw [countView, if_pos h]

/-! The end of a command (R9, R250, R251). -/

theorem complete_eq_next_iff (i : Instr) (s t : State) (r : Except Raise State) :
    complete i s r = .next t ↔
      r = .ok t ∨ ∃ e, r = .error e ∧ t = errorEntry e (encode i) s := by
  cases r <;> simp [complete, eq_comm]

@[simp] theorem complete_ok (i : Instr) (s t : State) : complete i s (.ok t) = .next t := rfl

@[simp] theorem complete_error (i : Instr) (s : State) (e : Raise) :
    complete i s (.error e) = .next (errorEntry e (encode i) s) := rfl

/-- What each command attempts: the state it would complete in, or the error it raises. -/
def attempt : Instr → State → Except Raise State
  | .venc, s => .ok (emit (varIntEncode s.v.toNat) s)
  | .vdec, s => vdec s
  | .quant, s => quant s
  | .rdist, s => rdist s
  | .rpush en, s => rpush en s
  | .inear, s => inear s
  | .iexact, s => iexact s
  | .ctadd, s => ctadd s
  | .ctclr, s => .ok { s with ct := Vector.replicate 8 0, ctLen := 0 }
  | .rpack, s => rpack s
  | .runpk, s => runpk s
  | .cwhdr, s => cwhdr s
  | .cwpix, s => cwpix s
  | .cwrun, s => cwrun s
  | .cwend, s => cwend s
  | .crhdr, s => crhdr s
  | .crrun, s => crrun s

/-- Every command is one attempt, completed or turned into error entry (R9). -/
theorem exec_eq_complete (i : Instr) (s : State) : exec i s = complete i s (attempt i s) := by
  cases i <;> rfl

/-- Everything a command can do: complete, or take one error entry and change nothing else. -/
theorem exec_eq_next_iff (i : Instr) (s t : State) :
    exec i s = .next t ↔
      attempt i s = .ok t ∨ ∃ e, attempt i s = .error e ∧ t = errorEntry e (encode i) s := by
  rw [exec_eq_complete, complete_eq_next_iff]

/-! Palettes in register files (R41-R43). -/

theorem tooLong_iff (len : BitVec 4) : tooLong len = true ↔ 8 < len.toNat := by
  simp [tooLong, Config.palMax]

theorem tooLong_eq_false_iff (len : BitVec 4) : tooLong len = false ↔ len.toNat ≤ 8 := by
  simp [tooLong, Config.palMax]

theorem length_paletteOf (file : Vector Byte 8) (len : BitVec 4) :
    (paletteOf file len).length = min len.toNat 8 := by
  simp [paletteOf]

theorem lt_of_mem_paletteOf {file : Vector Byte 8} {len : BitVec 4} {x : Nat}
    (h : x ∈ paletteOf file len) : x < 256 := by
  simp only [paletteOf, List.mem_map] at h
  obtain ⟨b, _, rfl⟩ := h
  exact b.isLt

theorem getElem_paletteOf (file : Vector Byte 8) (len : BitVec 4) (i : Nat)
    (h : i < (paletteOf file len).length) :
    (paletteOf file len)[i] = (file[i]'(by rw [length_paletteOf] at h; omega)).toNat := by
  simp [paletteOf]

theorem getElem_fileOf (p : List Nat) (i : Nat) (h : i < 8) :
    (fileOf p)[i] = BitVec.ofNat 8 (p.getD i 0) := by
  simp [fileOf]

/-- A palette of bytes comes back from the register file it was written to. -/
theorem toNat_getElem_fileOf (p : List Nat) (hp : ∀ x ∈ p, x < 256) (i : Nat) (h : i < 8) :
    ((fileOf p)[i]).toNat = p.getD i 0 := by
  rw [getElem_fileOf, BitVec.toNat_ofNat, Nat.mod_eq_of_lt]
  by_cases hi : i < p.length
  · simpa [List.getD_eq_getElem?_getD, hi] using hp _ (List.getElem_mem hi)
  · simp [List.getD_eq_getElem?_getD, hi]

theorem toNat_lenOf (p : List Nat) (h : p.length ≤ 8) : (lenOf p).toNat = p.length := by
  simp only [lenOf, BitVec.toNat_ofNat]; omega

/-! The colour table (R44, R163). -/

theorem length_tableOf (s : State) : (tableOf s).length = min s.ctLen.toNat 8 := by
  simp [tableOf]

theorem tableFind_eq_none_iff (e : Word32) (s : State) :
    tableFind e s = none ↔ e ∉ tableOf s := by
  simp [tableFind, List.idxOf?, List.findIdx?_eq_none_iff]
  constructor
  · intro h hm; exact h _ hm rfl
  · rintro h x hx rfl; exact h hx

/-- What `tableFind` finds: the least position that holds the entry. -/
theorem tableFind_eq_some_iff (e : Word32) (s : State) (j : Nat) :
    tableFind e s = some j ↔
      ∃ h : j < (tableOf s).length, (tableOf s)[j] = e ∧ ∀ k (hk : k < j), (tableOf s)[k] ≠ e := by
  simp only [tableFind, List.idxOf?, List.findIdx?_eq_some_iff_getElem]
  simp

/-! The host interface (R24, R25, R26, R253). -/

theorem step_nil {s : State} (h : s.host = []) : step s = .next s := by
  simp [step, nextEvent, h]

theorem step_cons {s : State} {e : Event} {rest : List Event} (h : s.host = e :: rest) :
    step s = perform e { s with host := rest } := by
  simp [step, nextEvent, h]

theorem issue_of_err {s : State} (c : Word32) (h : s.status.err = true) : issue c s = .next s := by
  simp [issue, h]

theorem issue_of_legal {s : State} {c : Word32} {i : Instr} (h : s.status.err = false)
    (hc : decode c = .ok i) : issue c s = exec i s := by
  simp [issue, h, hc]

theorem issue_of_illegal {s : State} {c : Word32} {e : DecodeError} (h : s.status.err = false)
    (hc : decode c = .error e) :
    issue c s = .next (errorEntry ⟨.illegalCommand, s.inPos⟩ c s) := by
  simp [issue, h, hc]

theorem hostWrite_unmapped {num : BitVec 8} (value : Word64) (s : State)
    (h : Reg.ofNumber num = none) : hostWrite num value s = .next s := by
  simp [hostWrite, h]

theorem hostWrite_cmd {num : BitVec 8} (value : Word64) (s : State)
    (h : Reg.ofNumber num = some .cmd) :
    hostWrite num value s = issue (value.setWidth 32) { s with cmd := value.setWidth 32 } := by
  simp [hostWrite, h, writeReg]

theorem hostWrite_of_ne_cmd {num : BitVec 8} {r : Reg} (value : Word64) (s : State)
    (h : Reg.ofNumber num = some r) (hr : r ≠ .cmd) :
    hostWrite num value s = .next (writeReg r value s) := by
  simp [hostWrite, h, hr]

theorem hostRead_mapped {num : BitVec 8} {r : Reg} (s : State) (h : Reg.ofNumber num = some r) :
    hostRead num s = observe (readReg r s) (readEffect r s) := by
  simp [hostRead, h]

theorem hostRead_unmapped {num : BitVec 8} (s : State) (h : Reg.ofNumber num = none) :
    hostRead num s = observe 0 s := by
  simp [hostRead, h]

/-- A read of any register but OUTDATA changes nothing of the core (R25, R70). -/
theorem readEffect_of_ne_outData {r : Reg} (s : State) (h : r ≠ .outData) : readEffect r s = s := by
  cases r <;> first | rfl | exact absurd rfl h

end Sys2Proof.Machine
end

