-- ==== Sys2Proof/Laws/PerInstr.lean ====
section
/-! SUPPORT. Families of statements about every instruction as text, one lemma per constructor. -/

namespace Sys2Proof.Laws.EncodesInItsRow

/-- The word of an instruction lies in its row of R81 (`c & Mask = Match`), carries EN in bit 8 for
RPUSH only, and is legal by R83. -/
def Statement (i : Instr) : Prop :=
  i.wellFormed = true ∧ encode i &&& i.maskWord = i.matchWord ∧ legalCommand (encode i) = true
    ∧ ((encode i).getLsbD 8 = true ↔ i = .rpush true)

theorem venc : Statement .venc := by unfold Statement; decide
theorem vdec : Statement .vdec := by unfold Statement; decide
theorem quant : Statement .quant := by unfold Statement; decide
theorem rdist : Statement .rdist := by unfold Statement; decide
theorem rpush (en : Bool) : Statement (.rpush en) := by
  unfold Statement; cases en <;> decide
theorem inear : Statement .inear := by unfold Statement; decide
theorem iexact : Statement .iexact := by unfold Statement; decide
theorem ctadd : Statement .ctadd := by unfold Statement; decide
theorem ctclr : Statement .ctclr := by unfold Statement; decide
theorem rpack : Statement .rpack := by unfold Statement; decide
theorem runpk : Statement .runpk := by unfold Statement; decide
theorem cwhdr : Statement .cwhdr := by unfold Statement; decide
theorem cwpix : Statement .cwpix := by unfold Statement; decide
theorem cwrun : Statement .cwrun := by unfold Statement; decide
theorem cwend : Statement .cwend := by unfold Statement; decide
theorem crhdr : Statement .crhdr := by unfold Statement; decide
theorem crrun : Statement .crrun := by unfold Statement; decide

end Sys2Proof.Laws.EncodesInItsRow
end

