-- ==== Sys2Proof/Tests/Slice0.lean ====
section
/-! SUPPORT. Small tests: the decoder on words written out from R80 and R81, the well-formedness checks on terms they refuse,
one or two steps of each command on the vectors of spec/95_test_vectors.md (their names stand in the comments), and for
each obligation with hypotheses a concrete case that meets them. -/

namespace Sys2Proof.Tests

open Sys2Proof.Machine Sys2Proof.Safety

/-- A next state that satisfies `p`. -/
def answers (o : Host.Outcome State Fault Refusal) (p : State → Bool) : Bool :=
  match o with
  | .next t => p t
  | .fault _ => false
  | .refused _ => false

/-- The reset state with bytes in IN. -/
def withIn (bs : List Byte) : State := { State.reset with input := bs }

/-- The reset state with a colour table. -/
def withTable (ct : Vector Word32 8) (n : BitVec 4) : State := { State.reset with ct := ct, ctLen := n }

/-! ## Decoding: words written bit by bit from R80 and R81 -/

theorem test_decode_venc : decode 0b00000000000000000000000000000001#32 = .ok .venc := by decide
theorem test_decode_vdec : decode 0b00000000000000000000000000000010#32 = .ok .vdec := by decide
theorem test_decode_quant : decode 0b00000000000000000000000000010000#32 = .ok .quant := by decide
theorem test_decode_rdist : decode 0b00000000000000000000000000100000#32 = .ok .rdist := by decide
theorem test_decode_rpush : decode 0b00000000000000000000000000100001#32 = .ok (.rpush false) := by decide
theorem test_decode_rpush_en : decode 0b00000000000000000000000100100001#32 = .ok (.rpush true) := by decide
theorem test_decode_inear : decode 0b00000000000000000000000000110000#32 = .ok .inear := by decide
theorem test_decode_iexact : decode 0b00000000000000000000000000110001#32 = .ok .iexact := by decide
theorem test_decode_ctadd : decode 0b00000000000000000000000000110010#32 = .ok .ctadd := by decide
theorem test_decode_ctclr : decode 0b00000000000000000000000000110011#32 = .ok .ctclr := by decide
theorem test_decode_rpack : decode 0b00000000000000000000000001000000#32 = .ok .rpack := by decide
theorem test_decode_runpk : decode 0b00000000000000000000000001001000#32 = .ok .runpk := by decide
theorem test_decode_cwhdr : decode 0b00000000000000000000000001010000#32 = .ok .cwhdr := by decide
theorem test_decode_cwpix : decode 0b00000000000000000000000001010001#32 = .ok .cwpix := by decide
theorem test_decode_cwrun : decode 0b00000000000000000000000001010010#32 = .ok .cwrun := by decide
theorem test_decode_cwend : decode 0b00000000000000000000000001010011#32 = .ok .cwend := by decide
theorem test_decode_crhdr : decode 0b00000000000000000000000001011000#32 = .ok .crhdr := by decide
theorem test_decode_crrun : decode 0b00000000000000000000000001011001#32 = .ok .crrun := by decide

/-- Vectors G1 to G5. -/
theorem test_decode_illegal_words :
    decode 0 = .error .unknownOp ∧ decode 0x221 = .error .reservedBits
      ∧ decode 0x101 = .error .modifierNotAllowed ∧ decode 0xFF = .error .unknownOp
      ∧ decode 0x80000001 = .error .reservedBits := by decide

theorem test_decodeTableWord : decodeTableWord 32 0x121 = some (.rpush true) := by decide

/-- The example of R92. -/
theorem test_line_events :
    (Line.wr (.named .v) 300).event = .write 0x10 0x12C ∧ (Line.cmd .venc).event = .write 0 1 := by decide

/-! ## Well-formedness: each check refuses an ill-formed term -/

theorem test_wellFormed_reserved_bit : legalCommand 0x200 = false := by decide
theorem test_wellFormed_unknown_op : legalCommand 0x03 = false := by decide
theorem test_wellFormed_m0 : legalCommand 0x101 = false ∧ legalCommand 0x121 = true := by decide
theorem test_wellFormed_number : (RegRef.number 256).wellFormed = false := by decide
theorem test_wellFormed_value : (Line.wr (.named .v) (2 ^ 64)).wellFormed = false := by decide
theorem test_wellFormed_read : (Line.rd (.number 256)).wellFormed = false := by decide
theorem test_wellFormed_feed :
    (Pseudo.feed []).wellFormed = false ∧ (Pseudo.feed [2 ^ 64]).wellFormed = false := by decide
theorem test_wellFormed_vput : (Pseudo.vput (2 ^ 64)).wellFormed = false := by decide
theorem test_wellFormed_setq :
    (Pseudo.setq []).wellFormed = false ∧ (Pseudo.setq [0, 1, 2, 3, 4, 5, 6, 7, 8]).wellFormed = false
      ∧ (Pseudo.setq [2 ^ 64]).wellFormed = false := by decide
theorem test_wellFormed_setd :
    (Pseudo.setd []).wellFormed = false ∧ (Pseudo.setd [0, 1, 2, 3, 4, 5, 6, 7, 8]).wellFormed = false
      ∧ (Pseudo.setd [2 ^ 64]).wellFormed = false := by decide
theorem test_wellFormed_addrgb : (Pseudo.addrgb (2 ^ 64) 0 0).wellFormed = false := by decide
theorem test_wellFormed_pix : (Pseudo.pix (2 ^ 64)).wellFormed = false := by decide
theorem test_wellFormed_pixrun :
    (Pseudo.pixrun (2 ^ 64) 1).wellFormed = false ∧ (Pseudo.pixrun 1 (2 ^ 64)).wellFormed = false := by decide

/-! ## The step and the host interface -/

/-- A command word placed by `withFetchWord` runs as the first one after reset (vector V1). -/
theorem test_step_runs_fetched_word :
    answers (step (State.reset.withFetchWord 32 1)) (fun t => t.output = [0] ∧ t.cmd = 1) = true := by decide

/-- Vector G6, and G2's STATUS and ERRCMD. -/
theorem test_step_rpush_en :
    answers (step (State.reset.withFetchWord 32 0x121)) (fun t => t.status.word = 0) = true := by decide

theorem test_step_illegal_word :
    answers (step (State.reset.withFetchWord 32 0x221))
      (fun t => t.status.word = 0x61 ∧ t.errCmd = 0x221) = true := by decide

/-- Program P4: a word written while ERR = 1 is stored and not run. -/
theorem test_step_refuses_while_err :
    answers (step { State.reset with
        status := { State.reset.status with err := true, errCode := 4 }, v := 5, host := [.write 0 1] })
      (fun t => t.cmd = 1 ∧ t.output = [] ∧ t.status.word = 0x41) = true := by decide

/-- Vectors S1, S2, S3. -/
theorem test_host_streams :
    answers (step { State.reset with host := [.read 8] }) (fun t => t.reads = [0]) = true
      ∧ answers (step { State.reset with host := [.write 5 0x1FF] }) (fun t => t.input = [0xFF]) = true
      ∧ answers (step { State.reset with host := [.read 8], output := [0x82, 0x2C], outTot := 2 })
          (fun t => t.reads = [0x82] ∧ t.output = [0x2C] ∧ t.outTot = 2) = true := by decide

/-- Vectors S4, S5. -/
theorem test_host_ctrl :
    answers (step { State.reset with host := [.write 4 1], input := [2], inPos := 1, outTot := 3 })
      (fun t => t.input = [] ∧ t.inPos = 0 ∧ t.outTot = 3) = true
      ∧ answers (step { State.reset with host := [.write 4 2], output := [1], outTot := 1 })
          (fun t => t.output = [] ∧ t.outTot = 0) = true := by decide

/-- R24: a COLOR write keeps 25 bits; vector S6: STATUS ignores a write. -/
theorem test_host_write_widths :
    answers (step { State.reset with host := [.write 0x18 0xFFFFFFFF] }) (fun t => t.color = 0x1FFFFFF) = true
      ∧ answers (step { State.reset with
            host := [.write 1 0], status := { State.reset.status with err := true } })
          (fun t => t.status.err) = true := by decide

/-- R270: a hardware reset clears ERR. -/
theorem test_hard_reset :
    answers (step { State.reset with
        host := [.hardReset, .read 1], status := { State.reset.status with err := true }, v := 7 })
      (fun t => t = { State.reset with host := [.read 1] }) = true := by decide

/-! ## Commands, on the vectors of spec/95_test_vectors.md -/

/-- Vectors V5 and V12. -/
theorem test_venc_300 :
    answers (exec .venc { State.reset with v := 300 }) (fun t => t.output = [0x82, 0x2C]) = true := by decide
theorem test_venc_max :
    answers (exec .venc { State.reset with v := 0xFFFFFFFFFFFFFFFF })
      (fun t => t.output = [0x81, 0xFF, 0xFF, 0xFF, 0xFF, 0xFF, 0xFF, 0xFF, 0xFF, 0x7F]) = true := by decide

/-- Vectors V16 and V19. -/
theorem test_vdec_non_minimal :
    answers (exec .vdec (withIn [0x80, 0x80, 0x7F, 5]))
      (fun t => t.v = 127 ∧ t.inPos = 3 ∧ t.input = [5]) = true := by decide
theorem test_vdec_overflow :
    answers (exec .vdec (withIn [0x82, 0x80, 0x80, 0x80, 0x80, 0x80, 0x80, 0x80, 0x80, 0x00]))
      (fun t => t.status.word = 0x21 ∧ t.errPos = 9 ∧ t.inPos = 0) = true := by decide

/-- Vectors Q4 (trim, half to even) and Q5 (8 distinct values). -/
theorem test_quant_q4 :
    answers (exec .quant { withIn [0, 0, 0, 0, 0, 0, 0, 0, 0, 1, 2, 3, 4, 5, 6, 7] with cnt := 16 })
      (fun t => t.qPal = #v[0, 0, 1, 2, 3, 4, 5, 6] ∧ t.qLen = 8 ∧ t.inPos = 16) = true := by decide
theorem test_quantizeFn_q5 :
    quantizeFn (List.replicate 20 0 ++ [10, 20, 30, 40, 50, 60] ++ List.replicate 20 255)
      = [0, 0, 5, 25, 45, 158, 255, 255] := by decide

/-- Vectors D3 and D11. -/
theorem test_rdist_d3 :
    answers (exec .rdist { State.reset with qPal := Vector.replicate 8 248, qLen := 8 })
      (fun t => t.dPal = #v[192, 200, 208, 216, 224, 232, 240, 248] ∧ t.dLen = 8) = true := by decide
theorem test_rdist_d11 :
    answers (exec .rdist { State.reset with qPal := #v[10, 200, 100, 9, 9, 9, 9, 9], qLen := 3 })
      (fun t => t.dPal = #v[10, 200, 212, 0, 0, 0, 0, 0]) = true := by decide

/-- Vectors D9 (EN = 1) and D12 (EN = 0 copies). -/
theorem test_rpush_en_d9 :
    answers (exec (.rpush true) { State.reset with dPal := #v[0, 8, 21, 25, 45, 158, 247, 255], dLen := 8 })
      (fun t => t.pPal = #v[24, 32, 45, 49, 61, 166, 247, 255]) = true := by decide
theorem test_rpush_copies :
    answers (exec (.rpush false) { State.reset with dPal := #v[0, 40, 200, 248, 1, 1, 1, 1], dLen := 4 })
      (fun t => t.pPal = #v[0, 40, 200, 248, 0, 0, 0, 0] ∧ t.ppLen = 4) = true := by decide

/-- Vectors N10 (a tie) and N11. -/
theorem test_inear_tie :
    answers (exec .inear { State.reset with
        dPal := #v[0, 8, 40, 100, 160, 200, 240, 255], dLen := 8, sample := 130 })
      (fun t => t.idx = 4) = true := by decide
theorem test_inear_empty :
    answers (exec .inear { State.reset with idx := 5 }) (fun t => t.status.word = 0x61 ∧ t.idx = 5) = true := by
  decide

/-- Vectors X5 and X6. -/
theorem test_iexact_found :
    answers (exec .iexact { withTable #v[0xFF0000FF, 0x00FF00FF, 0, 0, 0, 0, 0, 0] 3 with color := 0x00FF00 })
      (fun t => t.idx = 2) = true := by decide
theorem test_iexact_miss :
    answers (exec .iexact { withTable #v[0xFF0000FF, 0x00FF00FF, 0, 0, 0, 0, 0, 0] 3 with color := 0x0000FF })
      (fun t => t.status.word = 0x11 ∧ t.idx = 0) = true := by decide

/-- Vectors X4 (the sentinel ignores R, G, B) and X7. -/
theorem test_ctadd_transparent :
    answers (exec .ctadd { withTable #v[0xFF0000FF, 0x00FF00FF, 0, 0, 0, 0, 0, 0] 3 with color := 0x1123456 })
      (fun t => t.idx = 3 ∧ t.ctLen = 3) = true := by decide
theorem test_ctadd_ninth :
    answers (exec .ctadd { withTable #v[0xFF, 0x1FF, 0x2FF, 0x3FF, 0x4FF, 0x5FF, 0x6FF, 0x7FF] 8 with color := 8 })
      (fun t => t.status.word = 0x11 ∧ t.ctLen = 8 ∧ t.errCmd = 0x32) = true := by decide

/-- Vector X8. -/
theorem test_ctclr :
    answers (exec .ctclr { withTable #v[1, 2, 3, 4, 5, 6, 7, 8] 8 with idx := 3 })
      (fun t => t.ct = Vector.replicate 8 0 ∧ t.ctLen = 0 ∧ t.idx = 3) = true := by decide

/-- Vectors K12 and K5. -/
theorem test_rpack_4111 :
    answers (exec .rpack { State.reset with rIdx := 2, rLen := 4111 })
      (fun t => t.output = [0x5F, 0xFF, 0x50, 0x10] ∧ t.outTot = 4) = true := by decide
theorem test_rpack_15 :
    answers (exec .rpack { State.reset with rIdx := 7, rLen := 15 }) (fun t => t.output = [0xEF]) = true := by
  decide

/-- Vectors U7 and U12. -/
theorem test_runpk_long :
    answers (exec .runpk (withIn [0x3F, 0xFF, 0x21]))
      (fun t => t.rIdx = 1 ∧ t.rLen = 4095 ∧ t.input = [0x21]) = true := by decide
theorem test_runpk_malformed :
    answers (exec .runpk (withIn [0x1F])) (fun t => t.status.word = 0x41 ∧ t.input = [0x1F]) = true := by decide

/-- Vectors W6 (VarInt width) and W2 (alpha markers). -/
theorem test_cwhdr_w6 :
    answers (exec .cwhdr { withTable #v[0xFFFFFFFF, 0, 0, 0, 0, 0, 0, 0] 1 with width := 128, height := 1 })
      (fun t => t.output = [0x52, 0x4C, 0x45, 0x33, 0x81, 0x00, 0x01, 0x01, 0xFF, 0xFF, 0xFF]
        ∧ t.status.word = 0x100 ∧ t.cwTot = 128) = true := by decide
theorem test_cwhdr_w2 :
    answers (exec .cwhdr { withTable #v[0, 0x0A141EFF, 0, 0, 0, 0, 0, 0] 2 with width := 1, height := 2, alpha := 1 })
      (fun t => t.output
        = [0x52, 0x4C, 0x45, 0x33, 1, 2, 0x82, 0, 0, 0, 0, 0x0A, 0x14, 0x1E, 0xFF]) = true := by decide

/-- An open writer with a pending run of `n` pixels of wire index 0, `n` of `t` accepted. -/
def writing (n t : Word64) (i : BitVec 4) : State :=
  { State.reset with
    ctLen := 2, idx := i, cwTot := t, cwCnt := n, cwRLen := n
    status := { State.reset.status with cwOpen := true } }

/-- The example of R207, and vector W11. -/
theorem test_cwpix_flushes :
    answers (exec .cwpix (writing 1 2 2))
      (fun t => t.output = [0x01] ∧ t.cwRIdx = 1 ∧ t.cwRLen = 1 ∧ t.cwCnt = 2) = true := by decide
theorem test_cwpix_extra_pixel :
    answers (exec .cwpix (writing 1 1 1)) (fun t => t.status.word = 0x171 ∧ t.cwCnt = 1) = true := by decide

/-- Vectors W4 (two CWRUNs join) and W13. -/
theorem test_cwrun_joins :
    answers (exec .cwrun { writing 3000 5000 1 with rLen := 2000 })
      (fun t => t.output = [] ∧ t.cwRLen = 5000 ∧ t.cwCnt = 5000) = true := by decide
theorem test_cwrun_zero :
    answers (exec .cwrun (writing 0 2 1)) (fun t => t.status.word = 0x121 ∧ t.cwCnt = 0) = true := by decide

/-- Vectors W4 (the run of 5000 is packed at the end) and W12. -/
theorem test_cwend_packs :
    answers (exec .cwend (writing 5000 5000 1))
      (fun t => t.output = [0x1F, 0xFF, 0x13, 0x89] ∧ t.status.word = 0 ∧ t.cwRLen = 0 ∧ t.cwCnt = 5000)
        = true := by decide
theorem test_cwend_early :
    answers (exec .cwend (writing 1 2 1)) (fun t => t.status.word = 0x171 ∧ t.output = []) = true := by decide

/-- Vectors H1 and H10. -/
theorem test_crhdr_h1 :
    answers (exec .crhdr (withIn [0x52, 0x4C, 0x45, 0x33, 2, 1, 2, 0, 0, 0, 0xFF, 0xFF, 0xFF, 1, 0x21]))
      (fun t => t.width = 2 ∧ t.height = 1 ∧ t.ct = #v[0xFF, 0xFFFFFFFF, 0, 0, 0, 0, 0, 0] ∧ t.ctLen = 2
        ∧ t.crRem = 2 ∧ t.status.word = 0x200 ∧ t.inPos = 13 ∧ t.input = [1, 0x21]) = true := by decide
theorem test_crhdr_h10 :
    answers (exec .crhdr (withIn
        [0x52, 0x4C, 0x45, 0x33, 0x90, 0x80, 0x80, 0x80, 0, 0x90, 0x80, 0x80, 0x80, 0, 1]))
      (fun t => t.status.word = 0x21 ∧ t.errPos = 13 ∧ t.inPos = 0) = true := by decide

/-- An open reader with two entries and `n` samples to cover. -/
def reading (n : Word64) (bs : List Byte) : State :=
  { withIn bs with ctLen := 2, crRem := n, status := { State.reset.status with crOpen := true } }

/-- Vectors H4 and H13. -/
theorem test_crrun_h4 :
    answers (exec .crrun (reading 2 [2, 0x77]))
      (fun t => t.rLen = 2 ∧ t.idx = 1 ∧ t.crRem = 0 ∧ t.status.word = 0 ∧ t.input = [0x77]) = true := by decide
theorem test_crrun_h13 :
    answers (exec .crrun (reading 2 [0x41])) (fun t => t.status.word = 0x241 ∧ t.crRem = 2) = true := by decide

/-! ## Witnesses: cases that meet the hypotheses of the obligations -/

/-- DecodeEncodeAgree and WordSelectsItsRow have satisfiable premises. -/
theorem witness_words :
    decode 0x121 = .ok (.rpush true)
      ∧ (0x121 : Word32) &&& (Instr.rpush false).maskWord = (Instr.rpush false).matchWord := by decide

theorem witness_IllegalWordRaisesIllegalCommand :
    ({ State.reset with host := [.write 0 0x101] } : State).host = .write 0 0x101 :: []
      ∧ State.reset.status.err = false ∧ legalCommand ((0x101 : Word64).setWidth 32) = false := by decide

theorem witness_StepRunsDecodedCommand :
    ({ State.reset with host := [.write 0 0x59] } : State).host = .write 0x00 0x59 :: []
      ∧ State.reset.status.err = false ∧ decode ((0x59 : Word64).setWidth 32) = .ok .crrun := by decide

/-- CommandsRefusedWhileInError and, with a reset or a write as the event, ErrorStaysUntilReset. -/
theorem witness_in_error :
    answers (step { State.reset with
        status := { State.reset.status with err := true, errCode := 6 }, host := [.write 0 1] })
      (fun t => t.status.err) = true
      ∧ answers (step { State.reset with
            status := { State.reset.status with err := true, errCode := 6 }, host := [.hardReset] })
          (fun t => !t.status.err) = true := by decide

/-- EveryStepCompletes: the reset state has no event. -/
theorem witness_EveryStepCompletes : State.reset.host = [] := by decide

theorem witness_HostWriteStoresLowBits :
    storedReg (.ct 7) = true
      ∧ ({ State.reset with host := [.write 0x47 0x1FFFFFFFF] } : State).host
          = .write (Reg.ct 7).number 0x1FFFFFFFF :: [] := by decide

/-- HostWriteIgnoredElsewhere: a read-only register and an unmapped number. -/
theorem witness_HostWriteIgnoredElsewhere :
    Reg.ofNumber 0x01 = some .status ∧ readOnlyReg .status = true ∧ Reg.ofNumber 0x59 = none := by decide

theorem witness_HostReadReturnsTheRegister :
    (Reg.crRem ≠ .outData) ∧ (Reg.crRem).number = 0x58 ∧ Reg.ofNumber 0x0B = none := by decide

theorem witness_OutDataReadPopsOldestByte :
    ({ State.reset with host := [.read 0x08], output := [1, 2] } : State).output = 1 :: [2]
      ∧ ({ State.reset with host := [.read 0x08] } : State).output = [] := by decide

/-- CtrlClearsStreams and InDataWriteAppendsByte. -/
theorem witness_stream_writes :
    ({ State.reset with host := [.write 0x04 3] } : State).host = .write 0x04 3 :: []
      ∧ ({ State.reset with host := [.write 0x05 3] } : State).host = .write 0x05 3 :: [] := by decide

/-- CountersShowExactNumbers, at the largest number a register shows. -/
theorem witness_CountersShowExactNumbers :
    ({ State.reset with inPos := 2 ^ 64 - 1 } : State).inPos < 2 ^ 64 := by decide

theorem witness_ResetClearsEverything :
    ({ State.reset with v := 1, host := [.hardReset] } : State).host = .hardReset :: [] := by decide

/-- ErrorsArePrecise (a raise), and the frame statements (a completion). -/
theorem witness_commands_raise_and_complete :
    answers (exec .quant State.reset) (fun t => t.status.err) = true
      ∧ answers (exec .quant { withIn [7] with cnt := 1 }) (fun t => !t.status.err) = true := by decide

/-- CommandsReadOnlyTheirOperands: two different states that agree on VENC's operand. -/
theorem witness_CommandsReadOnlyTheirOperands :
    ReadsAgree { State.reset with v := 3 } { State.reset with v := 3, cnt := 9 } .venc := rfl

/-- StepKeepsInvariant: a state with an open writer and an open reader. -/
theorem witness_StepKeepsInvariant :
    Inv { State.reset with
      cwTot := 5, cwCnt := 2, cwRLen := 1, crRem := 3, outTot := 1
      status := { State.reset.status with cwOpen := true, crOpen := true } } := by decide

/-- VdecDecodesOneVarInt, clause by clause: the largest value, the first overflow, an unfinished VarInt. -/
theorem witness_VdecDecodesOneVarInt :
    IsVarInt [0x81, 0xFF, 0xFF, 0xFF, 0xFF, 0xFF, 0xFF, 0xFF, 0xFF, 0x7F] (2 ^ 64 - 1)
      ∧ (AllContinue [0x82, 0x80, 0x80, 0x80, 0x80, 0x80, 0x80, 0x80, 0x80]
        ∧ varIntValue [0x82, 0x80, 0x80, 0x80, 0x80, 0x80, 0x80, 0x80, 0x80] < 2 ^ 64
        ∧ 2 ^ 64 ≤ varIntValue ([0x82, 0x80, 0x80, 0x80, 0x80, 0x80, 0x80, 0x80, 0x80] ++ [0x00]))
      ∧ (AllContinue [0x81] ∧ varIntValue [0x81] < 2 ^ 64)
      ∧ (AllContinue [] ∧ varIntValue [] < 2 ^ 64) := by decide

/-- VarIntRoundTrip at its largest number. -/
theorem witness_VarIntRoundTrip : 2 ^ 64 - 1 < 2 ^ 64 := by decide

/-- RoundHalfEvenIsNearest: a tie with the smallest even divisor. -/
theorem witness_RoundHalfEvenIsNearest : 1 ≤ 2 ∧ roundHalfEven 13 2 = 6 := by decide

/-- QuantWritesThePalette, clause by clause, CNT at both ends of its range. -/
theorem witness_QuantWritesThePalette :
    (({ withIn [7] with cnt := 1 } : State).cnt ≠ 0
        ∧ ({ withIn [7] with cnt := 1 } : State).cnt.toNat ≤ (withIn [7]).input.length)
      ∧ State.reset.cnt = 0
      ∧ (({ withIn [7] with cnt := 2 } : State).cnt ≠ 0
        ∧ (withIn [7]).input.length < ({ withIn [7] with cnt := 2 } : State).cnt.toNat) := by decide

/-- QuantizedPaletteProperties and TrimClosedForm: 7 and 8 distinct samples. -/
theorem witness_distinct_samples :
    ([0, 1, 2, 3, 4, 5, 6, 6] : List Nat).toFinset.card ≤ 7
      ∧ 8 ≤ ([0, 1, 2, 3, 4, 5, 6, 7] : List Nat).toFinset.card
      ∧ ∀ x ∈ ([0, 1, 2, 3, 4, 5, 6, 7] : List Nat), 0 ≤ x ∧ x ≤ 7 := by decide

/-- QuantizerIgnoresSampleOrder and BisectionGivesEightLeaves. -/
theorem witness_sample_order :
    List.Perm [1, 2] [2, 1] ∧ 8 ≤ ([0, 1, 2, 3, 4, 5, 6, 7] : List Nat).length := by decide

/-- The length registers at 8 and 9 (RdistMakesBucketsDistinct, RpushCopiesOrPushes). -/
theorem witness_palette_lengths :
    ({ State.reset with qLen := 8, dLen := 8 } : State).qLen.toNat ≤ 8
      ∧ ({ State.reset with qLen := 8, dLen := 8 } : State).dLen.toNat ≤ 8
      ∧ 8 < ({ State.reset with qLen := 9 } : State).qLen.toNat
      ∧ 8 < ({ State.reset with dLen := 9 } : State).dLen.toNat := by decide

/-- SweepsMoveByWholeBuckets and PushStopsAtBudgetOrNeighbour at the ends of their ranges, and on a palette
of two entries. -/
theorem witness_sweeps_and_pushes :
    raiseAbove 32 255 0 = 248 ∧ lowerBelow 32 8 255 = 7 ∧ pushEntry 1 none 255 = 255
      ∧ pushEntry 40 (some 255) 0 = 240
      ∧ 0 + 1 < ([250, 255] : List Nat).length ∧ ([250, 255] : List Nat) ≠ [] := by decide

/-- PushKeepsBucketsIncreasing: eight entries with strictly increasing buckets. -/
theorem witness_PushKeepsBucketsIncreasing :
    ([0, 8, 21, 25, 45, 158, 247, 255] : List Nat).length ≤ 8
      ∧ (∀ x ∈ ([0, 8, 21, 25, 45, 158, 247, 255] : List Nat), x < 256)
      ∧ ([0, 8, 21, 25, 45, 158, 247, 255] : List Nat).Pairwise (fun a b => a / 8 < b / 8) := by decide

/-- PushDoesNotAffectIndexing: RPUSH.EN completes and INEAR answers. -/
theorem witness_PushDoesNotAffectIndexing :
    answers (exec (.rpush true) { State.reset with dLen := 1 }) (fun t => !t.status.err) = true
      ∧ answers (exec .inear { State.reset with dLen := 1 }) (fun t => t.idx = 1) = true := by decide

/-- InearFindsLowestNearest: DLEN 1 and 8, 0 and 9. -/
theorem witness_InearFindsLowestNearest :
    (({ State.reset with dLen := 1 } : State).dLen ≠ 0
        ∧ ({ State.reset with dLen := 8 } : State).dLen.toNat ≤ 8)
      ∧ State.reset.dLen = 0 ∧ 8 < ({ State.reset with dLen := 9 } : State).dLen.toNat := by decide

/-- NormColorLayout: a transparent and an opaque colour. -/
theorem witness_NormColorLayout :
    (0x1000000 : BitVec 25).getLsbD 24 = true ∧ (0xFFFFFF : BitVec 25).getLsbD 24 = false := by decide

/-- IexactFindsLowestEntry and CtaddFindsOrAppends, clause by clause: the colour at the last position, a
colour not in the table, a full table, and CTLEN 9. -/
theorem witness_colour_table :
    ((withTable #v[1, 2, 3, 4, 5, 6, 7, 0xFF] 8).ct[7] = normColor 0
        ∧ ∀ k : Fin 8, k < 7 → (withTable #v[1, 2, 3, 4, 5, 6, 7, 0xFF] 8).ct[k] ≠ normColor 0)
      ∧ (∀ k : Fin 8, (withTable #v[1, 2, 3, 4, 5, 6, 7, 8] 8).ct[k] ≠ normColor 0)
      ∧ (withTable #v[1, 2, 3, 4, 5, 6, 7, 8] 7).ctLen.toNat < 8
      ∧ (withTable #v[1, 2, 3, 4, 5, 6, 7, 8] 8).ctLen.toNat = 8
      ∧ 8 < (withTable #v[1, 2, 3, 4, 5, 6, 7, 8] 9).ctLen.toNat := by decide

theorem witness_IexactAgreesWithCtadd :
    answers (exec .ctadd { State.reset with color := 5 }) (fun t => !t.status.err && decide (t.ctLen = 1))
      = true := by decide

theorem witness_RpackPacksCappedChunks :
    ({ State.reset with rIdx := 7, rLen := 4095 } : State).rLen.toNat = 4095 ∧ State.reset.rLen = 0 := by decide

/-- RunpkDecodesOneRecord, clause by clause: first bytes at the ends of each range. -/
theorem witness_RunpkDecodesOneRecord :
    ((0xEF : Byte).toNat / 16 % 2 = 0 ∧ (0xEF : Byte).toNat % 16 ≠ 0)
      ∧ ((0x10 : Byte).toNat / 16 % 2 = 1 ∧ (0x10 : Byte).toNat % 16 * 256 + (0x01 : Byte).toNat ≠ 0)
      ∧ State.reset.input = []
      ∧ ((withIn [0x1F]).input = [0x1F] ∧ (0x1F : Byte).toNat / 16 % 2 = 1)
      ∧ ((0xE0 : Byte).toNat / 16 % 2 = 0 ∧ (0xE0 : Byte).toNat % 16 = 0)
      ∧ ((0x10 : Byte).toNat / 16 % 2 = 1
        ∧ (0x10 : Byte).toNat % 16 * 256 + (0x00 : Byte).toNat = 0) := by decide

/-- PackedRunsRoundTrip: a split run and a neighbour of another index. -/
theorem witness_PackedRunsRoundTrip :
    (∀ r ∈ ([(3, 4096), (0, 1)] : List (BitVec 3 × Nat)), 1 ≤ r.2)
      ∧ ([(3, 4096), (0, 1)] : List (BitVec 3 × Nat)).IsChain (fun a b => a.1 ≠ b.1) := by decide

/-- CwhdrWritesTheHeader, clause by clause. -/
theorem witness_CwhdrWritesTheHeader :
    (({ State.reset with ctLen := 8, width := 0xFFFFFFFF, height := 0xFFFFFFFF } : State).width.toNat
          * ({ State.reset with ctLen := 8, width := 0xFFFFFFFF, height := 0xFFFFFFFF } : State).height.toNat
          < 2 ^ 64
        ∧ (withTable (Vector.replicate 8 0) 8).status.cwOpen = false
        ∧ (withTable (Vector.replicate 8 0) 8).ctLen ≠ 0 ∧ (withTable (Vector.replicate 8 0) 8).ctLen.toNat ≤ 8)
      ∧ (writing 0 1 1).status.cwOpen = true
      ∧ (State.reset.status.cwOpen = false ∧ State.reset.ctLen = 0)
      ∧ 8 < ({ State.reset with ctLen := 9 } : State).ctLen.toNat
      ∧ 2 ^ 64 ≤ ({ State.reset with ctLen := 1, width := 0x100000000, height := 0x100000000 } : State).width.toNat
          * ({ State.reset with ctLen := 1, width := 0x100000000, height := 0x100000000 } : State).height.toNat := by
  decide

/-- CwpixAddsOnePixel, CwrunAddsOneRun and CwendClosesTheWriter: the writer extending, changing index,
without a pending run, complete, over-full, closed, and with IDX out of range. -/
theorem witness_writer_states :
    ((writing 1 2 1).status.cwOpen = true ∧ 1 ≤ (writing 1 2 1).idx.toNat ∧ (writing 1 2 1).idx.toNat ≤ 8
        ∧ (writing 1 2 1).idx.toNat ≤ (writing 1 2 1).ctLen.toNat
        ∧ (0 : BitVec 3).toNat + 1 = (writing 1 2 1).idx.toNat
        ∧ (writing 1 2 1).cwCnt ≠ (writing 1 2 1).cwTot ∧ (writing 1 2 1).cwRLen ≠ 0
        ∧ (writing 1 2 1).cwRIdx = 0 ∧ WriterOk (writing 1 2 1))
      ∧ ((1 : BitVec 3).toNat + 1 = (writing 1 2 2).idx.toNat ∧ (writing 1 2 2).cwRIdx ≠ 1
        ∧ WriterOk (writing 1 2 2))
      ∧ ((writing 0 2 1).cwRLen = 0 ∧ WriterOk (writing 0 2 1))
      ∧ (writing 2 2 1).cwCnt = (writing 2 2 1).cwTot
      ∧ (({ writing 1 2 1 with rLen := 1 } : State).rLen ≠ 0 ∧ (writing 1 2 1).cwCnt.toNat + 1 ≤ 2)
      ∧ (writing 1 2 1).cwTot.toNat < (writing 1 2 1).cwCnt.toNat + 2
      ∧ State.reset.status.cwOpen = false ∧ (writing 1 2 0).idx = 0
      ∧ 8 < (writing 1 2 9).idx.toNat ∧ (writing 1 2 3).ctLen.toNat < (writing 1 2 3).idx.toNat := by decide

theorem witness_CwrunIsRepeatedCwpix :
    WriterOk { writing 1 4 1 with rLen := 3 } ∧ (writing 1 4 1).status.cwOpen = true
      ∧ 1 ≤ (writing 1 4 1).idx.toNat ∧ (writing 1 4 1).idx.toNat ≤ 8
      ∧ (writing 1 4 1).idx.toNat ≤ (writing 1 4 1).ctLen.toNat
      ∧ ({ writing 1 4 1 with rLen := 3 } : State).rLen ≠ 0
      ∧ (writing 1 4 1).cwCnt.toNat + ({ writing 1 4 1 with rLen := 3 } : State).rLen.toNat
          ≤ (writing 1 4 1).cwTot.toNat := by decide

/-- A closed writer over a table of two colours, for a 5 x `h` image. -/
def closed (h : Word64) : State := { withTable (Vector.replicate 8 0) 2 with width := 5, height := h }

/-- WriterPacksMaximalRuns: runs whose neighbours join, covering a 5 x 1 image; and an empty image. -/
theorem witness_WriterPacksMaximalRuns :
    ((closed 1).status.cwOpen = false ∧ (closed 1).ctLen ≠ 0 ∧ (closed 1).ctLen.toNat ≤ 8
        ∧ runsTotal [(0, 2), (0, 1), (1, 2)] = (closed 1).width.toNat * (closed 1).height.toNat
        ∧ runsTotal [(0, 2), (0, 1), (1, 2)] < 2 ^ 64
        ∧ RunsOk (closed 1).ctLen.toNat [(0, 2), (0, 1), (1, 2)])
      ∧ runsTotal [] = (closed 0).width.toNat * (closed 0).height.toNat := by decide

/-- CrhdrReadsTheHeader: a header with a non-minimal width, ALPHA = 1 and two entries, and a byte after it. -/
theorem witness_CrhdrReadsTheHeader :
    (withIn [0x52, 0x4C, 0x45, 0x33, 0x80, 2, 1, 0x82, 0, 0, 0, 0, 10, 20, 30, 255, 0x77]).input
        = [0x52, 0x4C, 0x45, 0x33] ++ [0x80, 2] ++ [1] ++ [0x82] ++ [0, 0, 0, 0, 10, 20, 30, 255] ++ [0x77]
      ∧ IsVarInt [0x80, 2] 2 ∧ IsVarInt [1] 1 ∧ 2 * 1 < 2 ^ 64
      ∧ (0x82 : Byte).toNat = (1 : BitVec 1).toNat * 128 + 2
      ∧ ([0, 0, 0, 0, 10, 20, 30, 255] : List Byte).length = 2 * (3 + (1 : BitVec 1).toNat)
      ∧ (withIn []).status.crOpen = false := by decide

/-- CrhdrRaisesAtTheFirstBadByte: a reader that is open, and, with a closed one, a magic cut short before
its first and its last byte and a wrong last byte. -/
theorem witness_crhdr_magic :
    (reading 1 []).status.crOpen = true ∧ (withIn []).status.crOpen = false
      ∧ ((0 < 4) ∧ (withIn []).input = [0x52, 0x4C, 0x45, 0x33].take 0)
      ∧ ((3 < 4) ∧ (withIn [0x52, 0x4C, 0x45]).input = [0x52, 0x4C, 0x45, 0x33].take 3)
      ∧ ((withIn [0x52, 0x4C, 0x45, 0x34]).input = [0x52, 0x4C, 0x45, 0x33].take 3 ++ 0x34 :: []
        ∧ (0x34 : Byte) ≠ (#v[0x52, 0x4C, 0x45, 0x33] : Vector Byte 4)[3]) := by decide

/-- The groups of a VarInt that stays below 2^64 until one more group is read. -/
def nineGroups : List Byte := [0x82, 0x80, 0x80, 0x80, 0x80, 0x80, 0x80, 0x80, 0x80]

/-- CrhdrRaisesAtTheFirstBadByte: the width, and then the height, cut short and too wide. -/
theorem witness_crhdr_varints :
    ((withIn [0x52, 0x4C, 0x45, 0x33, 0x81]).input = [0x52, 0x4C, 0x45, 0x33] ++ [0x81]
        ∧ (withIn [0x52, 0x4C, 0x45, 0x33, 0x81]).status.crOpen = false
        ∧ AllContinue [0x81] ∧ varIntValue [0x81] < 2 ^ 64)
      ∧ ((withIn ([0x52, 0x4C, 0x45, 0x33] ++ nineGroups ++ [0])).input
            = [0x52, 0x4C, 0x45, 0x33] ++ nineGroups ++ 0 :: []
        ∧ (withIn ([0x52, 0x4C, 0x45, 0x33] ++ nineGroups ++ [0])).status.crOpen = false
        ∧ AllContinue nineGroups ∧ varIntValue nineGroups < 2 ^ 64
        ∧ 2 ^ 64 ≤ varIntValue (nineGroups ++ [0]))
      ∧ ((withIn [0x52, 0x4C, 0x45, 0x33, 2]).input = [0x52, 0x4C, 0x45, 0x33] ++ [2] ++ []
        ∧ (withIn [0x52, 0x4C, 0x45, 0x33, 2]).status.crOpen = false
        ∧ IsVarInt [2] 2 ∧ AllContinue [] ∧ varIntValue [] < 2 ^ 64)
      ∧ ((withIn ([0x52, 0x4C, 0x45, 0x33] ++ [2] ++ nineGroups ++ [0])).input
            = [0x52, 0x4C, 0x45, 0x33] ++ [2] ++ nineGroups ++ 0 :: []
        ∧ (withIn ([0x52, 0x4C, 0x45, 0x33] ++ [2] ++ nineGroups ++ [0])).status.crOpen = false) := by decide

/-- A VarInt of 2^32. -/
def wideSide : List Byte := [0x90, 0x80, 0x80, 0x80, 0x00]

/-- CrhdrRaisesAtTheFirstBadByte: W*H of 2^64, no flags byte, a colour count of 0 and of 9, and a table one
byte short. -/
theorem witness_crhdr_fields :
    ((withIn ([0x52, 0x4C, 0x45, 0x33] ++ wideSide ++ wideSide)).input
          = [0x52, 0x4C, 0x45, 0x33] ++ wideSide ++ wideSide ++ []
        ∧ IsVarInt wideSide (2 ^ 32) ∧ 2 ^ 64 ≤ 2 ^ 32 * 2 ^ 32)
      ∧ ((withIn [0x52, 0x4C, 0x45, 0x33, 2, 1]).input = [0x52, 0x4C, 0x45, 0x33] ++ [2] ++ [1]
        ∧ IsVarInt [2] 2 ∧ IsVarInt [1] 1 ∧ 2 * 1 < 2 ^ 64)
      ∧ ((withIn [0x52, 0x4C, 0x45, 0x33, 2, 1, 0x80]).input
            = [0x52, 0x4C, 0x45, 0x33] ++ [2] ++ [1] ++ 0x80 :: []
        ∧ (0x80 : Byte).toNat % 128 = 0 ∧ 8 < (0x09 : Byte).toNat % 128)
      ∧ ((withIn [0x52, 0x4C, 0x45, 0x33, 2, 1, 1, 0, 0]).input
            = [0x52, 0x4C, 0x45, 0x33] ++ [2] ++ [1] ++ 1 :: [0, 0]
        ∧ 1 ≤ (1 : Byte).toNat % 128 ∧ (1 : Byte).toNat % 128 ≤ 8
        ∧ ([0, 0] : List Byte).length < (1 : Byte).toNat % 128 * (3 + (1 : Byte).toNat / 128))
      ∧ (withIn (wideSide ++ wideSide)).status.crOpen = false := by decide

/-- HeaderRoundTrip. -/
theorem witness_HeaderRoundTrip :
    (withIn (headerBytes 2 1 0 [0xFF, 0xFFFFFFFF] ++ [1])).input
        = headerBytes 2 1 0 [0xFF, 0xFFFFFFFF] ++ [1]
      ∧ ([0xFF, 0xFFFFFFFF] : List Word32) ≠ [] ∧ (withIn []).status.crOpen = false := by decide

/-- CrrunDecodesOneRecord, clause by clause. -/
theorem witness_CrrunDecodesOneRecord :
    (decodeRecordAt 0 [0x22] = .ok (1, 2, 1) ∧ (1 : BitVec 3).toNat < (reading 2 [0x22]).ctLen.toNat
        ∧ 2 ≤ (reading 2 [0x22]).crRem.toNat)
      ∧ State.reset.status.crOpen = false
      ∧ decodeRecordAt 0 [0x30] = .error ⟨.malformedRunRecord, 0⟩
      ∧ (decodeRecordAt 0 [0x41] = .ok (2, 1, 1) ∧ (reading 2 [0x41]).ctLen.toNat ≤ (2 : BitVec 3).toNat)
      ∧ (decodeRecordAt 0 [0x03] = .ok (0, 3, 1) ∧ (reading 2 [0x03]).crRem.toNat < 3) := by decide

/-- ReaderRecoversTheRuns. -/
theorem witness_ReaderRecoversTheRuns :
    (reading 3 [0x02, 0x21, 0x77]).input
        = ([(0, 2), (1, 1)] : List (BitVec 3 × Nat)).flatMap (fun r => packRun r.1 r.2) ++ [0x77]
      ∧ RunsOk 2 [(0, 2), (1, 1)] ∧ runsTotal [(0, 2), (1, 1)] = (reading 3 []).crRem.toNat
      ∧ (reading 3 []).status.crOpen = true ∧ (reading 3 []).status.err = false
      ∧ (reading 3 []).ctLen.toNat = 2 := by decide

end Sys2Proof.Tests
end

section
/-! `round_half_even` (R10): one equation per case of the remainder against half the divisor, and the
nearest-integer property (O29). -/

namespace Sys2Proof.Machine

/-- Below the half: round down. -/
theorem roundHalfEven_of_lt {s c : Nat} (h : 2 * (s % c) < c) : roundHalfEven s c = s / c := by
  simp [roundHalfEven, h]

/-- Above the half: round up. -/
theorem roundHalfEven_of_gt {s c : Nat} (h : c < 2 * (s % c)) : roundHalfEven s c = s / c + 1 := by
  simp [roundHalfEven, h, h.le]

/-- On a tie the quotient goes up by its own parity, to the even one of its two neighbours. -/
theorem roundHalfEven_of_tie {s c : Nat} (h : 2 * (s % c) = c) :
    roundHalfEven s c = s / c + s / c % 2 := by
  have parity := Nat.mod_two_eq_zero_or_one (s / c)
  simp only [roundHalfEven, h, lt_irrefl, if_false]
  split <;> omega

/-- Settles O29: the remainder is below, above or at half the divisor, and `s = c * (s / c) + s % c`
gives the distance in each case; only the third is a tie. -/
theorem roundHalfEvenIsNearest : Obligations.RoundHalfEvenIsNearest := by
  intro s c hc
  have division : c * (s / c) + s % c = s := Nat.div_add_mod s c
  have remainder : s % c < c := Nat.mod_lt s hc
  rcases lt_trichotomy (2 * (s % c)) c with below | tie | above
  · rw [roundHalfEven_of_lt below]
    omega
  · rw [roundHalfEven_of_tie tie]
    rcases Nat.mod_two_eq_zero_or_one (s / c) with even | odd
    · rw [even, Nat.add_zero]
      omega
    · rw [odd, Nat.mul_succ]
      omega
  · rw [roundHalfEven_of_gt above, Nat.mul_succ]
    omega

end Sys2Proof.Machine
end

section
/-! Command words (R80-R83): a word is its three fields, `decode` and `encode` are inverse, and a word matches
only the row of R81 it was encoded from (O2). -/

namespace Sys2Proof

/-! ### The fields of a word (R80) -/

/-- OP, M0 and RES cover all 32 bits. -/
theorem word_ext_fields {c d : Word32} (op : opField c = opField d) (m0 : m0Field c = m0Field d)
    (res : resField c = resField d) : c = d := by
  refine BitVec.eq_of_getLsbD_eq fun k hk => ?_
  rcases lt_trichotomy k 8 with low | rfl | high
  · simpa [opField, low] using congrArg (·.getLsbD k) op
  · exact m0
  · have inRes : k - 9 < 23 := by omega
    have shift : 9 + (k - 9) = k := by omega
    simpa [resField, inRes, shift] using congrArg (·.getLsbD (k - 9)) res

@[simp] theorem resField_encode (i : Instr) : resField (encode i) = 0 := by
  cases i with
  | rpush en => cases en <;> rfl
  | _ => rfl

/-- An OP of R81 is the OP of its command's word, and that word has M0 clear. -/
theorem fields_of_instrOfOp {op : BitVec 8} {i : Instr} (h : instrOfOp op = some i) :
    op = opField (encode i) ∧ m0Field (encode i) = false := by
  unfold instrOfOp at h
  split at h <;> cases h <;> exact ⟨rfl, rfl⟩

/-- M0 leaves a command as it is when clear, and when set turns RPUSH into RPUSH.EN (R82). -/
theorem applyM0_eq_ok {i j : Instr} {m0 : Bool} (h : applyM0 i m0 = .ok j) :
    (m0 = false ∧ j = i) ∨ (m0 = true ∧ i = .rpush false ∧ j = .rpush true) := by
  cases m0 with
  | false => cases h; exact .inl ⟨rfl, rfl⟩
  | true =>
    by_cases isRpush : i = .rpush false
    · subst isRpush; cases h; exact .inr ⟨rfl, rfl, rfl⟩
    · simp [applyM0, isRpush] at h

/-! ### `decode` and `encode` are inverse -/

/-- What a word that decodes looks like: RES is 0, OP selects a command and M0 modifies it. -/
theorem fields_of_decode {c : Word32} {j : Instr} (h : decode c = .ok j) :
    resField c = 0 ∧ ∃ i, instrOfOp (opField c) = some i ∧ applyM0 i (m0Field c) = .ok j := by
  unfold decode at h
  split at h
  · cases h
  · next res =>
    split at h
    · cases h
    · next i op => exact ⟨not_not.mp res, i, op, h⟩

@[simp] theorem decode_encode (i : Instr) : decode (encode i) = .ok i := by
  cases i with
  | rpush en => cases en <;> rfl
  | _ => rfl

/-- A word that decodes to `j` has the fields of `encode j`. -/
theorem eq_encode_of_decode {c : Word32} {j : Instr} (h : decode c = .ok j) : c = encode j := by
  obtain ⟨res, i, op, modified⟩ := fields_of_decode h
  obtain ⟨opEncode, m0Encode⟩ := fields_of_instrOfOp op
  refine word_ext_fields ?_ ?_ (by rw [res, resField_encode])
  all_goals obtain ⟨m0, rfl⟩ | ⟨m0, rfl, rfl⟩ := applyM0_eq_ok modified
  · exact opEncode
  · exact opEncode
  · rw [m0, m0Encode]
  · exact m0

theorem decode_eq_ok_iff {c : Word32} {i : Instr} : decode c = .ok i ↔ c = encode i :=
  ⟨eq_encode_of_decode, fun h => h ▸ decode_encode i⟩

theorem encode_injective : Function.Injective encode := fun i j h =>
  Except.ok.inj ((decode_encode i).symm.trans (h ▸ decode_encode j))

/-! ### The rows of R81 -/

/-- Every row but RPUSH's masks no bit: it is the row of one word. -/
theorem Instr.rpush_or_row_of_one_word (i : Instr) :
    (∃ en, i = .rpush en) ∨ (i.maskWord = BitVec.allOnes 32 ∧ i.matchWord = encode i) := by
  cases i with
  | rpush en => exact .inl ⟨en, rfl⟩
  | _ => exact .inr ⟨rfl, rfl⟩

theorem encode_and_maskWord (i : Instr) : encode i &&& i.maskWord = i.matchWord := by
  obtain ⟨en, rfl⟩ | ⟨mask, row⟩ := i.rpush_or_row_of_one_word
  · obtain ⟨-, inRow, -⟩ := Laws.EncodesInItsRow.rpush en
    exact inRow
  · rw [mask, row, BitVec.and_allOnes]

/-- RPUSH's mask clears bit 8 only, so a word of its row is RPUSH's word with that bit put back. -/
theorem eq_encode_rpush_of_row {c : Word32} (h : c &&& 0xFFFFFEFF#32 = 0x00000021#32) :
    c = encode (.rpush (c.getLsbD 8)) := by
  have bit8 : c &&& 0x100#32 = if c.getLsbD 8 then 0x100#32 else 0#32 := BitVec.and_twoPow c 8
  calc c = c &&& (0xFFFFFEFF#32 ||| 0x100#32) := (BitVec.and_allOnes (x := c)).symm
    _ = (c &&& 0xFFFFFEFF#32) ||| (c &&& 0x100#32) := BitVec.and_or_distrib_left
    _ = 0x00000021#32 ||| (if c.getLsbD 8 then 0x100#32 else 0#32) := by rw [h, bit8]
    _ = encode (.rpush (c.getLsbD 8)) := by cases c.getLsbD 8 <;> rfl

/-- The words of a row are the words of its instructions. -/
theorem exists_encode_of_row {c : Word32} {i : Instr} (h : c &&& i.maskWord = i.matchWord) :
    ∃ j, c = encode j ∧ j.matchWord = i.matchWord := by
  obtain ⟨en, rfl⟩ | ⟨mask, row⟩ := i.rpush_or_row_of_one_word
  · exact ⟨.rpush (c.getLsbD 8), eq_encode_rpush_of_row h, rfl⟩
  · rw [mask, row, BitVec.and_allOnes] at h
    exact ⟨i, h, rfl⟩

theorem getLsbD_encode_rpush (en : Bool) : (encode (.rpush en)).getLsbD 8 = en := by
  cases en <;> rfl

/-- Settles O2: the words of a row are the words of its instructions, and `encode` is injective with
`decode` as its inverse, so a word has one row at most. -/
theorem wordSelectsItsRow : Obligations.WordSelectsItsRow := by
  refine ⟨?selects, ?decodes, ?unique, ?enable⟩
  case selects =>
    intro c i h
    rw [decode_eq_ok_iff.mp h, encode_and_maskWord]
  case decodes =>
    intro c i h
    obtain ⟨j, word, sameRow⟩ := exists_encode_of_row h
    exact ⟨j, decode_eq_ok_iff.mpr word, sameRow⟩
  case unique =>
    intro c i j hi hj
    obtain ⟨i', wordI, rowI⟩ := exists_encode_of_row hi
    obtain ⟨j', wordJ, rowJ⟩ := exists_encode_of_row hj
    have same : i' = j' := encode_injective (wordI.symm.trans wordJ)
    rw [← rowI, ← rowJ, same]
  case enable =>
    intro c en h
    rw [decode_eq_ok_iff.mp h, getLsbD_encode_rpush]

end Sys2Proof
end

section
/-! VarInts (R87, R100-R104): the value of a sequence of groups, what the decoder does with each way IN can go on,
and the encoder as the base-128 digits of its number (O26, O27, O28). -/

namespace Sys2Proof.Machine

open Sys2Proof.Safety

/-! ### The value of a sequence of groups (R87) -/

@[simp] theorem varIntValue_concat (cs : List Byte) (b : Byte) :
    varIntValue (cs ++ [b]) = varIntValue cs * 128 + b.toNat % 128 := by
  simp [varIntValue]

/-- A leading byte 0x80 adds nothing (D12). -/
theorem varIntValue_cons_0x80 (cs : List Byte) : varIntValue (0x80 :: cs) = varIntValue cs := rfl

theorem varIntValue_lt_pow_length (bs : List Byte) : varIntValue bs < 128 ^ bs.length := by
  induction bs using List.reverseRecOn with
  | nil => simp [varIntValue]
  | append_singleton cs b ih =>
    rw [varIntValue_concat, List.length_append, List.length_singleton, pow_succ]
    omega

/-- A VarInt is continued groups and a last one with the flag clear. -/
theorem isVarInt_concat_iff {cs : List Byte} {b : Byte} {n : Nat} :
    IsVarInt (cs ++ [b]) n ↔
      AllContinue cs ∧ b.getLsbD 7 = false ∧ varIntValue (cs ++ [b]) = n ∧ n < 2 ^ 64 := by
  rw [IsVarInt, List.dropLast_concat, List.getLastD_concat]
  exact and_iff_right (by simp)

theorem lt_pow_length_of_isVarInt {bs : List Byte} {n : Nat} (h : IsVarInt bs n) : n < 128 ^ bs.length := by
  obtain ⟨-, -, -, rfl, -⟩ := h
  exact varIntValue_lt_pow_length bs

/-! ### The decoder (R101) -/

/-- The value of continued groups does not fall, so while it stays below 2^64 the decoder reads on. -/
theorem varIntDecode_append {cs : List Byte} (pos : Nat) (bs : List Byte) (flags : AllContinue cs)
    (small : varIntValue cs < 2 ^ 64) :
    varIntDecode pos (cs ++ bs) = varIntLoop (pos + cs.length) cs.length (varIntValue cs) bs := by
  induction cs using List.reverseRecOn generalizing bs with
  | nil => rfl
  | append_singleton cs b ih =>
    rw [varIntValue_concat] at small
    have flag : b.getLsbD 7 = true := flags b (by simp)
    have prefixFlags : AllContinue cs := fun c hc => flags c (by simp [hc])
    calc varIntDecode pos (cs ++ [b] ++ bs) = varIntDecode pos (cs ++ b :: bs) := by simp
      _ = varIntLoop (pos + cs.length) cs.length (varIntValue cs) (b :: bs) :=
          ih (b :: bs) prefixFlags (by omega)
      _ = varIntLoop (pos + cs.length + 1) (cs.length + 1) (varIntValue cs * 128 + b.toNat % 128) bs := by
          rw [varIntLoop, if_neg small.not_ge, if_pos flag]
      _ = _ := by simp [Nat.add_assoc]

/-- A VarInt of less than 2^64, minimal or not, is decoded whatever follows it. -/
theorem varIntDecode_of_isVarInt {bs : List Byte} {n : Nat} (pos : Nat) (rest : List Byte)
    (h : IsVarInt bs n) : varIntDecode pos (bs ++ rest) = .ok (n, bs.length) := by
  obtain rfl | ⟨cs, b, rfl⟩ := List.eq_nil_or_concat' bs
  · exact absurd rfl h.1
  · obtain ⟨flags, last, rfl, small⟩ := isVarInt_concat_iff.mp h
    rw [varIntValue_concat] at small
    rw [List.append_assoc, varIntDecode_append pos _ flags (by omega), List.singleton_append, varIntLoop,
      if_neg small.not_ge, if_neg (ne_true_of_eq_false last), varIntValue_concat, List.length_append,
      List.length_singleton]

/-- The byte that takes the value to 2^64 raises OverflowError at its own offset. -/
theorem varIntDecode_overflow {cs : List Byte} {b : Byte} (pos : Nat) (rest : List Byte)
    (flags : AllContinue cs) (small : varIntValue cs < 2 ^ 64) (large : 2 ^ 64 ≤ varIntValue (cs ++ [b])) :
    varIntDecode pos (cs ++ b :: rest) = .error ⟨.overflow, pos + cs.length⟩ := by
  rw [varIntValue_concat] at large
  rw [varIntDecode_append pos _ flags small, varIntLoop, if_pos large]

/-- Continued groups and no more bytes raise TruncatedInputError at the end. -/
theorem varIntDecode_truncated {cs : List Byte} (pos : Nat) (flags : AllContinue cs)
    (small : varIntValue cs < 2 ^ 64) :
    varIntDecode pos cs = .error ⟨.truncatedInput, pos + cs.length⟩ := by
  have loop := varIntDecode_append pos [] flags small
  rwa [List.append_nil, varIntLoop] at loop

/-! ### The encoder (R100) -/

/-- The byte of a group that is not the last. -/
def continueByte (d : Nat) : Byte := BitVec.ofNat 8 (128 + d)

theorem toNat_continueByte {d : Nat} (h : d < 128) : (continueByte d).toNat = 128 + d := by
  rw [continueByte, BitVec.toNat_ofNat]
  omega

/-- Bit 7 is set exactly in the bytes from 128 on. -/
theorem getLsbD_seven_eq (b : Byte) : b.getLsbD 7 = decide (128 ≤ b.toNat) := by
  rw [← BitVec.msb_eq_getLsbD_last b, BitVec.msb_eq_decide]

/-- The bytes of the continued groups of `n`, the most significant digit first. -/
def continueGroups (n : Nat) : List Byte := ((Nat.digits 128 n).map continueByte).reverse

@[simp] theorem length_continueGroups (n : Nat) :
    (continueGroups n).length = (Nat.digits 128 n).length := by
  simp [continueGroups]

@[simp] theorem continueGroups_zero : continueGroups 0 = [] := by simp [continueGroups]

theorem continueGroups_of_pos {n : Nat} (h : 0 < n) :
    continueGroups n = continueGroups (n / 128) ++ [continueByte (n % 128)] := by
  simp [continueGroups, Nat.digits_def' (by norm_num : 1 < 128) h]

theorem allContinue_continueGroups (n : Nat) : AllContinue (continueGroups n) := by
  intro b hb
  simp only [continueGroups, List.mem_reverse, List.mem_map] at hb
  obtain ⟨d, hd, rfl⟩ := hb
  have small : d < 128 := Nat.digits_lt_base (by norm_num) hd
  rw [getLsbD_seven_eq, toNat_continueByte small]
  simp

theorem varIntValue_continueGroups (n : Nat) : varIntValue (continueGroups n) = n := by
  induction n using Nat.strongRecOn with
  | ind n ih =>
    obtain rfl | pos := Nat.eq_zero_or_pos n
    · simp [varIntValue]
    · rw [continueGroups_of_pos pos, varIntValue_concat, ih (n / 128) (by omega),
        toNat_continueByte (by omega)]
      omega

/-- With fuel for its bits, the loop of R100 prepends the groups of its number. -/
theorem varIntGroups_eq {fuel n : Nat} (out : List Byte) (enough : n < 2 ^ fuel) :
    varIntGroups fuel n out = continueGroups n ++ out := by
  induction fuel generalizing n out with
  | zero =>
    obtain rfl : n = 0 := by simpa using enough
    simp [varIntGroups]
  | succ fuel ih =>
    obtain rfl | pos := Nat.eq_zero_or_pos n
    · simp [varIntGroups]
    · rw [varIntGroups, if_pos pos, ih _ (by rw [pow_succ] at enough; omega), continueGroups_of_pos pos,
        List.append_assoc]
      rfl

theorem varIntEncode_eq {n : Nat} (h : n < 2 ^ 64) :
    varIntEncode n = continueGroups (n / 128) ++ [BitVec.ofNat 8 (n % 128)] :=
  varIntGroups_eq _ (show n / 128 < 2 ^ 64 by omega)

theorem isVarInt_varIntEncode {n : Nat} (h : n < 2 ^ 64) : IsVarInt (varIntEncode n) n := by
  have last : (BitVec.ofNat 8 (n % 128)).toNat = n % 128 := by
    rw [BitVec.toNat_ofNat]
    omega
  rw [varIntEncode_eq h, isVarInt_concat_iff]
  refine ⟨allContinue_continueGroups _, ?_, ?_, h⟩
  · rw [getLsbD_seven_eq, last]
    exact decide_eq_false (by omega)
  · rw [varIntValue_concat, varIntValue_continueGroups, last]
    omega

/-- The encoding is no longer than its number needs. -/
theorem varIntEncode_minimal {n : Nat} (h : n < 2 ^ 64) :
    (varIntEncode n).length = 1 ∨ 128 ^ ((varIntEncode n).length - 1) ≤ n := by
  simp only [varIntEncode_eq h, List.length_append, List.length_singleton, length_continueGroups,
    Nat.add_sub_cancel]
  by_cases oneGroup : n / 128 = 0
  · left
    simp [oneGroup]
  · right
    have digits : 128 ^ (Nat.digits 128 (n / 128)).length ≤ 128 * (n / 128) :=
      Nat.base_pow_length_digits_le' 126 (n / 128) oneGroup
    omega

theorem length_varIntEncode_le {n : Nat} (h : n < 2 ^ 64) : (varIntEncode n).length ≤ 10 := by
  obtain one | lower := varIntEncode_minimal h
  · omega
  · by_contra long
    have tenGroups : 128 ^ 10 ≤ 128 ^ ((varIntEncode n).length - 1) :=
      Nat.pow_le_pow_right (by norm_num) (by omega)
    omega

/-- A first byte 0x80 adds nothing to the value, so what follows it would be a shorter encoding. -/
theorem head?_varIntEncode_ne {n : Nat} (h : n < 2 ^ 64) : (varIntEncode n).head? ≠ some 0x80 := by
  intro head
  obtain ⟨cs, form⟩ := List.head?_eq_some_iff.mp head
  obtain ⟨-, -, last, value, -⟩ := form ▸ isVarInt_varIntEncode h
  have minimal := form ▸ varIntEncode_minimal h
  rw [List.length_cons, Nat.add_sub_cancel] at minimal
  obtain one | lower := minimal
  · obtain rfl : cs = [] := by simpa using one
    exact absurd last (by decide)
  · have upper : varIntValue cs < 128 ^ cs.length := varIntValue_lt_pow_length cs
    rw [varIntValue_cons_0x80] at value
    omega

/-! ### VENC, VDEC and the round trip (R102-R104) -/

/-- Settles O28: the encoding is a VarInt of `n`, so it decodes and `n` is below 128 to its length. -/
theorem varIntRoundTrip : Obligations.VarIntRoundTrip := by
  intro n pos rest h
  have encoded : IsVarInt (varIntEncode n) n := isVarInt_varIntEncode h
  exact ⟨varIntDecode_of_isVarInt pos rest encoded, lt_pow_length_of_isVarInt encoded,
    varIntEncode_minimal h⟩

/-- Settles O26: V is below 2^64, so VENC appends `VarIntEncode(V)` itself. -/
theorem vencEmitsMinimalVarInt : Obligations.VencEmitsMinimalVarInt := by
  intro s
  have small : s.v.toNat < 2 ^ 64 := s.v.isLt
  exact ⟨varIntEncode s.v.toNat, exec_eq_complete .venc s, isVarInt_varIntEncode small,
    head?_varIntEncode_ne small, length_varIntEncode_le small⟩

/-- VDEC is the decoder at INPOS: it takes the value and the bytes, or the error (R103). -/
theorem exec_vdec_of_decode_ok {s : State} {n k : Nat} (h : varIntDecode s.inPos s.input = .ok (n, k)) :
    exec .vdec s = .next (consume k { s with v := BitVec.ofNat 64 n }) := by
  have decoded : varIntDecodeAt 0 s = .ok (n, k) := h
  simp [exec_eq_complete, attempt, vdec, decoded]

theorem exec_vdec_of_decode_error {s : State} {e : Raise}
    (h : varIntDecode s.inPos s.input = .error e) :
    exec .vdec s = .next (errorEntry e (encode .vdec) s) := by
  have decoded : varIntDecodeAt 0 s = .error e := h
  simp [exec_eq_complete, attempt, vdec, decoded]

/-- Settles O27: the decoder's three outcomes, completed or turned into error entry. -/
theorem vdecDecodesOneVarInt : Obligations.VdecDecodesOneVarInt := by
  refine ⟨?decodes, ?overflows, ?truncated⟩
  case decodes =>
    intro s bs rest n input varInt
    rw [exec_vdec_of_decode_ok (input ▸ varIntDecode_of_isVarInt s.inPos rest varInt)]
    simp [consume, input]
  case overflows =>
    intro s cs rest b input flags small large
    exact exec_vdec_of_decode_error (input ▸ varIntDecode_overflow s.inPos rest flags small large)
  case truncated =>
    intro s flags small
    exact exec_vdec_of_decode_error (varIntDecode_truncated s.inPos flags small)

end Sys2Proof.Machine
end

section
/-! The quantizer (R120-R127): rounded means lie between the samples they average, trimming keeps every
distinct value, the bisection cuts in order, and so the palette's properties (O31) and what QUANT writes (O30). -/

namespace Sys2Proof.Machine

/-! ### The rounded mean of a leaf (R10, R125) -/

/-- An integer below the quotient stays below it rounded: the rounding error is at most one half. -/
theorem le_roundHalfEven {a s c : Nat} (hc : 1 ≤ c) (h : c * a ≤ s) : a ≤ roundHalfEven s c := by
  obtain ⟨-, upper, -⟩ := roundHalfEvenIsNearest s c hc
  by_contra! below
  have gap : c * (roundHalfEven s c + 1) ≤ c * a := Nat.mul_le_mul_left c below
  rw [Nat.mul_succ] at gap
  omega

theorem roundHalfEven_le {b s c : Nat} (hc : 1 ≤ c) (h : s ≤ c * b) : roundHalfEven s c ≤ b := by
  obtain ⟨lower, -, -⟩ := roundHalfEvenIsNearest s c hc
  by_contra! above
  have gap : c * (b + 1) ≤ c * roundHalfEven s c := Nat.mul_le_mul_left c above
  rw [Nat.mul_succ] at gap
  omega

/-- The palette entry of a leaf (R125). -/
def roundedMean (p : List Nat) : Nat := roundHalfEven p.sum p.length

theorem le_roundedMean {p : List Nat} {a : Nat} (hp : p ≠ []) (h : ∀ x ∈ p, a ≤ x) :
    a ≤ roundedMean p :=
  le_roundHalfEven (List.length_pos_of_ne_nil hp) (List.card_nsmul_le_sum p a h)

theorem roundedMean_le {p : List Nat} {b : Nat} (hp : p ≠ []) (h : ∀ x ∈ p, x ≤ b) :
    roundedMean p ≤ b :=
  roundHalfEven_le (List.length_pos_of_ne_nil hp) (List.sum_le_card_nsmul p b h)

theorem exists_le_roundedMean {p : List Nat} (hp : p ≠ []) : ∃ a ∈ p, a ≤ roundedMean p := by
  by_contra! above
  exact absurd (le_roundedMean hp above) (Nat.not_succ_le_self _)

theorem exists_ge_roundedMean {p : List Nat} (hp : p ≠ []) : ∃ b ∈ p, roundedMean p ≤ b := by
  by_contra! below
  obtain ⟨x, hx⟩ := List.exists_mem_of_ne_nil p hp
  have lowered : roundedMean p ≤ roundedMean p - 1 :=
    roundedMean_le hp fun y hy => Nat.le_pred_of_lt (below y hy)
  have positive : x < roundedMean p := below x hx
  omega

/-- Every sample of the later leaf bounds the earlier leaf's mean, so its own mean does too. -/
theorem roundedMean_le_roundedMean {p q : List Nat} (hp : p ≠ []) (hq : q ≠ [])
    (h : ∀ x ∈ p, ∀ y ∈ q, x ≤ y) : roundedMean p ≤ roundedMean q :=
  le_roundedMean hq fun y hy => roundedMean_le hp fun x hx => h x hx y hy

/-! ### Sorting and the distinct samples (R7) -/

@[simp] theorem mem_sortSamples {xs : List Nat} {x : Nat} : x ∈ sortSamples xs ↔ x ∈ xs :=
  List.mem_insertionSort _

theorem sortSamples_pairwise (xs : List Nat) : (sortSamples xs).Pairwise (· ≤ ·) :=
  List.pairwise_insertionSort _ xs

@[simp] theorem mem_distinctSamples {xs : List Nat} {x : Nat} : x ∈ distinctSamples xs ↔ x ∈ xs := by
  rw [distinctSamples, List.mem_dedup, mem_sortSamples]

theorem distinctSamples_pairwise (xs : List Nat) : (distinctSamples xs).Pairwise (· < ·) := by
  have sorted : (distinctSamples xs).Pairwise (· ≤ ·) :=
    (sortSamples_pairwise xs).sublist (List.dedup_sublist _)
  exact (sorted.sortedLE.sortedLT_of_nodup (List.nodup_dedup _)).pairwise

theorem length_distinctSamples (xs : List Nat) : (distinctSamples xs).length = xs.toFinset.card := by
  rw [distinctSamples, ← List.card_toFinset]
  exact congrArg _ (by ext; simp)

/-! ### Trimming (R122) -/

/-- One turn of the loop stops, or drops an end value that is held more than `n / 8` times. -/
theorem trimLoop_succ_cases (n fuel : Nat) (l : List Nat) :
    trimLoop n (fuel + 1) l = l
      ∨ (n < 8 * whiteCount l ∧ trimLoop n (fuel + 1) l = trimLoop n fuel l.dropLast)
      ∨ (n < 8 * blackCount l ∧ trimLoop n (fuel + 1) l = trimLoop n fuel l.tail) := by
  rw [trimLoop]
  split_ifs with whiter white black
  · exact .inl rfl
  · exact .inr (.inl ⟨not_le.mp white, rfl⟩)
  · exact .inl rfl
  · exact .inr (.inr ⟨not_le.mp black, rfl⟩)

theorem trimLoop_sublist (n fuel : Nat) (l : List Nat) : (trimLoop n fuel l).Sublist l := by
  induction fuel generalizing l with
  | zero => exact List.Sublist.refl l
  | succ fuel ih =>
    obtain stop | ⟨-, drop⟩ | ⟨-, drop⟩ := trimLoop_succ_cases n fuel l
    · rw [stop]
    · rw [drop]
      exact (ih _).trans (List.dropLast_sublist l)
    · rw [drop]
      exact (ih _).trans (List.tail_sublist l)

/-- Dropping a last element that the list holds twice keeps every value. -/
theorem mem_dropLast_of_whiteCount {l : List Nat} (h : 2 ≤ whiteCount l) {x : Nat} (hx : x ∈ l) :
    x ∈ l.dropLast := by
  obtain rfl | ⟨l, a, rfl⟩ := List.eq_nil_or_concat' l
  · exact hx
  · rw [whiteCount, List.getLastD_concat, List.count_append, List.count_singleton_self] at h
    have again : a ∈ l := List.count_pos_iff.mp (by omega)
    rw [List.dropLast_concat]
    obtain hx | rfl : x ∈ l ∨ x = a := by simpa using hx
    · exact hx
    · exact again

/-- Dropping a first element that the list holds twice keeps every value. -/
theorem mem_tail_of_blackCount {l : List Nat} (h : 2 ≤ blackCount l) {x : Nat} (hx : x ∈ l) :
    x ∈ l.tail := by
  cases l with
  | nil => exact hx
  | cons a l =>
    rw [blackCount, List.headD_cons, List.count_cons_self] at h
    have again : a ∈ l := List.count_pos_iff.mp (by omega)
    obtain rfl | hx := List.mem_cons.mp hx
    · exact again
    · exact hx

/-- From 8 samples on, trimming lowers the copies of a value but never to none: `n / 8` is at least 1. -/
theorem mem_trimLoop {n : Nat} (hn : 8 ≤ n) (fuel : Nat) {l : List Nat} {x : Nat} (hx : x ∈ l) :
    x ∈ trimLoop n fuel l := by
  induction fuel generalizing l with
  | zero => exact hx
  | succ fuel ih =>
    obtain stop | ⟨white, drop⟩ | ⟨black, drop⟩ := trimLoop_succ_cases n fuel l
    · rwa [stop]
    · rw [drop]
      exact ih (mem_dropLast_of_whiteCount (by omega) hx)
    · rw [drop]
      exact ih (mem_tail_of_blackCount (by omega) hx)

theorem trim_sublist (l : List Nat) (n : Nat) : (trim l n).Sublist l := trimLoop_sublist n _ l

theorem mem_trim {l : List Nat} {n : Nat} (hn : 8 ≤ n) {x : Nat} (hx : x ∈ l) : x ∈ trim l n :=
  mem_trimLoop hn _ hx

/-! ### The bisection (R124) -/

@[simp] theorem flatten_halves (p : List Nat) : (halves p).flatten = p := by
  simp [halves]

theorem le_length_of_mem_halves {k : Nat} {p q : List Nat} (hp : 2 * k ≤ p.length) (hq : q ∈ halves p) :
    k ≤ q.length := by
  obtain rfl | rfl : q = p.take (p.length / 2) ∨ q = p.drop (p.length / 2) := by simpa [halves] using hq
  · rw [List.length_take]
    omega
  · rw [List.length_drop]
    omega

theorem flatten_flatMap_halves (parts : List (List Nat)) :
    (parts.flatMap halves).flatten = parts.flatten := by
  induction parts with
  | nil => rfl
  | cons p parts ih => simp [ih]

theorem flatten_bisectLevels (depth : Nat) (parts : List (List Nat)) :
    (bisectLevels depth parts).flatten = parts.flatten := by
  induction depth generalizing parts with
  | zero => rfl
  | succ depth ih =>
    rw [bisectLevels, ih, flatten_flatMap_halves]

theorem length_bisectLevels (depth : Nat) (parts : List (List Nat)) :
    (bisectLevels depth parts).length = parts.length * 2 ^ depth := by
  induction depth generalizing parts with
  | zero => simp [bisectLevels]
  | succ depth ih =>
    have doubled : (parts.flatMap halves).length = parts.length * 2 := by
      simp [List.length_flatMap, halves]
    rw [bisectLevels, ih, doubled, pow_succ']
    ring

/-- A list of `2 ^ depth` samples or more has a sample for every leaf. -/
theorem ne_nil_of_mem_bisectLevels {depth : Nat} {parts : List (List Nat)}
    (long : ∀ p ∈ parts, 2 ^ depth ≤ p.length) : ∀ q ∈ bisectLevels depth parts, q ≠ [] := by
  induction depth generalizing parts with
  | zero => exact fun q hq => List.ne_nil_of_length_pos (long q hq)
  | succ depth ih =>
    refine ih fun q hq => ?_
    obtain ⟨p, hp, hq⟩ := List.mem_flatMap.mp hq
    have enough : 2 * 2 ^ depth ≤ p.length := pow_succ' 2 depth ▸ long p hp
    exact le_length_of_mem_halves enough hq

@[simp] theorem flatten_bisect (l : List Nat) : (bisect l).flatten = l := by
  simp [bisect, flatten_bisectLevels]

@[simp] theorem length_bisect (l : List Nat) : (bisect l).length = 8 := by
  exact length_bisectLevels 3 [l]

theorem ne_nil_of_mem_bisect {l : List Nat} (long : 8 ≤ l.length) : ∀ p ∈ bisect l, p ≠ [] :=
  ne_nil_of_mem_bisectLevels (depth := 3) (by simpa using long)

/-- The leaves of a sorted list follow each other: no sample of a leaf exceeds one of a later leaf. -/
theorem bisect_pairwise {l : List Nat} (sorted : l.Pairwise (· ≤ ·)) :
    (bisect l).Pairwise fun p q => ∀ x ∈ p, ∀ y ∈ q, x ≤ y := by
  rw [← flatten_bisect l, List.pairwise_flatten] at sorted
  exact sorted.2

/-! ### The two cases of `QuantizeFn` (R120, R121) -/

/-- The leaves that `QuantizeFn` takes the means of (R122, R124). -/
def quantLeaves (samples : List Nat) : List (List Nat) :=
  bisect (trim (sortSamples samples) samples.length)

section ManyDistinct

variable {samples : List Nat} (many : 8 ≤ samples.toFinset.card)
include many

theorem le_length_trim_of_many : 8 ≤ (trim (sortSamples samples) samples.length).length := by
  have enough : 8 ≤ samples.length := many.trans samples.toFinset_card_le
  have kept : samples.toFinset ⊆ (trim (sortSamples samples) samples.length).toFinset := fun x hx => by
    rw [List.mem_toFinset] at hx ⊢
    exact mem_trim enough (mem_sortSamples.mpr hx)
  exact (many.trans (Finset.card_le_card kept)).trans (List.toFinset_card_le _)

theorem ne_nil_of_mem_quantLeaves : ∀ p ∈ quantLeaves samples, p ≠ [] :=
  ne_nil_of_mem_bisect (le_length_trim_of_many many)

theorem quantizeFn_of_many : quantizeFn samples = (quantLeaves samples).map roundedMean := by
  have long : ¬ (distinctSamples samples).length ≤ 7 := by
    rw [length_distinctSamples]
    omega
  rw [quantizeFn, if_neg long, leafValues, List.filter_eq_self.mpr]
  · rfl
  · exact fun p hp => decide_eq_true (List.length_pos_of_ne_nil (ne_nil_of_mem_quantLeaves many p hp))

theorem quantizeFn_pairwise_of_many : (quantizeFn samples).Pairwise (· ≤ ·) := by
  have sorted : (trim (sortSamples samples) samples.length).Pairwise (· ≤ ·) :=
    (sortSamples_pairwise samples).sublist (trim_sublist _ _)
  rw [quantizeFn_of_many many, List.pairwise_map]
  refine (bisect_pairwise sorted).imp_of_mem fun hp hq ordered => ?_
  exact roundedMean_le_roundedMean (ne_nil_of_mem_quantLeaves many _ hp)
    (ne_nil_of_mem_quantLeaves many _ hq) ordered

end ManyDistinct

theorem mem_of_mem_quantLeaf {samples p : List Nat} (hp : p ∈ quantLeaves samples) {x : Nat}
    (hx : x ∈ p) : x ∈ samples := by
  have inTrimmed : x ∈ (quantLeaves samples).flatten := List.mem_flatten.mpr ⟨p, hp, hx⟩
  rw [quantLeaves, flatten_bisect] at inTrimmed
  exact mem_sortSamples.mp ((trim_sublist _ _).mem inTrimmed)

theorem quantizeFn_of_few {samples : List Nat} (few : samples.toFinset.card ≤ 7) :
    quantizeFn samples = distinctSamples samples := by
  rw [quantizeFn, if_pos (by rwa [length_distinctSamples])]

/-- Every palette entry is a sample or the mean of a leaf of samples. -/
theorem quantizeFn_between {samples : List Nat} {v : Nat} (hv : v ∈ quantizeFn samples) :
    (∃ a ∈ samples, a ≤ v) ∧ ∃ b ∈ samples, v ≤ b := by
  obtain few | many : samples.toFinset.card ≤ 7 ∨ 8 ≤ samples.toFinset.card := by omega
  · rw [quantizeFn_of_few few, mem_distinctSamples] at hv
    exact ⟨⟨v, hv, le_rfl⟩, v, hv, le_rfl⟩
  · rw [quantizeFn_of_many many] at hv
    obtain ⟨p, hp, rfl⟩ := List.mem_map.mp hv
    have nonempty : p ≠ [] := ne_nil_of_mem_quantLeaves many p hp
    obtain ⟨a, ha, lower⟩ := exists_le_roundedMean nonempty
    obtain ⟨b, hb, upper⟩ := exists_ge_roundedMean nonempty
    exact ⟨⟨a, mem_of_mem_quantLeaf hp ha, lower⟩, b, mem_of_mem_quantLeaf hp hb, upper⟩

/-- Settles O31: with at most 7 distinct samples the palette is the distinct samples; with 8 or more, trimming
keeps every value, so no leaf of the bisection is empty and the palette is their 8 rounded means. -/
theorem quantizedPaletteProperties : Obligations.QuantizedPaletteProperties := by
  intro samples nonempty
  obtain few | many : samples.toFinset.card ≤ 7 ∨ 8 ≤ samples.toFinset.card := by omega
  · have size : (quantizeFn samples).length = samples.toFinset.card := by
      rw [quantizeFn_of_few few, length_distinctSamples]
    have increasing : (quantizeFn samples).Pairwise (· < ·) := by
      rw [quantizeFn_of_few few]
      exact distinctSamples_pairwise samples
    have positive : 0 < samples.toFinset.card :=
      Finset.card_pos.mpr ((List.toFinset_nonempty_iff samples).mpr nonempty)
    refine ⟨by omega, by omega, increasing.imp le_of_lt, fun v => quantizeFn_between,
      fun _ => ⟨increasing, fun v => ?_⟩, fun many => by omega⟩
    rw [quantizeFn_of_few few, mem_distinctSamples]
  · have size : (quantizeFn samples).length = 8 := by
      rw [quantizeFn_of_many many, List.length_map, quantLeaves, length_bisect]
    exact ⟨by omega, by omega, quantizeFn_pairwise_of_many many, fun v => quantizeFn_between,
      fun few => by omega, fun _ => ⟨size, quantizeFn_of_many many⟩⟩

/-! ### QUANT (R126) -/

/-- The palette of bytes fits bytes: no entry exceeds the greatest sample. -/
theorem quantizeFn_quantSamples_lt {s : State} {v : Nat} (hv : v ∈ quantizeFn (quantSamples s)) :
    v < 256 := by
  obtain ⟨-, b, hb, upper⟩ := quantizeFn_between hv
  obtain ⟨byte, -, rfl⟩ := List.mem_map.mp hb
  exact upper.trans_lt byte.isLt

/-- Settles O30: the three branches of QUANT's pseudocode, and the register file holds a palette of bytes
unchanged. -/
theorem quantWritesThePalette : Obligations.QuantWritesThePalette := by
  refine ⟨?palette, ?zeroCount, ?truncated⟩
  case palette =>
    intro s nonzero enough
    have enough : ¬ inCnt s < s.cnt.toNat := Nat.not_lt.mpr enough
    refine ⟨fileOf (quantizeFn (quantSamples s)), ?_, fun i =>
      toNat_getElem_fileOf _ (fun _ => quantizeFn_quantSamples_lt) i i.isLt⟩
    rw [exec_eq_complete, attempt, quant, if_neg nonzero, if_neg enough]
    rfl
  case zeroCount =>
    intro s zero
    rw [exec_eq_complete, attempt, quant, if_pos zero, illegal, complete_error]
  case truncated =>
    intro s nonzero short
    have short : inCnt s < s.cnt.toNat := short
    rw [exec_eq_complete, attempt, quant, if_neg nonzero, if_pos short, complete_error, inEnd, inCnt]

end Sys2Proof.Machine
end

section
/-! The rebalancer (R140-R146): closed forms of the inner loops of the two sweeps, the sweeps' effect on buckets and
low bits, what a push keeps, and so what RDIST (O35) and RPUSH (O37) write and the properties of the push (O38). -/

namespace Sys2Proof.Machine

@[simp] theorem bucket_eq_div (v : Nat) : bucket v = v / 8 := Nat.shiftRight_eq_div_pow v 3

/-- Neighbours compared by bucket compare all entries: the order of the buckets is transitive. -/
theorem pairwise_bucket_of_isChain {l : List Nat} (h : l.IsChain fun a b => a / 8 < b / 8) :
    l.Pairwise fun a b => a / 8 < b / 8 := by
  have buckets : (l.map (· / 8)).IsChain (· < ·) := (List.isChain_map (· / 8)).mpr h
  exact List.pairwise_map.mp buckets.pairwise

/-! ### The inner loops of the sweeps (R140, R141) -/

/-- Turn by turn the forward loop adds the buckets still missing to the bucket after `prev`'s, or to 31. -/
theorem raiseAbove_eq {fuel v : Nat} (prev : Nat) (enough : 31 ≤ v / 8 + fuel) :
    raiseAbove fuel prev v = v + 8 * (min (prev / 8 + 1) 31 - v / 8) := by
  induction fuel generalizing v with
  | zero =>
    rw [raiseAbove]
    omega
  | succ fuel ih =>
    simp only [raiseAbove, bucket_eq_div, Config.bucketMax, Config.bucketStep]
    split
    · rw [ih (by omega)]
      omega
    · omega

/-- Turn by turn the backward loop takes off the buckets above the one before `next`'s; `next` is not in
bucket 0, so it never takes off more than `v` has. -/
theorem lowerBelow_eq {fuel next v : Nat} (positive : 8 ≤ next) (enough : v / 8 < next / 8 + fuel) :
    lowerBelow fuel next v = v - 8 * (v / 8 + 1 - next / 8) := by
  induction fuel generalizing v with
  | zero =>
    rw [lowerBelow]
    omega
  | succ fuel ih =>
    simp only [lowerBelow, bucket_eq_div, Config.bucketStep]
    split
    · rw [ih (by omega)]
      omega
    · omega

/-! ### The sweeps -/

/-- The entries are bytes, and the one at position `i` is in bucket `k + i` or above: below each entry there
is a bucket for every entry before it. -/
def BucketFloor : Nat → List Nat → Prop
  | _, [] => True
  | k, v :: vs => k ≤ v / 8 ∧ v < 256 ∧ BucketFloor (k + 1) vs

theorem BucketFloor.lt {k : Nat} {l : List Nat} (h : BucketFloor k l) : ∀ x ∈ l, x < 256 := by
  induction l generalizing k with
  | nil => simp
  | cons v vs ih =>
    obtain ⟨-, byte, rest⟩ := h
    exact List.forall_mem_cons.mpr ⟨byte, ih rest⟩

theorem forwardFrom_cons {prev v : Nat} (vs : List Nat) :
    forwardFrom prev (v :: vs) = (v + 8 * (min (prev / 8 + 1) 31 - v / 8)) ::
      forwardFrom (v + 8 * (min (prev / 8 + 1) 31 - v / 8)) vs := by
  simp only [forwardFrom]
  rw [raiseAbove_eq prev (show 31 ≤ v / 8 + 32 by omega)]

theorem forwardFrom_map_mod (prev : Nat) (vs : List Nat) :
    (forwardFrom prev vs).map (· % 8) = vs.map (· % 8) := by
  induction vs generalizing prev with
  | nil => rfl
  | cons v vs ih => rw [forwardFrom_cons, List.map_cons, List.map_cons, ih, Nat.add_mul_mod_self_left]

theorem forwardSweep_map_mod (p : List Nat) : (forwardSweep p).map (· % 8) = p.map (· % 8) := by
  cases p with
  | nil => rfl
  | cons v vs => rw [forwardSweep, List.map_cons, List.map_cons, forwardFrom_map_mod]

/-- Each entry goes at least one bucket above the entry before it, up to bucket 31. -/
theorem bucketFloor_forwardFrom {k prev : Nat} {vs : List Nat} (floor : k ≤ prev / 8)
    (room : k + vs.length ≤ 31) (bytes : ∀ x ∈ vs, x < 256) :
    BucketFloor (k + 1) (forwardFrom prev vs) := by
  induction vs generalizing k prev with
  | nil => trivial
  | cons v vs ih =>
    obtain ⟨byte, bytes⟩ := List.forall_mem_cons.mp bytes
    rw [List.length_cons] at room
    rw [forwardFrom_cons]
    exact ⟨by omega, by omega, ih (by omega) (by omega) bytes⟩

theorem bucketFloor_forwardSweep {p : List Nat} (short : p.length ≤ 32) (bytes : ∀ x ∈ p, x < 256) :
    BucketFloor 0 (forwardSweep p) := by
  cases p with
  | nil => trivial
  | cons v vs =>
    obtain ⟨byte, bytes⟩ := List.forall_mem_cons.mp bytes
    rw [List.length_cons] at short
    exact ⟨Nat.zero_le _, byte, bucketFloor_forwardFrom (Nat.zero_le _) (by omega) bytes⟩

/-- An entry is lowered below a neighbour that has itself been swept. -/
theorem backwardSweep_cons_of_cons {v next : Nat} {vs rest : List Nat}
    (swept : backwardSweep vs = next :: rest) (byte : v < 256) (positive : 8 ≤ next) :
    backwardSweep (v :: vs) = (v - 8 * (v / 8 + 1 - next / 8)) :: next :: rest := by
  rw [backwardSweep, swept]
  exact congrArg (· :: next :: rest) (lowerBelow_eq positive (show v / 8 < next / 8 + 32 by omega))

theorem backwardSweep_cons_of_nil {v : Nat} {vs : List Nat} (swept : backwardSweep vs = []) :
    backwardSweep (v :: vs) = [v] := by
  rw [backwardSweep, swept]

/-- What the backward sweep keeps and reaches.  The floor keeps each lowered entry's neighbour out of bucket 0,
so the entry has a bucket to go to. -/
theorem backwardSweep_spec {k : Nat} {l : List Nat} (floor : BucketFloor k l) :
    BucketFloor k (backwardSweep l) ∧ (backwardSweep l).map (· % 8) = l.map (· % 8)
      ∧ (backwardSweep l).IsChain fun a b => a / 8 < b / 8 := by
  induction l generalizing k with
  | nil => exact ⟨trivial, rfl, .nil⟩
  | cons v vs ih =>
    obtain ⟨low, byte, floor⟩ := floor
    obtain ⟨sweptFloor, lowBits, increasing⟩ := ih floor
    cases swept : backwardSweep vs with
    | nil =>
      rw [swept] at lowBits
      rw [backwardSweep_cons_of_nil swept]
      exact ⟨⟨low, byte, trivial⟩, congrArg (v % 8 :: ·) lowBits, .singleton v⟩
    | cons next rest =>
      rw [swept] at sweptFloor lowBits increasing
      have above : k + 1 ≤ next / 8 := sweptFloor.1
      rw [backwardSweep_cons_of_cons swept byte (by omega)]
      refine ⟨⟨by omega, by omega, sweptFloor⟩, ?_, ?_⟩
      · rw [List.map_cons, lowBits, List.map_cons]
        exact congrArg (· :: vs.map (· % 8)) (by omega)
      · exact List.isChain_cons_cons.mpr ⟨by omega, increasing⟩

/-! ### `DistinctFn` (R142) -/

section Distinct

variable {p : List Nat} (short : p.length ≤ 32) (bytes : ∀ x ∈ p, x < 256)
include short bytes

theorem distinctFn_map_mod : (distinctFn p).map (· % 8) = p.map (· % 8) := by
  obtain ⟨-, lowBits, -⟩ := backwardSweep_spec (bucketFloor_forwardSweep short bytes)
  exact lowBits.trans (forwardSweep_map_mod p)

theorem length_distinctFn : (distinctFn p).length = p.length := by
  simpa using congrArg List.length (distinctFn_map_mod short bytes)

theorem distinctFn_lt : ∀ x ∈ distinctFn p, x < 256 := by
  obtain ⟨floor, -, -⟩ := backwardSweep_spec (bucketFloor_forwardSweep short bytes)
  exact floor.lt

theorem distinctFn_pairwise : (distinctFn p).Pairwise fun a b => a / 8 < b / 8 := by
  obtain ⟨-, -, increasing⟩ := backwardSweep_spec (bucketFloor_forwardSweep short bytes)
  exact pairwise_bucket_of_isChain increasing

end Distinct

/-! ### The push of one entry (R143) -/

/-- What every allowed step of one bucket keeps, the push of an entry keeps. -/
theorem pushEntry_induction {P : Nat → Prop} {brighter : Option Nat}
    (step : ∀ v, P v → pushAllowed brighter (min (v + 8) 255) = true → P (min (v + 8) 255))
    (budget : Nat) {v : Nat} (start : P v) : P (pushEntry budget brighter v) := by
  induction budget generalizing v with
  | zero => exact start
  | succ budget ih =>
    simp only [pushEntry]
    split_ifs with capped allowed
    · exact start
    · exact ih (step v start allowed)
    · exact start

theorem pushEntry_between {v : Nat} (budget : Nat) (brighter : Option Nat) (byte : v < 256) :
    v ≤ pushEntry budget brighter v ∧ pushEntry budget brighter v ≤ 255 := by
  refine pushEntry_induction (P := fun w => v ≤ w ∧ w ≤ 255) ?_ budget ⟨le_rfl, by omega⟩
  intro w between _
  omega

theorem pushEntry_bucket_lt {q v : Nat} (budget : Nat) (below : v / 8 < q / 8) :
    pushEntry budget (some q) v / 8 < q / 8 := by
  refine pushEntry_induction (P := fun w => w / 8 < q / 8) ?_ budget below
  intro w _ allowed
  simpa [pushAllowed] using allowed

theorem le_nextBudget (budget before after : Nat) (darker : List Nat) :
    budget ≤ nextBudget budget before after darker := by
  rw [nextBudget]
  split
  · exact Nat.le_succ budget
  · exact le_rfl

/-! ### The sweep of the push, from the brightest entry to the darkest (R143, R144) -/

/-- Entry by entry the sweep lowers nothing and stays within bytes, whatever the order of the buckets. -/
theorem pushDown_forall₂ {l : List Nat} (budget : Nat) (brighter : Option Nat)
    (bytes : ∀ x ∈ l, x < 256) :
    List.Forall₂ (fun v w => v ≤ w ∧ w ≤ 255) l (pushDown budget brighter l) := by
  induction l generalizing budget brighter with
  | nil => exact .nil
  | cons v darker ih =>
    obtain ⟨byte, bytes⟩ := List.forall_mem_cons.mp bytes
    exact .cons (pushEntry_between budget brighter byte) (ih _ _ bytes)

/-- Below a brighter neighbour, buckets that fall go on falling: an entry stays below its pushed neighbour,
and the next darker entry is below the entry as it was before its push. -/
theorem pushDown_isChain_cons {q : Nat} {l : List Nat} (budget : Nat) (bytes : ∀ x ∈ l, x < 256)
    (falling : (q :: l).IsChain fun a b => b / 8 < a / 8) :
    (q :: pushDown budget (some q) l).IsChain fun a b => b / 8 < a / 8 := by
  induction l generalizing budget q with
  | nil => exact .singleton q
  | cons v darker ih =>
    obtain ⟨byte, bytes⟩ := List.forall_mem_cons.mp bytes
    obtain ⟨below, falling⟩ := List.isChain_cons_cons.mp falling
    obtain ⟨raised, -⟩ := pushEntry_between budget (some q) byte
    have falling : (pushEntry budget (some q) v :: darker).IsChain fun a b => b / 8 < a / 8 :=
      falling.imp_head fun darkerBelow => darkerBelow.trans_le (Nat.div_le_div_right raised)
    exact List.isChain_cons_cons.mpr ⟨pushEntry_bucket_lt budget below, ih _ bytes falling⟩

theorem pushDown_none_isChain {l : List Nat} (budget : Nat) (bytes : ∀ x ∈ l, x < 256)
    (falling : l.IsChain fun a b => b / 8 < a / 8) :
    (pushDown budget none l).IsChain fun a b => b / 8 < a / 8 := by
  cases l with
  | nil => exact .nil
  | cons v darker =>
    obtain ⟨byte, bytes⟩ := List.forall_mem_cons.mp bytes
    obtain ⟨raised, -⟩ := pushEntry_between budget none byte
    exact pushDown_isChain_cons _ bytes
      (falling.imp_head fun darkerBelow => darkerBelow.trans_le (Nat.div_le_div_right raised))

/-! ### `PushFn` (R144) -/

section Push

variable {d : List Nat} (bytes : ∀ x ∈ d, x < 256)
include bytes

theorem pushFn_forall₂ : List.Forall₂ (fun v w => v ≤ w ∧ w ≤ 255) d (pushFn d) := by
  have swept := pushDown_forall₂ Config.pushBudget0 none (l := d.reverse)
    fun x hx => bytes x (List.mem_reverse.mp hx)
  rwa [← List.forall₂_reverse_iff, pushFn, List.reverse_reverse]

theorem pushFn_le : ∀ x ∈ pushFn d, x ≤ 255 := by
  intro x hx
  obtain ⟨i, inRange, rfl⟩ := List.mem_iff_getElem.mp hx
  obtain ⟨sameLength, entries⟩ := List.forall₂_iff_get.mp (pushFn_forall₂ bytes)
  exact (entries i (sameLength ▸ inRange) inRange).2

theorem pushFn_pairwise (increasing : d.Pairwise fun a b => a / 8 < b / 8) :
    (pushFn d).Pairwise fun a b => a / 8 < b / 8 := by
  have falling : d.reverse.IsChain fun a b => b / 8 < a / 8 := List.isChain_reverse.mpr increasing.isChain
  refine pairwise_bucket_of_isChain (List.isChain_reverse.mpr ?_)
  exact pushDown_none_isChain _ (fun x hx => bytes x (List.mem_reverse.mp hx)) falling

end Push

/-- Settles O38: entry by entry a push raises within 255, an entry is never pushed into the bucket of its
brighter neighbour, and the budget only counts up. -/
theorem pushKeepsBucketsIncreasing : Obligations.PushKeepsBucketsIncreasing := by
  refine ⟨fun d _ bytes increasing => ?_, le_nextBudget⟩
  have entries := pushFn_forall₂ bytes
  exact ⟨entries.length_eq.symm, entries.imp fun _ _ raised => raised.1, pushFn_le bytes,
    pushFn_pairwise bytes increasing⟩

/-! ### RDIST and RPUSH (R145, R146) -/

/-- A palette as long as another writes that one's length register. -/
theorem lenOf_eq_of_length {p : List Nat} {len : BitVec 4} (h : p.length = len.toNat) : lenOf p = len := by
  rw [lenOf, h, BitVec.ofNat_toNat, BitVec.setWidth_eq]

theorem length_paletteOf_of_le {len : BitVec 4} (file : Vector Byte 8) (h : len.toNat ≤ 8) :
    (paletteOf file len).length = len.toNat := by
  rw [length_paletteOf, Nat.min_eq_left h]

/-- A palette copied to another register file: its entries, and 0 past its end. -/
theorem getElem_fileOf_paletteOf (file : Vector Byte 8) {len : BitVec 4} (h : len.toNat ≤ 8) (i : Fin 8) :
    (fileOf (paletteOf file len))[i] = if i.val < len.toNat then file[i] else 0 := by
  have entry : (fileOf (paletteOf file len))[i] = BitVec.ofNat 8 ((paletteOf file len).getD i.val 0) :=
    getElem_fileOf _ i i.isLt
  have size : (paletteOf file len).length = len.toNat := length_paletteOf_of_le file h
  rw [entry]
  split
  · next inside =>
    rw [List.getD_eq_getElem _ _ (size ▸ inside), getElem_paletteOf, BitVec.ofNat_toNat, BitVec.setWidth_eq]
    rfl
  · next outside =>
    rw [List.getD_eq_default _ _ (size ▸ Nat.not_lt.mp outside)]
    rfl

theorem exec_rdist_of_le {s : State} (h : s.qLen.toNat ≤ 8) :
    exec .rdist s = .next { s with dPal := fileOf (distinctFn (paletteOf s.qPal s.qLen)), dLen := s.qLen } := by
  have size : (paletteOf s.qPal s.qLen).length = s.qLen.toNat := length_paletteOf_of_le s.qPal h
  have kept : (distinctFn (paletteOf s.qPal s.qLen)).length = s.qLen.toNat :=
    (length_distinctFn (by omega) fun _ => lt_of_mem_paletteOf).trans size
  simp [exec_eq_complete, attempt, rdist, (tooLong_eq_false_iff _).mpr h, setDPal, lenOf_eq_of_length kept]

theorem exec_rpush_of_le {s : State} (en : Bool) (h : s.dLen.toNat ≤ 8) :
    exec (.rpush en) s = .next { s with
      pPal := fileOf (if en then pushFn (paletteOf s.dPal s.dLen) else paletteOf s.dPal s.dLen)
      ppLen := s.dLen } := by
  have size : (paletteOf s.dPal s.dLen).length = s.dLen.toNat := length_paletteOf_of_le s.dPal h
  have kept : (pushFn (paletteOf s.dPal s.dLen)).length = s.dLen.toNat :=
    (pushFn_forall₂ fun _ => lt_of_mem_paletteOf).length_eq.symm.trans size
  have register : lenOf (if en then pushFn (paletteOf s.dPal s.dLen) else paletteOf s.dPal s.dLen) = s.dLen := by
    cases en with
    | false => exact lenOf_eq_of_length size
    | true => exact lenOf_eq_of_length kept
  simp [exec_eq_complete, attempt, rpush, (tooLong_eq_false_iff _).mpr h, setPPal, register]

/-- Settles O35: a palette register has at most 8 entries, fewer than there are buckets, so the forward sweep
leaves room below every entry and the backward sweep separates the buckets. -/
theorem rdistMakesBucketsDistinct : Obligations.RdistMakesBucketsDistinct := by
  refine ⟨?writes, ?illegal⟩
  case writes =>
    intro s h
    have size : (paletteOf s.qPal s.qLen).length = s.qLen.toNat := length_paletteOf_of_le s.qPal h
    have short : (paletteOf s.qPal s.qLen).length ≤ 32 := by omega
    have bytes : ∀ x ∈ paletteOf s.qPal s.qLen, x < 256 := fun _ => lt_of_mem_paletteOf
    exact ⟨_, _, exec_rdist_of_le h, rfl,
      fun i => toNat_getElem_fileOf _ (distinctFn_lt short bytes) i i.isLt,
      (length_distinctFn short bytes).trans size, distinctFn_pairwise short bytes,
      distinctFn_lt short bytes, distinctFn_map_mod short bytes⟩
  case illegal =>
    intro s h
    rw [exec_eq_complete, attempt, rdist, if_pos ((tooLong_iff _).mpr h), illegal, complete_error]

/-- Settles O37: the register file holds the copied palette, and the pushed one unchanged, since a push keeps
bytes bytes. -/
theorem rpushCopiesOrPushes : Obligations.RpushCopiesOrPushes := by
  refine ⟨?copies, ?pushes, ?illegal⟩
  case copies =>
    intro s h
    exact ⟨_, exec_rpush_of_le false h, getElem_fileOf_paletteOf s.dPal h⟩
  case pushes =>
    intro s h
    have bytes : ∀ x ∈ pushFn (paletteOf s.dPal s.dLen), x < 256 := fun x hx =>
      Nat.lt_succ_of_le (pushFn_le (fun _ => lt_of_mem_paletteOf) x hx)
    exact ⟨_, exec_rpush_of_le true h, fun i => toNat_getElem_fileOf _ bytes i i.isLt⟩
  case illegal =>
    intro en s h
    rw [exec_eq_complete, attempt, rpush, if_pos ((tooLong_iff _).mpr h), illegal, complete_error]

end Sys2Proof.Machine
end

section
/-! The colour indexer (R160-R165): the scan of INEAR stands at the lowest nearest entry of what it has read, the least
position that the table search finds, and the outcomes of each command. -/

namespace Sys2Proof.Machine

/-! ### The scan for the nearest entry (R160) -/

theorem absDiff_eq_natAbs (a b : Nat) : absDiff a b = ((a : Int) - b).natAbs := by
  rw [absDiff]
  omega

/-- No entry of the palette is nearer to the sample than the one at `best`, and every earlier one is farther. -/
structure IsLowestNearest (sample : Nat) (palette : List Nat) (best : Nat) : Prop where
  lt_length : best < palette.length
  nearest : ∀ k (h : k < palette.length), absDiff sample palette[best] ≤ absDiff sample palette[k]
  lowest : ∀ k (h : k < best), absDiff sample palette[best] < absDiff sample palette[k]

namespace IsLowestNearest

theorem singleton (sample p : Nat) : IsLowestNearest sample [p] 0 where
  lt_length := Nat.zero_lt_one
  nearest k h := by
    obtain rfl : k = 0 := Nat.lt_one_iff.mp h
    exact le_rfl
  lowest k h := absurd h (Nat.not_lt_zero k)

variable {sample best p : Nat} {seen : List Nat} (best_seen : IsLowestNearest sample seen best)
include best_seen

/-- A strictly nearer next entry becomes the lowest nearest one. -/
theorem concat_of_lt (nearer : absDiff sample p < absDiff sample (seen[best]'best_seen.lt_length)) :
    IsLowestNearest sample (seen ++ [p]) seen.length where
  lt_length := by simp
  nearest k h := by
    rw [List.getElem_concat_length rfl]
    obtain inside | rfl : k < seen.length ∨ k = seen.length := by
      rw [List.length_append, List.length_singleton] at h
      omega
    · rw [List.getElem_append_left inside]
      exact nearer.le.trans (best_seen.nearest k inside)
    · rw [List.getElem_concat_length rfl]
  lowest k h := by
    rw [List.getElem_concat_length rfl, List.getElem_append_left h]
    exact nearer.trans_le (best_seen.nearest k h)

/-- A next entry that is not strictly nearer leaves the lowest nearest one as it is: ties go to the lower index. -/
theorem concat_of_le (farther : absDiff sample (seen[best]'best_seen.lt_length) ≤ absDiff sample p) :
    IsLowestNearest sample (seen ++ [p]) best where
  lt_length := by
    rw [List.length_append]
    exact Nat.lt_add_right _ best_seen.lt_length
  nearest k h := by
    rw [List.getElem_append_left best_seen.lt_length]
    obtain inside | rfl : k < seen.length ∨ k = seen.length := by
      rw [List.length_append, List.length_singleton] at h
      omega
    · rw [List.getElem_append_left inside]
      exact best_seen.nearest k inside
    · rwa [List.getElem_concat_length rfl]
  lowest k h := by
    rw [List.getElem_append_left best_seen.lt_length, List.getElem_append_left (h.trans best_seen.lt_length)]
    exact best_seen.lowest k h

end IsLowestNearest

/-- The invariant of the scan: after the entries `seen` it stands at the lowest nearest of them, so it ends at the
lowest nearest of all. -/
theorem isLowestNearest_nearestScan {sample best : Nat} {seen : List Nat} (rest : List Nat)
    (best_seen : IsLowestNearest sample seen best) :
    IsLowestNearest sample (seen ++ rest)
      (nearestScan sample best (absDiff sample (seen[best]'best_seen.lt_length)) seen.length rest) := by
  induction rest generalizing seen best with
  | nil => simpa [nearestScan] using best_seen
  | cons p rest ih =>
    rw [nearestScan, List.append_cons]
    split
    · next nearer => simpa using ih (best_seen.concat_of_lt nearer)
    · next farther =>
      simpa [best_seen.lt_length] using ih (best_seen.concat_of_le (Nat.le_of_not_lt farther))

theorem nearestFn_spec (sample : Nat) {palette : List Nat} (nonempty : palette ≠ []) :
    ∃ best, nearestFn sample palette = best + 1 ∧ IsLowestNearest sample palette best := by
  obtain ⟨p, rest, rfl⟩ := List.exists_cons_of_ne_nil nonempty
  exact ⟨_, rfl, isLowestNearest_nearestScan rest (.singleton sample p)⟩

/-! ### INEAR (R161) -/

theorem exec_inear_of_le {s : State} (pos : s.dLen ≠ 0) (short : s.dLen.toNat ≤ 8) :
    exec .inear s = .next { s with
      idx := BitVec.ofNat 4 (nearestFn s.sample.toNat (paletteOf s.dPal s.dLen)) } := by
  have legal : ¬ (s.dLen = 0 ∨ tooLong s.dLen) :=
    not_or.mpr ⟨pos, by simpa [tooLong_eq_false_iff] using short⟩
  rw [exec_eq_complete, attempt, inear, if_neg legal, complete_ok, setIdx]

theorem exec_inear_of_illegal {s : State} (h : s.dLen = 0 ∨ 8 < s.dLen.toNat) :
    exec .inear s = .next (errorEntry ⟨.illegalCommand, s.inPos⟩ (encode .inear) s) := by
  rw [exec_eq_complete, attempt, inear, if_pos (h.imp_right (tooLong_iff _).mpr), illegal, complete_error]

/-- Settles O41: DPAL's palette has DLEN entries, at least one, and the scan ends at the lowest nearest of them. -/
theorem inearFindsLowestNearest : Obligations.InearFindsLowestNearest := by
  refine ⟨fun s pos short => ?_, fun s => exec_inear_of_illegal⟩
  have size : (paletteOf s.dPal s.dLen).length = s.dLen.toNat := length_paletteOf_of_le s.dPal short
  have nonempty : paletteOf s.dPal s.dLen ≠ [] := by
    rw [← List.length_pos_iff, size]
    exact BitVec.toNat_pos_of_ne_zero pos
  obtain ⟨best, answer, inside, nearest, lowest⟩ := nearestFn_spec s.sample.toNat nonempty
  simp only [size, getElem_paletteOf, absDiff_eq_natAbs] at inside nearest lowest
  refine ⟨⟨best, by omega⟩, inside, ?_, fun k hk => ⟨nearest k hk, fun before => lowest k before⟩⟩
  rw [exec_inear_of_le pos short, answer]

/-! ### The entry of COLOR (R162) -/

/-- The three channels of an opaque colour stand next to each other, above the marker. -/
theorem normColor_of_opaque {c : BitVec 25} (h : c.getLsbD 24 = false) :
    normColor c = c.extractLsb' 0 24 ++ (0xFF : Byte) := by
  have redGreen : c.extractLsb' 16 8 ++ c.extractLsb' 8 8 = c.extractLsb' 8 16 :=
    BitVec.extractLsb'_append_extractLsb'_eq_extractLsb' rfl
  have channels : c.extractLsb' 8 16 ++ c.extractLsb' 0 8 = c.extractLsb' 0 24 :=
    BitVec.extractLsb'_append_extractLsb'_eq_extractLsb' rfl
  rw [normColor, h, if_neg Bool.false_ne_true, packEntry, redGreen, channels]

theorem toNat_lt_of_opaque {c : BitVec 25} (h : c.getLsbD 24 = false) : c.toNat < 2 ^ 24 :=
  BitVec.toNat_lt_of_msb_false (c.msb_eq_getLsbD_last.trans h)

/-- Settles O42: the 24 bits of an opaque COLOR are its whole value, and the marker takes the 8 bits below. -/
theorem normColorLayout : Obligations.NormColorLayout := by
  intro c
  refine ⟨fun transparent => if_pos transparent, fun isOpaque => ?_⟩
  have value : (c.extractLsb' 0 24).toNat = c.toNat := by
    rw [BitVec.extractLsb'_toNat, Nat.shiftRight_zero, Nat.mod_eq_of_lt (toNat_lt_of_opaque isOpaque)]
  have marker : (0xFF : Byte).toNat = 255 := rfl
  rw [normColor_of_opaque isOpaque, BitVec.toNat_append, value, marker,
    ← Nat.shiftLeft_add_eq_or_of_lt (by decide), Nat.shiftLeft_eq]

/-! ### The search of the colour table (R163) -/

theorem getElem_tableOf (s : State) (i : Nat) (h : i < (tableOf s).length) :
    (tableOf s)[i] = s.ct[i]'(by rw [length_tableOf] at h; omega) := by
  simp [tableOf]

theorem tableFind_eq_some_of_least {e : Word32} {s : State} {j : Fin 8} (inside : j.val < s.ctLen.toNat)
    (holds : s.ct[j] = e) (least : ∀ k : Fin 8, k < j → s.ct[k] ≠ e) : tableFind e s = some j.val := by
  have inTable : j.val < (tableOf s).length := by
    rw [length_tableOf]
    omega
  refine (tableFind_eq_some_iff e s j).mpr ⟨inTable, ?_, fun k before => ?_⟩
  · rwa [getElem_tableOf]
  · rw [getElem_tableOf]
    exact least ⟨k, by omega⟩ before

theorem tableFind_eq_none_of_absent {e : Word32} {s : State}
    (absent : ∀ k : Fin 8, k.val < s.ctLen.toNat → s.ct[k] ≠ e) : tableFind e s = none := by
  rw [tableFind_eq_none_iff]
  intro found
  obtain ⟨k, inTable, holds⟩ := List.mem_iff_getElem.mp found
  rw [getElem_tableOf] at holds
  obtain ⟨inside, inFile⟩ : k < s.ctLen.toNat ∧ k < 8 := by rwa [length_tableOf, lt_min_iff] at inTable
  exact absent ⟨k, inFile⟩ inside holds

/-! ### IEXACT, CTADD and CTCLR (R163-R165) -/

section Outcomes

variable {s : State}

theorem exec_iexact_of_tooLong (long : 8 < s.ctLen.toNat) :
    exec .iexact s = .next (errorEntry ⟨.illegalCommand, s.inPos⟩ (encode .iexact) s) := by
  rw [exec_eq_complete, attempt, iexact, if_pos ((tooLong_iff _).mpr long), illegal, complete_error]

theorem exec_ctadd_of_tooLong (long : 8 < s.ctLen.toNat) :
    exec .ctadd s = .next (errorEntry ⟨.illegalCommand, s.inPos⟩ (encode .ctadd) s) := by
  rw [exec_eq_complete, attempt, ctadd, if_pos ((tooLong_iff _).mpr long), illegal, complete_error]

variable (short : s.ctLen.toNat ≤ 8)
include short

theorem exec_iexact_of_found {j : Nat} (found : tableFind (normColor s.color) s = some j) :
    exec .iexact s = .next { s with idx := BitVec.ofNat 4 (j + 1) } := by
  simp [exec_eq_complete, attempt, iexact, (tooLong_eq_false_iff _).mpr short, found, setIdx]

theorem exec_iexact_of_absent (absent : tableFind (normColor s.color) s = none) :
    exec .iexact s = .next (errorEntry ⟨.invalidPalette, s.inPos⟩ (encode .iexact) s) := by
  simp [exec_eq_complete, attempt, iexact, (tooLong_eq_false_iff _).mpr short, absent]

theorem exec_ctadd_of_found {j : Nat} (found : tableFind (normColor s.color) s = some j) :
    exec .ctadd s = .next { s with idx := BitVec.ofNat 4 (j + 1) } := by
  simp [exec_eq_complete, attempt, ctadd, (tooLong_eq_false_iff _).mpr short, found, setIdx]

end Outcomes

theorem exec_ctadd_of_new {s : State} (room : s.ctLen.toNat < 8)
    (absent : tableFind (normColor s.color) s = none) :
    exec .ctadd s = .next { s with
      ct := s.ct.setIfInBounds s.ctLen.toNat (normColor s.color), ctLen := s.ctLen + 1, idx := s.ctLen + 1 } := by
  have index : BitVec.ofNat 4 (s.ctLen.toNat + 1) = s.ctLen + 1 := by simp [BitVec.ofNat_add]
  simp [exec_eq_complete, attempt, ctadd, (tooLong_eq_false_iff _).mpr room.le, absent, Config.palMax, room.ne,
    setIdx, tableAppend, index]

theorem exec_ctadd_of_full {s : State} (full : s.ctLen.toNat = 8)
    (absent : tableFind (normColor s.color) s = none) :
    exec .ctadd s = .next (errorEntry ⟨.invalidPalette, s.inPos⟩ (encode .ctadd) s) := by
  simp [exec_eq_complete, attempt, ctadd, (tooLong_eq_false_iff _).mpr full.le, absent, Config.palMax, full]

/-- Settles O43: the three outcomes of the search. -/
theorem iexactFindsLowestEntry : Obligations.IexactFindsLowestEntry :=
  ⟨fun _ _ short inside holds least => exec_iexact_of_found short (tableFind_eq_some_of_least inside holds least),
    fun _ short absent => exec_iexact_of_absent short (tableFind_eq_none_of_absent absent),
    fun _ => exec_iexact_of_tooLong⟩

/-- Settles O44: the search finds the entry, or there is room at CTLEN for it, or the table is full. -/
theorem ctaddFindsOrAppends : Obligations.CtaddFindsOrAppends := by
  refine ⟨?found, ?appended, ?ninth, fun _ => exec_ctadd_of_tooLong⟩
  case found =>
    intro s j short inside holds least
    exact exec_ctadd_of_found short (tableFind_eq_some_of_least inside holds least)
  case appended =>
    intro s room absent
    refine ⟨_, exec_ctadd_of_new room (tableFind_eq_none_of_absent absent), fun k => ?_⟩
    simp only [Fin.getElem_fin, Vector.getElem_setIfInBounds, eq_comm (a := s.ctLen.toNat)]
  case ninth =>
    intro s full absent
    exact exec_ctadd_of_full full (tableFind_eq_none_of_absent fun k _ => absent k)

/-- Settles O46: CTCLR's attempt never fails, and the table it writes is the literal of eight zeros. -/
theorem ctclrEmptiesTheTable : Obligations.CtclrEmptiesTheTable := fun s => exec_eq_complete .ctclr s

end Sys2Proof.Machine
end

section
/-! Runs (R88-R90, R180-R186): one record decoded, its encoder, a packed run as a stream of capped records, and
what merging makes of them (O47, O48, O49). -/

namespace Sys2Proof.Machine

open Sys2Proof.Safety

/-! ### One record decoded (R88, R89, R183) -/

/-- The record's form is bit 4 of its first byte. -/
theorem getLsbD_four_eq (b : Byte) : b.getLsbD 4 = decide (b.toNat / 16 % 2 = 1) :=
  Nat.testBit_eq_decide_div_mod_eq

/-- The record's wire index is the top three bits of its first byte. -/
theorem extractLsb'_five_three_eq (b : Byte) : b.extractLsb' 5 3 = BitVec.ofNat 3 (b.toNat / 32) := by
  rw [BitVec.extractLsb', Nat.shiftRight_eq_div_pow]

theorem recordFields_short {b0 : Byte} (rest : List Byte) (form : b0.toNat / 16 % 2 = 0) :
    recordFields b0 rest = some (BitVec.ofNat 3 (b0.toNat / 32), b0.toNat % 16, 1) := by
  rw [recordFields.eq_def, getLsbD_four_eq, if_neg (by simp [form]), extractLsb'_five_three_eq]

theorem recordFields_long {b0 : Byte} (b1 : Byte) (rest : List Byte) (form : b0.toNat / 16 % 2 = 1) :
    recordFields b0 (b1 :: rest)
      = some (BitVec.ofNat 3 (b0.toNat / 32), b0.toNat % 16 * 256 + b1.toNat, 2) := by
  rw [recordFields.eq_def, getLsbD_four_eq, if_pos (decide_eq_true form), extractLsb'_five_three_eq]

theorem recordFields_cut {b0 : Byte} (form : b0.toNat / 16 % 2 = 1) : recordFields b0 [] = none := by
  rw [recordFields.eq_def, getLsbD_four_eq, if_pos (decide_eq_true form)]

section Decoder

variable {b0 : Byte} {rest : List Byte} {i : BitVec 3} {c k : Nat} (pos : Nat)

theorem decodeRecordAt_of_fields (fields : recordFields b0 rest = some (i, c, k)) (counted : c ≠ 0) :
    decodeRecordAt pos (b0 :: rest) = .ok (i, c, k) := by
  simp [decodeRecordAt, fields, counted]

theorem decodeRecordAt_of_count_zero (fields : recordFields b0 rest = some (i, 0, k)) :
    decodeRecordAt pos (b0 :: rest) = .error ⟨.overflow, pos⟩ := by
  simp [decodeRecordAt, fields]

theorem decodeRecordAt_of_cut (fields : recordFields b0 rest = none) :
    decodeRecordAt pos (b0 :: rest) = .error ⟨.malformedRunRecord, pos⟩ := by
  simp [decodeRecordAt, fields]

end Decoder

/-! ### RUNPK (R184) -/

/-- RUNPK is the decoder at INPOS: it takes the record and its bytes, or the error. -/
theorem exec_runpk_of_decode_ok {s : State} {i : BitVec 3} {c k : Nat}
    (h : decodeRecordAt s.inPos s.input = .ok (i, c, k)) :
    exec .runpk s = .next (consume k (setRecord i c s)) := by
  simp [exec_eq_complete, attempt, runpk, decodeRecord, h]

theorem exec_runpk_of_decode_error {s : State} {e : Raise}
    (h : decodeRecordAt s.inPos s.input = .error e) :
    exec .runpk s = .next (errorEntry e (encode .runpk) s) := by
  simp [exec_eq_complete, attempt, runpk, decodeRecord, h]

/-- Settles O48: the decoder's outcomes by the form of the first byte and the count, completed or turned into
error entry. -/
theorem runpkDecodesOneRecord : Obligations.RunpkDecodesOneRecord := by
  refine ⟨?short, ?long, ?truncated, ?malformed, ?shortZero, ?longZero⟩
  case short =>
    intro s b0 rest input form counted
    rw [exec_runpk_of_decode_ok (input ▸ decodeRecordAt_of_fields s.inPos (recordFields_short rest form) counted)]
    simp [consume, setRecord, input]
  case long =>
    intro s b0 b1 rest input form counted
    rw [exec_runpk_of_decode_ok (input ▸ decodeRecordAt_of_fields s.inPos (recordFields_long b1 rest form) counted)]
    simp [consume, setRecord, input]
  case truncated =>
    intro s input
    exact exec_runpk_of_decode_error (input ▸ rfl)
  case malformed =>
    intro s b0 input form
    exact exec_runpk_of_decode_error (input ▸ decodeRecordAt_of_cut s.inPos (recordFields_cut form))
  case shortZero =>
    intro s b0 rest input form zero
    exact exec_runpk_of_decode_error
      (input ▸ decodeRecordAt_of_count_zero s.inPos (zero ▸ recordFields_short rest form))
  case longZero =>
    intro s b0 b1 rest input form zero
    exact exec_runpk_of_decode_error
      (input ▸ decodeRecordAt_of_count_zero s.inPos (zero ▸ recordFields_long b1 rest form))

/-! ### One record encoded (R180) -/

theorem encodeRecord_short (i : BitVec 3) {c : Nat} (h : c ≤ 15) :
    encodeRecord i c = [BitVec.ofNat 8 (i.toNat * 32 + c)] := if_pos h

theorem encodeRecord_long (i : BitVec 3) {c : Nat} (h : 15 < c) :
    encodeRecord i c = [BitVec.ofNat 8 (i.toNat * 32 + 16 + c / 256), BitVec.ofNat 8 (c % 256)] :=
  if_neg h.not_ge

theorem length_encodeRecord (i : BitVec 3) (c : Nat) :
    (encodeRecord i c).length = if c ≤ 15 then 1 else 2 := by
  obtain long | short := Nat.lt_or_ge 15 c
  · simp [encodeRecord_long i long, long.not_ge]
  · simp [encodeRecord_short i short, short]

/-- The counts a record can hold (R88, R89). -/
def IsRecordCount (c : Nat) : Prop := 1 ≤ c ∧ c ≤ 4095

theorem ofNat_index {i : BitVec 3} {x : Nat} (h : x / 32 = i.toNat) : BitVec.ofNat 3 (x / 32) = i := by
  rw [h, BitVec.ofNat_toNat, BitVec.setWidth_eq]

theorem recordFields_shortByte (i : BitVec 3) {c : Nat} (rest : List Byte) (h : c ≤ 15) :
    recordFields (BitVec.ofNat 8 (i.toNat * 32 + c)) rest = some (i, c, 1) := by
  have index : i.toNat < 8 := i.isLt
  have first : (BitVec.ofNat 8 (i.toNat * 32 + c)).toNat = i.toNat * 32 + c := by
    rw [BitVec.toNat_ofNat]
    omega
  have count : (i.toNat * 32 + c) % 16 = c := by omega
  rw [recordFields_short rest (by rw [first]; omega), first, count, ofNat_index (i := i) (by omega)]

theorem recordFields_longBytes (i : BitVec 3) {c : Nat} (rest : List Byte) (h : c ≤ 4095) :
    recordFields (BitVec.ofNat 8 (i.toNat * 32 + 16 + c / 256)) (BitVec.ofNat 8 (c % 256) :: rest)
      = some (i, c, 2) := by
  have index : i.toNat < 8 := i.isLt
  have first : (BitVec.ofNat 8 (i.toNat * 32 + 16 + c / 256)).toNat = i.toNat * 32 + 16 + c / 256 := by
    rw [BitVec.toNat_ofNat]
    omega
  have second : (BitVec.ofNat 8 (c % 256)).toNat = c % 256 := by
    rw [BitVec.toNat_ofNat, Nat.mod_mod]
  have count : (i.toNat * 32 + 16 + c / 256) % 16 * 256 + c % 256 = c := by omega
  rw [recordFields_long _ rest (by rw [first]; omega), first, second, count, ofNat_index (i := i) (by omega)]

/-- A record is decoded whatever follows it. -/
theorem decodeRecordAt_encodeRecord (pos : Nat) (i : BitVec 3) {c : Nat} (rest : List Byte)
    (h : IsRecordCount c) :
    decodeRecordAt pos (encodeRecord i c ++ rest) = .ok (i, c, (encodeRecord i c).length) := by
  obtain ⟨positive, capped⟩ := h
  have counted : c ≠ 0 := Nat.one_le_iff_ne_zero.mp positive
  obtain long | short := Nat.lt_or_ge 15 c
  · rw [encodeRecord_long i long]
    exact decodeRecordAt_of_fields pos (recordFields_longBytes i rest capped) counted
  · rw [encodeRecord_short i short]
    exact decodeRecordAt_of_fields pos (recordFields_shortByte i rest short) counted

/-! ### A stream of records (R90, R185) -/

/-- The bytes of a sequence of records. -/
def encodeRecords (rs : List (BitVec 3 × Nat)) : List Byte := rs.flatMap fun r => encodeRecord r.1 r.2

@[simp] theorem encodeRecords_nil : encodeRecords [] = [] := rfl

@[simp] theorem encodeRecords_cons (r : BitVec 3 × Nat) (rs : List (BitVec 3 × Nat)) :
    encodeRecords (r :: rs) = encodeRecord r.1 r.2 ++ encodeRecords rs := rfl

@[simp] theorem encodeRecords_append (rs qs : List (BitVec 3 × Nat)) :
    encodeRecords (rs ++ qs) = encodeRecords rs ++ encodeRecords qs := List.flatMap_append

theorem decodeStream_of_decode_ok {fuel k c : Nat} {i : BitVec 3} {bs : List Byte}
    (h : decodeRecordAt 0 bs = .ok (i, c, k)) :
    decodeStream (fuel + 1) bs = (decodeStream fuel (bs.drop k)).map ((i, c) :: ·) := by
  cases bs with
  | nil => nomatch h
  | cons b bs => simp only [decodeStream, h]

/-- With a turn for every byte the stream of a sequence of records decodes to it. -/
theorem decodeStream_encodeRecords {rs : List (BitVec 3 × Nat)} {fuel : Nat}
    (counts : ∀ r ∈ rs, IsRecordCount r.2) (enough : (encodeRecords rs).length ≤ fuel) :
    decodeStream fuel (encodeRecords rs) = some rs := by
  induction rs generalizing fuel with
  | nil => cases fuel <;> rfl
  | cons r rs ih =>
    obtain ⟨first, others⟩ := List.forall_mem_cons.mp counts
    have size : 1 ≤ (encodeRecord r.1 r.2).length := by
      rw [length_encodeRecord]
      split <;> omega
    rw [encodeRecords_cons, List.length_append] at enough
    obtain ⟨fuel, rfl⟩ : ∃ m, fuel = m + 1 := ⟨fuel - 1, by omega⟩
    rw [encodeRecords_cons, decodeStream_of_decode_ok (decodeRecordAt_encodeRecord 0 r.1 _ first),
      List.drop_left, ih others (by omega), Option.map_some]

theorem decodeRecords_encodeRecords {rs : List (BitVec 3 × Nat)} (counts : ∀ r ∈ rs, IsRecordCount r.2) :
    decodeRecords (encodeRecords rs) = some rs :=
  decodeStream_encodeRecords counts le_rfl

/-! ### The records of a packed run (R181) -/

/-- The records of `PackRun(i, n)`: full ones, then the rest. -/
def runRecords (i : BitVec 3) (n : Nat) : List (BitVec 3 × Nat) :=
  List.replicate (n / 4095) (i, 4095) ++ if n % 4095 = 0 then [] else [(i, n % 4095)]

@[simp] theorem runRecords_zero (i : BitVec 3) : runRecords i 0 = [] := rfl

theorem runRecords_of_lt (i : BitVec 3) {n : Nat} (pos : n ≠ 0) (h : n < 4095) : runRecords i n = [(i, n)] := by
  simp [runRecords, Nat.div_eq_of_lt h, Nat.mod_eq_of_lt h, pos]

theorem runRecords_add_full (i : BitVec 3) (n : Nat) : runRecords i (n + 4095) = (i, 4095) :: runRecords i n := by
  simp [runRecords, List.replicate_succ]

/-- With a turn for every full record and the rest, the loop of R181 emits the run's records. -/
theorem packChunks_eq (i : BitVec 3) {fuel n : Nat} (enough : n / 4095 < fuel) :
    packChunks i fuel n = encodeRecords (runRecords i n) := by
  induction fuel generalizing n with
  | zero => omega
  | succ fuel ih =>
    obtain rfl | pos := eq_or_ne n 0
    · rfl
    obtain part | full := Nat.lt_or_ge n 4095
    · rw [packChunks, if_neg pos, min_eq_left part.le, runRecords_of_lt i pos part, Nat.sub_self]
      cases fuel <;> simp [packChunks]
    · obtain ⟨n, rfl⟩ := Nat.exists_eq_add_of_le' full
      rw [packChunks, if_neg pos, min_eq_right full, Nat.add_sub_cancel, ih (by omega), runRecords_add_full,
        encodeRecords_cons]

theorem packRun_eq (i : BitVec 3) (n : Nat) : packRun i n = encodeRecords (runRecords i n) :=
  packChunks_eq i (Nat.lt_succ_self _)

theorem flatMap_packRun_eq (runs : List (BitVec 3 × Nat)) :
    runs.flatMap (fun r => packRun r.1 r.2) = encodeRecords (runs.flatMap fun r => runRecords r.1 r.2) := by
  simp only [packRun_eq, encodeRecords, List.flatMap_assoc]

theorem mem_runRecords {i : BitVec 3} {n : Nat} {r : BitVec 3 × Nat} (h : r ∈ runRecords i n) :
    r.1 = i ∧ IsRecordCount r.2 := by
  obtain full | rest := List.mem_append.mp h
  · obtain rfl := List.eq_of_mem_replicate full
    exact ⟨rfl, Nat.succ_pos _, le_rfl⟩
  · split at rest
    case isTrue => nomatch rest
    case isFalse positive =>
      obtain rfl := List.mem_singleton.mp rest
      exact ⟨rfl, Nat.one_le_iff_ne_zero.mpr positive, (Nat.mod_lt n (by decide)).le⟩

theorem length_runRecords (i : BitVec 3) (n : Nat) : (runRecords i n).length = (n + 4094) / 4095 := by
  rw [runRecords, List.length_append, List.length_replicate]
  split <;> simp only [List.length_nil, List.length_singleton] <;> omega

theorem runsTotal_runRecords (i : BitVec 3) (n : Nat) : runsTotal (runRecords i n) = n := by
  have division : n / 4095 * 4095 + n % 4095 = n := Nat.div_add_mod' n 4095
  rw [runsTotal, runRecords, List.map_append, List.sum_append, List.map_replicate, List.sum_replicate, smul_eq_mul]
  split
  case isTrue rest => simpa [rest] using division
  case isFalse => simpa using division

theorem decodeRecords_packRun (i : BitVec 3) (n : Nat) : decodeRecords (packRun i n) = some (runRecords i n) := by
  rw [packRun_eq]
  exact decodeRecords_encodeRecords fun r hr => (mem_runRecords hr).2

theorem decodeRecords_flatMap_packRun (runs : List (BitVec 3 × Nat)) :
    decodeRecords (runs.flatMap fun r => packRun r.1 r.2)
      = some (runs.flatMap fun r => runRecords r.1 r.2) := by
  rw [flatMap_packRun_eq]
  refine decodeRecords_encodeRecords fun r hr => ?_
  obtain ⟨run, -, hr⟩ := List.mem_flatMap.mp hr
  exact (mem_runRecords hr).2

/-! ### Merging (R185) -/

theorem mergeRecords_cons_congr (r : BitVec 3 × Nat) {rs qs : List (BitVec 3 × Nat)}
    (h : mergeRecords rs = mergeRecords qs) : mergeRecords (r :: rs) = mergeRecords (r :: qs) := by
  simp only [mergeRecords, h]

/-- Two neighbours of one index merge as one record of the sum of their counts. -/
theorem mergeRecords_cons_cons_same (i : BitVec 3) (c d : Nat) (rs : List (BitVec 3 × Nat)) :
    mergeRecords ((i, c) :: (i, d) :: rs) = mergeRecords ((i, c + d) :: rs) := by
  simp only [mergeRecords]
  cases mergeRecords rs with
  | nil => simp
  | cons q more =>
    by_cases same : i = q.1
    · simp [same, Nat.add_assoc]
    · simp [same]

/-- The records of a run merge to the run, whatever records follow them. -/
theorem mergeRecords_runRecords_append (i : BitVec 3) {n : Nat} (rs : List (BitVec 3 × Nat)) (pos : n ≠ 0) :
    mergeRecords (runRecords i n ++ rs) = mergeRecords ((i, n) :: rs) := by
  induction n using Nat.strongRecOn with
  | ind n ih =>
    obtain part | full := Nat.lt_or_ge n 4095
    · rw [runRecords_of_lt i pos part, List.singleton_append]
    · obtain ⟨m, rfl⟩ := Nat.exists_eq_add_of_le' full
      rw [runRecords_add_full, List.cons_append]
      obtain rfl | more := eq_or_ne m 0
      · rfl
      · rw [mergeRecords_cons_congr _ (ih m (by omega) more), mergeRecords_cons_cons_same, Nat.add_comm]

theorem mergeRecords_flatMap_runRecords {runs : List (BitVec 3 × Nat)} (counts : ∀ r ∈ runs, 1 ≤ r.2) :
    mergeRecords (runs.flatMap fun r => runRecords r.1 r.2) = mergeRecords runs := by
  induction runs with
  | nil => rfl
  | cons r runs ih =>
    obtain ⟨first, others⟩ := List.forall_mem_cons.mp counts
    rw [List.flatMap_cons, mergeRecords_runRecords_append r.1 _ (Nat.one_le_iff_ne_zero.mp first)]
    exact mergeRecords_cons_congr r (ih others)

/-- Runs with no two neighbours of one index are merged already. -/
theorem mergeRecords_of_isChain {runs : List (BitVec 3 × Nat)} (chain : runs.IsChain fun a b => a.1 ≠ b.1) :
    mergeRecords runs = runs := by
  induction runs with
  | nil => rfl
  | cons r runs ih =>
    cases runs with
    | nil => rfl
    | cons q runs =>
      obtain ⟨differ, others⟩ := List.isChain_cons_cons.mp chain
      rw [mergeRecords, ih others]
      exact if_neg differ

/-! ### RPACK and the round trip (R182, R186) -/

/-- The bytes of a packed run: full records of count 4095, then the record of the rest. -/
theorem packRun_eq_bytes (i : BitVec 3) (n : Nat) :
    packRun i n =
      (List.replicate (n / 4095) [BitVec.ofNat 8 (i.toNat * 32 + 31), 0xFF]).flatten
        ++ (if n % 4095 = 0 then [] else encodeRecord i (n % 4095)) := by
  have full : encodeRecord i 4095 = [BitVec.ofNat 8 (i.toNat * 32 + 31), 0xFF] :=
    encodeRecord_long i (by decide)
  rw [packRun_eq, runRecords, encodeRecords_append, encodeRecords, List.flatMap_replicate, full]
  split <;> simp

theorem length_packRun (i : BitVec 3) (n : Nat) :
    (packRun i n).length = 2 * (n / 4095) + if n % 4095 = 0 then 0 else if n % 4095 ≤ 15 then 1 else 2 := by
  rw [packRun_eq_bytes, List.length_append]
  split <;> simp [length_encodeRecord, Nat.mul_comm]

/-- Settles O47: RPACK appends `PackRun(RIDX, RLEN)`, whose bytes are its records' fields. -/
theorem rpackPacksCappedChunks : Obligations.RpackPacksCappedChunks := by
  refine ⟨?packs, ?overflows⟩
  case packs =>
    rintro s _ _ _ rfl rfl nonempty rfl
    have pending : s.rLen ≠ 0 := fun zero => nonempty (by rw [zero]; rfl)
    refine ⟨packRun s.rIdx s.rLen.toNat, ?_, packRun_eq_bytes _ _⟩
    rw [exec_eq_complete, attempt, rpack, if_neg pending, complete_ok, emit]
  case overflows =>
    intro s zero
    rw [exec_eq_complete, attempt, rpack, if_pos zero, complete_error]

/-- Settles O49: a packed run decodes to `runRecords`, whose indices, counts and length are known, and the
records of a sequence of runs merge as the runs do. -/
theorem packedRunsRoundTrip : Obligations.PackedRunsRoundTrip := by
  refine ⟨?records, fun i n _ => length_packRun i n, ?sequence⟩
  case records =>
    intro i n positive
    have merged : mergeRecords (runRecords i n) = [(i, n)] := by
      simpa [mergeRecords] using mergeRecords_runRecords_append i [] (Nat.one_le_iff_ne_zero.mp positive)
    exact ⟨runRecords i n, decodeRecords_packRun i n, length_runRecords i n, fun r hr => (mem_runRecords hr).1,
      runsTotal_runRecords i n, merged⟩
  case sequence =>
    intro runs counts chain
    refine ⟨_, decodeRecords_flatMap_packRun runs, ?_⟩
    rw [mergeRecords_flatMap_runRecords counts, mergeRecords_of_isChain chain]

end Sys2Proof.Machine
end

section
/-! The container's pixels and records (R206, R207, R209, R211): what appending pixels to the pending run does, and the
outcomes of CWPIX, CWEND and CRRUN (O51, O53, O59). -/

namespace Sys2Proof.Machine

open Sys2Proof.Safety

/-! ### The palette index IDX (R207) -/

theorem idxInTable_iff (s : State) :
    idxInTable s = true ↔ 1 ≤ s.idx.toNat ∧ s.idx.toNat ≤ 8 ∧ s.idx.toNat ≤ s.ctLen.toNat := by
  simp [idxInTable, Config.palMax, Nat.one_le_iff_ne_zero, and_assoc]

theorem idxInTable_eq_false_iff (s : State) :
    idxInTable s = false ↔ s.idx = 0 ∨ 8 < s.idx.toNat ∨ s.ctLen.toNat < s.idx.toNat := by
  have zero : s.idx.toNat = 0 ↔ s.idx = 0 := BitVec.toNat_inj (y := 0)
  rw [← Bool.not_eq_true, idxInTable_iff, ← zero]
  omega

/-- The wire index of IDX is the one that IDX is 1 above (D27). -/
theorem wireIdx_eq {s : State} {w : BitVec 3} (h : w.toNat + 1 = s.idx.toNat) : wireIdx s = w := by
  rw [wireIdx, ← h, Nat.add_sub_cancel, BitVec.ofNat_toNat, BitVec.setWidth_eq]

/-! ### The pending run (R206) -/

section Pending

variable {s : State}

theorem pendingBytes_of_pending (pending : s.cwRLen ≠ 0) :
    pendingBytes s = packRun s.cwRIdx s.cwRLen.toNat := if_neg pending

theorem pendingBytes_of_empty (empty : s.cwRLen = 0) : pendingBytes s = [] := if_pos empty

variable {i : BitVec 3} (m : Word64)

/-- Pixels of the pending run's index extend it. -/
theorem appendPixels_same (pending : s.cwRLen ≠ 0) (same : s.cwRIdx = i) :
    appendPixels i m s = { s with cwRLen := s.cwRLen + m, cwCnt := s.cwCnt + m } :=
  if_pos ⟨pending, same⟩

/-- Pixels of another index pack the pending run and start their own. -/
theorem appendPixels_other (pending : s.cwRLen ≠ 0) (other : s.cwRIdx ≠ i) :
    appendPixels i m s = { s with
      output := s.output ++ packRun s.cwRIdx s.cwRLen.toNat
      outTot := s.outTot + (packRun s.cwRIdx s.cwRLen.toNat).length
      cwRIdx := i, cwRLen := m, cwCnt := s.cwCnt + m } := by
  rw [appendPixels, if_neg fun h => other h.2, pendingBytes_of_pending pending, emit]

/-- Without a pending run, pixels start one and pack nothing. -/
theorem appendPixels_first (empty : s.cwRLen = 0) :
    appendPixels i m s = { s with cwRIdx := i, cwRLen := m, cwCnt := s.cwCnt + m } := by
  rw [appendPixels, if_neg fun h => h.1 empty, pendingBytes_of_empty empty, emit_nil]

end Pending

/-! ### CWPIX (R207) -/

section Cwpix

variable {s : State}

theorem exec_cwpix_of_illegal (h : s.status.cwOpen = false ∨ idxInTable s = false) :
    exec .cwpix s = .next (errorEntry ⟨.illegalCommand, s.inPos⟩ (encode .cwpix) s) := by
  have raised : cwpix s = illegal s := by
    obtain closed | outside := h
    · rw [cwpix, if_pos closed]
    · rw [cwpix, if_pos outside, ite_self]
  rw [exec_eq_complete, attempt, raised, illegal, complete_error]

variable (opened : s.status.cwOpen = true) (inside : idxInTable s = true)
include opened inside

theorem exec_cwpix_of_full (full : s.cwCnt = s.cwTot) :
    exec .cwpix s = .next (errorEntry ⟨.pixelCountMismatch, s.inPos⟩ (encode .cwpix) s) := by
  simp [exec_eq_complete, attempt, cwpix, opened, inside, full]

theorem exec_cwpix_of_room (room : s.cwCnt ≠ s.cwTot) :
    exec .cwpix s = .next (appendPixels (wireIdx s) 1 s) := by
  simp [exec_eq_complete, attempt, cwpix, opened, inside, room]

end Cwpix

/-- Settles O51: with room, CWPIX appends one pixel of the wire index, in the three cases of the pending run. -/
theorem cwpixAddsOnePixel : Obligations.CwpixAddsOnePixel := by
  refine ⟨?adds, ?illegal, ?full⟩
  case adds =>
    intro s w _ opened positive small inTable index room
    have inside : idxInTable s = true := (idxInTable_iff s).mpr ⟨positive, small, inTable⟩
    rw [exec_cwpix_of_room opened inside room, wireIdx_eq index]
    exact ⟨fun pending same => congrArg _ (appendPixels_same 1 pending same),
      fun pending other => congrArg _ (appendPixels_other 1 pending other),
      fun empty => congrArg _ (appendPixels_first 1 empty)⟩
  case illegal =>
    intro s h
    exact exec_cwpix_of_illegal (h.imp_right (idxInTable_eq_false_iff s).mpr)
  case full =>
    intro s opened positive small inTable full
    exact exec_cwpix_of_full opened ((idxInTable_iff s).mpr ⟨positive, small, inTable⟩) full

/-! ### CWEND (R209) -/

section Cwend

variable {s : State}

theorem exec_cwend_of_closed (closed : s.status.cwOpen = false) :
    exec .cwend s = .next (errorEntry ⟨.illegalCommand, s.inPos⟩ (encode .cwend) s) := by
  rw [exec_eq_complete, attempt, cwend, if_pos closed, illegal, complete_error]

variable (opened : s.status.cwOpen = true)
include opened

theorem exec_cwend_of_early (early : s.cwCnt ≠ s.cwTot) :
    exec .cwend s = .next (errorEntry ⟨.pixelCountMismatch, s.inPos⟩ (encode .cwend) s) := by
  simp [exec_eq_complete, attempt, cwend, opened, early]

theorem exec_cwend_of_all (all : s.cwCnt = s.cwTot) :
    exec .cwend s = .next (closeWriter (emit (pendingBytes s) s)) := by
  simp [exec_eq_complete, attempt, cwend, opened, all]

end Cwend

/-- Settles O53: once all pixels are accepted, CWEND emits the bytes of the pending run, none when there is no
such run, and then closes the writer. -/
theorem cwendClosesTheWriter : Obligations.CwendClosesTheWriter := by
  refine ⟨?closes, fun _ => exec_cwend_of_closed, fun _ => exec_cwend_of_early⟩
  case closes =>
    intro s opened all
    rw [exec_cwend_of_all opened all]
    constructor
    · intro pending
      rw [pendingBytes_of_pending pending, emit, closeWriter, Status.withCwOpen]
    · intro empty
      rw [pendingBytes_of_empty empty, emit_nil, closeWriter, Status.withCwOpen, ← empty]

/-! ### CRRUN (R211) -/

/-- The decoder raises every error at the record's first byte (R183). -/
theorem pos_of_decodeRecordAt_error {pos : Nat} {bs : List Byte} {e : Raise}
    (h : decodeRecordAt pos bs = .error e) : e.pos = pos := by
  cases bs with
  | nil =>
    cases h
    rfl
  | cons b0 rest =>
    match fields : recordFields b0 rest with
    | none =>
      rw [decodeRecordAt_of_cut pos fields] at h
      cases h
      rfl
    | some (i, 0, k) =>
      rw [decodeRecordAt_of_count_zero pos fields] at h
      cases h
      rfl
    | some (i, c + 1, k) =>
      rw [decodeRecordAt_of_fields pos fields c.succ_ne_zero] at h
      cases h

/-- Within CRREM the count of samples left does not wrap, and the reader stays open while it is not 0. -/
theorem coverSamples_of_le {c : Nat} {s : State} (within : c ≤ s.crRem.toNat) :
    coverSamples c s = { s with
      crRem := s.crRem - BitVec.ofNat 64 c
      status := { s.status with crOpen := decide (c < s.crRem.toNat) } } := by
  have left : BitVec.ofNat 64 (s.crRem.toNat - c) = s.crRem - BitVec.ofNat 64 c := by
    rw [← BitVec.ofNat_sub_ofNat_of_le _ _ (within.trans_lt s.crRem.isLt) within, BitVec.ofNat_toNat,
      BitVec.setWidth_eq]
  simp only [coverSamples, left, Status.withCrOpen, Nat.sub_pos_iff_lt]

section Crrun

variable {s : State}

theorem exec_crrun_of_closed (closed : s.status.crOpen = false) :
    exec .crrun s = .next (errorEntry ⟨.illegalCommand, s.inPos⟩ (encode .crrun) s) := by
  rw [exec_eq_complete, attempt, crrun, if_pos closed, illegal, complete_error]

variable (opened : s.status.crOpen = true)
include opened

theorem exec_crrun_of_decode_error {e : Raise} (h : decodeRecordAt s.inPos s.input = .error e) :
    exec .crrun s = .next (errorEntry e (encode .crrun) s) := by
  simp [exec_eq_complete, attempt, crrun, decodeRecord, opened, h]

variable {i : BitVec 3} {c k : Nat} (record : decodeRecordAt s.inPos s.input = .ok (i, c, k))
include record

theorem exec_crrun_of_malformed (h : s.ctLen.toNat ≤ i.toNat ∨ s.crRem.toNat < c) :
    exec .crrun s = .next (errorEntry ⟨.malformedRunRecord, s.inPos⟩ (encode .crrun) s) := by
  have raised : crrun s = .error ⟨.malformedRunRecord, s.inPos⟩ := by
    simp only [crrun, decodeRecord, opened, record, Bool.true_eq_false, if_false]
    obtain outside | beyond := h
    · rw [if_pos outside]
    · rw [if_pos beyond, ite_self]
  rw [exec_eq_complete, attempt, raised, complete_error]

theorem exec_crrun_of_record (inside : i.toNat < s.ctLen.toNat) (within : c ≤ s.crRem.toNat) :
    exec .crrun s = .next (consume k (coverSamples c (setIdx (i.toNat + 1) (setRecord i c s)))) := by
  simp [exec_eq_complete, attempt, crrun, decodeRecord, opened, record, inside.not_ge, within.not_gt]

end Crrun

/-- Settles O59: the outcomes of the decoder at INPOS; a record within the table and the samples left is taken,
its count subtracted without wrapping. -/
theorem crrunDecodesOneRecord : Obligations.CrrunDecodesOneRecord := by
  refine ⟨?taken, fun _ => exec_crrun_of_closed, ?undecoded, ?malformed⟩
  case taken =>
    intro s i c k opened record inside within
    rw [exec_crrun_of_record opened record inside within,
      coverSamples_of_le (s := setIdx (i.toNat + 1) (setRecord i c s)) within]
    rfl
  case undecoded =>
    intro s e opened failed
    exact ⟨pos_of_decodeRecordAt_error failed, exec_crrun_of_decode_error opened failed⟩
  case malformed =>
    intro s i c k opened record h
    exact exec_crrun_of_malformed opened record h

end Sys2Proof.Machine
end

section
/-! Errors over all commands (R9, R240-R250): how a pseudocode ends, the kinds each decoder and each command raises,
and that a completion leaves the error registers as they are (O20). -/

namespace Sys2Proof.Machine

open Sys2Proof.Safety

/-! ### How a pseudocode ends (R8, R249) -/

/-- A pseudocode ends in a result with property `P`, or raises an error of one of the kinds. -/
def Ends {α : Type} (kinds : List ErrorKind) (P : α → Prop) : Except Raise α → Prop
  | .ok a => P a
  | .error e => e.kind ∈ kinds

/-- A decoder raises only errors of the kinds. -/
abbrev RaisesOnly {α : Type} (kinds : List ErrorKind) (r : Except Raise α) : Prop := Ends kinds (fun _ => True) r

namespace Ends

variable {α : Type} {kinds : List ErrorKind} {P : α → Prop} {r : Except Raise α}

theorem ok {a : α} (h : P a) : Ends kinds P (.ok a) := h

theorem error {kind : ErrorKind} {pos : Nat} (h : kind ∈ kinds) : Ends kinds P (.error ⟨kind, pos⟩) := h

/-- A check that raises stands before the rest of the pseudocode. -/
theorem guard {c : Prop} [Decidable c] {kind : ErrorKind} {pos : Nat} (raises : kind ∈ kinds)
    (rest : Ends kinds P r) : Ends kinds P (if c then .error ⟨kind, pos⟩ else r) := by
  split
  · exact raises
  · exact rest

theorem of_eq_ok {a : α} (h : Ends kinds P r) (completed : r = .ok a) : P a := by
  rwa [completed] at h

theorem of_eq_error {e : Raise} (h : Ends kinds P r) (failed : r = .error e) : e.kind ∈ kinds := by
  rwa [failed] at h

/-- An error passed on by the pseudocode that called is of one of its kinds too. -/
theorem pass {β : Type} {Q : β → Prop} {kinds' : List ErrorKind} {e : Raise} (h : Ends kinds P r)
    (failed : r = .error e) (among : kinds ⊆ kinds') : Ends kinds' Q (.error e) :=
  among (h.of_eq_error failed)

end Ends

/-! ### The kinds the decoders raise (R101, R183, R210) -/

theorem varIntLoop_raisesOnly (pos k acc : Nat) (bs : List Byte) :
    RaisesOnly [.overflow, .truncatedInput] (varIntLoop pos k acc bs) := by
  induction bs generalizing pos k acc with
  | nil => exact .error (by decide)
  | cons b bs ih =>
    refine .guard (by decide) ?_
    split
    · exact ih ..
    · exact .ok trivial

theorem varIntDecodeAt_raisesOnly (p : Nat) (s : State) :
    RaisesOnly [.overflow, .truncatedInput] (varIntDecodeAt p s) := varIntLoop_raisesOnly ..

theorem decodeRecord_raisesOnly (s : State) :
    RaisesOnly [.truncatedInput, .malformedRunRecord, .overflow] (decodeRecord s) := by
  unfold decodeRecord
  cases s.input with
  | nil => exact .error (by decide)
  | cons b0 rest =>
    rw [decodeRecordAt]
    split
    · exact .error (by decide)
    · exact .guard (by decide) (.ok trivial)

theorem checkMagic_raisesOnly (pos : Nat) (ms bs : List Byte) :
    RaisesOnly [.truncatedInput, .badMagic] (checkMagic pos ms bs) := by
  induction ms generalizing pos bs with
  | nil => exact .ok trivial
  | cons m ms ih =>
    cases bs with
    | nil => exact .error (by decide)
    | cons b bs =>
      unfold checkMagic
      split
      · exact ih ..
      · exact .error (by decide)

theorem parseTable_raisesOnly (p : Nat) (s : State) :
    RaisesOnly [.truncatedInput, .invalidPalette] (parseTable p s) := by
  unfold parseTable
  split
  · exact .error (by decide)
  · exact .guard (by decide) (.guard (by decide) (.ok trivial))

theorem parseHeader_raisesOnly (s : State) :
    RaisesOnly [.truncatedInput, .badMagic, .overflow, .invalidPalette] (parseHeader s) := by
  unfold parseHeader
  split
  case h_1 failed => exact (checkMagic_raisesOnly ..).pass failed (by decide)
  case h_2 =>
    dsimp only
    split
    case h_1 failed => exact (varIntDecodeAt_raisesOnly ..).pass failed (by decide)
    case h_2 =>
      split
      case h_1 failed => exact (varIntDecodeAt_raisesOnly ..).pass failed (by decide)
      case h_2 =>
        refine .guard (by decide) ?_
        split
        case h_1 failed => exact (parseTable_raisesOnly ..).pass failed (by decide)
        case h_2 => exact .ok trivial

/-! ### How each command ends (R240-R247, R250) -/

/-- What error entry writes, as one value: STATUS.ERR, STATUS.ERRCODE, ERRCMD and ERRPOS (R251). -/
def errorRegs (s : State) : Bool × BitVec 4 × Word32 × Nat :=
  (s.status.err, s.status.errCode, s.errCmd, s.errPos)

/-- A command attempted in `s` leaves the error registers as they are, or raises a kind of its row. -/
abbrev EndsCleanly (i : Instr) (s : State) (r : Except Raise State) : Prop :=
  Ends (raisedBy i) (fun t => errorRegs t = errorRegs s) r

section Commands

variable (s : State)

theorem errorRegs_appendPixels (i : BitVec 3) (m : Word64) : errorRegs (appendPixels i m s) = errorRegs s := by
  unfold appendPixels
  split <;> rfl

theorem vdec_endsCleanly : EndsCleanly .vdec s (vdec s) := by
  unfold vdec
  split
  case h_1 failed => exact (varIntDecodeAt_raisesOnly 0 s).pass failed (by decide)
  case h_2 => exact .ok rfl

theorem quant_endsCleanly : EndsCleanly .quant s (quant s) :=
  .guard (by decide) (.guard (by decide) (.ok rfl))

theorem rdist_endsCleanly : EndsCleanly .rdist s (rdist s) := .guard (by decide) (.ok rfl)

theorem rpush_endsCleanly (en : Bool) : EndsCleanly (.rpush en) s (rpush en s) :=
  .guard (List.mem_singleton_self _) (.ok rfl)

theorem inear_endsCleanly : EndsCleanly .inear s (inear s) := .guard (by decide) (.ok rfl)

theorem iexact_endsCleanly : EndsCleanly .iexact s (iexact s) := by
  refine .guard (by decide) ?_
  split
  · exact .error (by decide)
  · exact .ok rfl

theorem ctadd_endsCleanly : EndsCleanly .ctadd s (ctadd s) := by
  refine .guard (by decide) ?_
  split
  · exact .ok rfl
  · exact .guard (by decide) (.ok rfl)

theorem rpack_endsCleanly : EndsCleanly .rpack s (rpack s) := .guard (by decide) (.ok rfl)

theorem runpk_endsCleanly : EndsCleanly .runpk s (runpk s) := by
  unfold runpk
  split
  case h_1 failed => exact (decodeRecord_raisesOnly s).pass failed (by decide)
  case h_2 => exact .ok rfl

theorem cwhdr_endsCleanly : EndsCleanly .cwhdr s (cwhdr s) :=
  .guard (by decide) (.guard (by decide) (.guard (by decide) (.ok rfl)))

theorem cwpix_endsCleanly : EndsCleanly .cwpix s (cwpix s) :=
  .guard (by decide) (.guard (by decide) (.guard (by decide) (.ok (errorRegs_appendPixels ..))))

theorem cwrun_endsCleanly : EndsCleanly .cwrun s (cwrun s) :=
  .guard (by decide) (.guard (by decide) (.guard (by decide) (.guard (by decide)
    (.ok (errorRegs_appendPixels ..)))))

theorem cwend_endsCleanly : EndsCleanly .cwend s (cwend s) :=
  .guard (by decide) (.guard (by decide) (.ok rfl))

theorem crhdr_endsCleanly : EndsCleanly .crhdr s (crhdr s) := by
  refine .guard (by decide) ?_
  split
  case h_1 failed => exact (parseHeader_raisesOnly s).pass failed (by decide)
  case h_2 => exact .ok rfl

theorem crrun_endsCleanly : EndsCleanly .crrun s (crrun s) := by
  refine .guard (by decide) ?_
  split
  case h_1 failed => exact (decodeRecord_raisesOnly s).pass failed (by decide)
  case h_2 => exact .guard (by decide) (.guard (by decide) (.ok rfl))

theorem attempt_endsCleanly (i : Instr) : EndsCleanly i s (attempt i s) := by
  cases i with
  | venc => exact .ok rfl
  | vdec => exact vdec_endsCleanly s
  | quant => exact quant_endsCleanly s
  | rdist => exact rdist_endsCleanly s
  | rpush en => exact rpush_endsCleanly s en
  | inear => exact inear_endsCleanly s
  | iexact => exact iexact_endsCleanly s
  | ctadd => exact ctadd_endsCleanly s
  | ctclr => exact .ok rfl
  | rpack => exact rpack_endsCleanly s
  | runpk => exact runpk_endsCleanly s
  | cwhdr => exact cwhdr_endsCleanly s
  | cwpix => exact cwpix_endsCleanly s
  | cwrun => exact cwrun_endsCleanly s
  | cwend => exact cwend_endsCleanly s
  | crhdr => exact crhdr_endsCleanly s
  | crrun => exact crrun_endsCleanly s

end Commands

/-! ### Precision (R250, R251) -/

/-- A command that completes leaves the error registers as they are. -/
theorem errorRegs_of_attempt_ok {i : Instr} {s t : State} (h : attempt i s = .ok t) : errorRegs t = errorRegs s :=
  (attempt_endsCleanly s i).of_eq_ok h

/-- A command raises only the kinds the error table gives it (R240). -/
theorem kind_mem_raisedBy {i : Instr} {s : State} {e : Raise} (h : attempt i s = .error e) :
    e.kind ∈ raisedBy i :=
  (attempt_endsCleanly s i).of_eq_error h

/-- Settles O20: a completion leaves ERR at 0, so the command took error entry, whose kind is one of its row. -/
theorem errorsArePrecise : Obligations.ErrorsArePrecise := by
  intro i s t clear performed raised
  obtain completed | ⟨e, failed, rfl⟩ := (exec_eq_next_iff i s t).mp performed
  · have kept : t.status.err = s.status.err := congrArg Prod.fst (errorRegs_of_attempt_ok completed)
    rw [kept, clear] at raised
    nomatch raised
  · exact ⟨e.kind, e.pos, kind_mem_raisedBy failed, rfl⟩

end Sys2Proof.Machine
end

section
/-! Legal command words (R81, R83): decoding inverts encoding (O1), and the words that decode are those without a
ground of R83 against them (O4), so a write of CMD performs a command (O7), takes error entry (O3) or only stores
(O8). -/

namespace Sys2Proof

open Sys2Proof.Machine

theorem Instr.wellFormed_eq_true (i : Instr) : i.wellFormed = true := by
  cases i <;> rfl

/-- Settles O1: every instruction is well formed, and `decode` inverts `encode`. -/
theorem decodeEncodeAgree : Obligations.DecodeEncodeAgree := by
  intro c i
  rw [decode_eq_ok_iff, i.wellFormed_eq_true]
  exact (and_iff_right rfl).symm

/-! ### The three grounds of R83 -/

theorem resField_eq_zero_iff (c : Word32) : resField c = 0 ↔ c.toNat / 512 = 0 := by
  have small : c.toNat / 512 < 2 ^ 23 := by omega
  rw [← BitVec.toNat_inj, resField, BitVec.extractLsb'_toNat, Nat.shiftRight_eq_div_pow, Nat.mod_eq_of_lt small]
  rfl

theorem opField_eq_setWidth (c : Word32) : opField c = c.setWidth 8 :=
  (BitVec.setWidth_eq_extractLsb' (by decide)).symm

theorem legalCommand_iff (c : Word32) :
    legalCommand c = true ↔
      resField c = 0 ∧ opField c ∈ legalOps ∧ (m0Field c = false ∨ opField c = 0x21) := by
  simp only [legalCommand, Bool.and_eq_true, Bool.or_eq_true, Bool.not_eq_true', beq_iff_eq,
    List.contains_iff_mem, resField_eq_zero_iff, opField_eq_setWidth, m0Field, and_assoc]

theorem legalCommand_encode (i : Instr) : legalCommand (encode i) = true := by
  cases i with
  | rpush en => cases en <;> rfl
  | _ => rfl

/-- Every OP that R81 lists selects a command. -/
theorem exists_instrOfOp_of_mem {op : BitVec 8} (listed : op ∈ legalOps) : ∃ i, instrOfOp op = some i := by
  have selects : ∀ op ∈ legalOps, (instrOfOp op).isSome = true := by decide
  exact Option.isSome_iff_exists.mp (selects op listed)

/-- With RES 0, the OP's command is decoded, as M0 modifies it (R82). -/
theorem decode_of_instrOfOp {c : Word32} {i : Instr} (res : resField c = 0)
    (op : instrOfOp (opField c) = some i) : decode c = applyM0 i (m0Field c) := by
  rw [decode, if_neg (not_not.mpr res), op]

theorem exists_decode_iff (c : Word32) : (∃ i, decode c = .ok i) ↔ legalCommand c = true := by
  constructor
  · rintro ⟨i, decoded⟩
    rw [eq_encode_of_decode decoded, legalCommand_encode]
  · intro legal
    obtain ⟨res, listed, allowed⟩ := (legalCommand_iff c).mp legal
    obtain ⟨i, op⟩ := exists_instrOfOp_of_mem listed
    rw [decode_of_instrOfOp res op]
    cases m0 : m0Field c with
    | false => exact ⟨i, rfl⟩
    | true =>
      have isRpush : opField c = 0x21 := allowed.resolve_left (ne_false_of_eq_true m0)
      rw [isRpush] at op
      cases op
      exact ⟨.rpush true, rfl⟩

theorem exists_decodeError_of_illegal {c : Word32} (h : legalCommand c = false) : ∃ e, decode c = .error e := by
  cases decoded : decode c with
  | error e => exact ⟨e, rfl⟩
  | ok i =>
    have legal : legalCommand c = true := (exists_decode_iff c).mp ⟨i, decoded⟩
    exact absurd legal (ne_true_of_eq_false h)

/-- A write to CMD stores the word and issues it (R26). -/
theorem step_write_cmd {s : State} {value : Word64} {rest : List Event} (queued : s.host = .write 0x00 value :: rest) :
    step s = issue (value.setWidth 32) { s with host := rest, cmd := value.setWidth 32 } := by
  rw [step_cons queued, perform, hostWrite_cmd _ _ rfl]

/-- Settles O3: a word is illegal exactly when the decoder rejects it, and issuing a rejected word is error entry. -/
theorem illegalWordRaisesIllegalCommand : Obligations.IllegalWordRaisesIllegalCommand := by
  refine ⟨exists_decode_iff, fun s value rest queued clear unlawful => ?_⟩
  obtain ⟨e, rejected⟩ := exists_decodeError_of_illegal unlawful
  exact (step_write_cmd queued).trans (issue_of_illegal clear rejected)

/-- Settles O7: with ERR clear the issued word runs the command it decodes to. -/
theorem stepRunsDecodedCommand : Obligations.StepRunsDecodedCommand := fun _ _ _ _ queued clear decoded =>
  (step_write_cmd queued).trans (issue_of_legal clear decoded)

/-- Settles O8: with ERR set, issuing does nothing. -/
theorem commandsRefusedWhileInError : Obligations.CommandsRefusedWhileInError := fun _ _ _ queued inError =>
  (step_write_cmd queued).trans (issue_of_err _ inError)

/-- Settles O4: the decoder evaluated at each word. -/
theorem writtenWordsDecode : Obligations.WrittenWordsDecode := by
  unfold Obligations.WrittenWordsDecode
  decide

end Sys2Proof
end

section
/-! What each command that completes did (R86): which checks it passed and the state it ends in.  From that, the
registers it leaves unchanged (O21) and what it takes from IN and adds to OUT (O23). -/

namespace Sys2Proof.Machine

open Sys2Proof.Safety

/-! ### Completions, command by command -/

/-- A pseudocode completes past a check only when the check passes. -/
theorem guard_eq_ok_iff {α : Type} {c : Prop} [Decidable c] {e : Raise} {r : Except Raise α} {a : α} :
    (if c then .error e else r) = .ok a ↔ ¬ c ∧ r = .ok a := by
  split <;> simp [*]

section Completions

variable {s t : State}

theorem vdec_eq_ok (h : vdec s = .ok t) :
    ∃ n k, varIntDecodeAt 0 s = .ok (n, k) ∧ t = consume k { s with v := BitVec.ofNat 64 n } := by
  unfold vdec at h
  split at h
  case h_1 => nomatch h
  case h_2 n k decoded => exact ⟨n, k, decoded, (Except.ok.inj h).symm⟩

theorem quant_eq_ok (h : quant s = .ok t) :
    s.cnt.toNat ≤ s.input.length ∧ t = consume s.cnt.toNat (setQPal (quantizeFn (quantSamples s)) s) := by
  simp only [quant, illegal, guard_eq_ok_iff, Except.ok.injEq] at h
  obtain ⟨-, enough, rfl⟩ := h
  exact ⟨Nat.not_lt.mp enough, rfl⟩

theorem rdist_eq_ok (h : rdist s = .ok t) : t = setDPal (distinctFn (paletteOf s.qPal s.qLen)) s := by
  simp only [rdist, illegal, guard_eq_ok_iff, Except.ok.injEq] at h
  exact h.2.symm

theorem rpush_eq_ok {en : Bool} (h : rpush en s = .ok t) : ∃ p, t = setPPal p s := by
  simp only [rpush, illegal, guard_eq_ok_iff, Except.ok.injEq] at h
  exact ⟨_, h.2.symm⟩

theorem inear_eq_ok (h : inear s = .ok t) : ∃ n, t = setIdx n s := by
  simp only [inear, illegal, guard_eq_ok_iff, Except.ok.injEq] at h
  exact ⟨_, h.2.symm⟩

theorem iexact_eq_ok (h : iexact s = .ok t) : ∃ n, t = setIdx n s := by
  simp only [iexact, illegal, guard_eq_ok_iff] at h
  obtain ⟨-, h⟩ := h
  split at h
  case h_1 => nomatch h
  case h_2 j found => exact ⟨j + 1, (Except.ok.inj h).symm⟩

/-- CTADD found the entry, or appended it to a table with room. -/
theorem ctadd_eq_ok (h : ctadd s = .ok t) :
    s.ctLen.toNat ≤ 8
      ∧ ((∃ j, tableFind (normColor s.color) s = some j ∧ t = setIdx (j + 1) s)
        ∨ (tableFind (normColor s.color) s = none ∧ s.ctLen.toNat < 8
          ∧ t = setIdx (s.ctLen.toNat + 1) (tableAppend (normColor s.color) s))) := by
  simp only [ctadd, illegal, guard_eq_ok_iff, Bool.not_eq_true, tooLong_eq_false_iff] at h
  obtain ⟨short, h⟩ := h
  refine ⟨short, ?_⟩
  split at h
  case h_1 j found => exact .inl ⟨j, found, (Except.ok.inj h).symm⟩
  case h_2 absent =>
    obtain ⟨room, h⟩ := guard_eq_ok_iff.mp h
    exact .inr ⟨absent, lt_of_le_of_ne short room, (Except.ok.inj h).symm⟩

theorem rpack_eq_ok (h : rpack s = .ok t) : t = emit (packRun s.rIdx s.rLen.toNat) s := by
  simp only [rpack, guard_eq_ok_iff, Except.ok.injEq] at h
  exact h.2.symm

theorem runpk_eq_ok (h : runpk s = .ok t) :
    ∃ i c k, decodeRecord s = .ok (i, c, k) ∧ t = consume k (setRecord i c s) := by
  unfold runpk at h
  split at h
  case h_1 => nomatch h
  case h_2 i c k decoded => exact ⟨i, c, k, decoded, (Except.ok.inj h).symm⟩

theorem cwhdr_eq_ok (h : cwhdr s = .ok t) :
    t = openWriter (s.width.toNat * s.height.toNat)
      (emit (headerBytes s.width.toNat s.height.toNat s.alpha (tableOf s)) s) := by
  simp only [cwhdr, illegal, guard_eq_ok_iff, Except.ok.injEq] at h
  exact h.2.2.2.symm

theorem cwpix_eq_ok (h : cwpix s = .ok t) :
    s.status.cwOpen = true ∧ s.cwCnt ≠ s.cwTot ∧ t = appendPixels (wireIdx s) 1 s := by
  simp only [cwpix, illegal, guard_eq_ok_iff, Except.ok.injEq, Bool.not_eq_false] at h
  obtain ⟨opened, -, room, rfl⟩ := h
  exact ⟨opened, room, rfl⟩

theorem cwrun_eq_ok (h : cwrun s = .ok t) :
    s.status.cwOpen = true ∧ s.rLen ≠ 0 ∧ s.rLen.toNat ≤ s.cwTot.toNat - s.cwCnt.toNat
      ∧ t = appendPixels (wireIdx s) s.rLen s := by
  simp only [cwrun, illegal, guard_eq_ok_iff, Except.ok.injEq, Bool.not_eq_false] at h
  obtain ⟨opened, -, nonempty, room, rfl⟩ := h
  exact ⟨opened, nonempty, Nat.not_lt.mp room, rfl⟩

theorem cwend_eq_ok (h : cwend s = .ok t) :
    s.cwCnt = s.cwTot ∧ t = closeWriter (emit (pendingBytes s) s) := by
  simp only [cwend, illegal, guard_eq_ok_iff, Except.ok.injEq, not_not] at h
  obtain ⟨-, all, rfl⟩ := h
  exact ⟨all, rfl⟩

theorem crhdr_eq_ok (h : crhdr s = .ok t) :
    ∃ hd, parseHeader s = .ok hd ∧ t = consume hd.size (openReader hd s) := by
  simp only [crhdr, illegal, guard_eq_ok_iff] at h
  obtain ⟨-, h⟩ := h
  split at h
  case h_1 => nomatch h
  case h_2 hd parsed => exact ⟨hd, parsed, (Except.ok.inj h).symm⟩

theorem crrun_eq_ok (h : crrun s = .ok t) :
    ∃ i c k, decodeRecord s = .ok (i, c, k) ∧ c ≤ s.crRem.toNat
      ∧ t = consume k (coverSamples c (setIdx (i.toNat + 1) (setRecord i c s))) := by
  simp only [crrun, illegal, guard_eq_ok_iff] at h
  obtain ⟨-, h⟩ := h
  split at h
  case h_1 => nomatch h
  case h_2 i c k decoded =>
    simp only [guard_eq_ok_iff, Except.ok.injEq] at h
    obtain ⟨-, within, rfl⟩ := h
    exact ⟨i, c, k, decoded, Nat.not_lt.mp within, rfl⟩

end Completions

/-! ### What a completion leaves unchanged (R86) -/

/-- A command that ends with ERR clear has completed: error entry sets ERR. -/
theorem attempt_eq_ok_of_exec {i : Instr} {s t : State} (performed : exec i s = .next t)
    (clear : t.status.err = false) : attempt i s = .ok t := by
  obtain completed | ⟨e, -, rfl⟩ := (exec_eq_next_iff i s t).mp performed
  · exact completed
  · nomatch clear

theorem appendPixels_frame (i : BitVec 3) (m : Word64) (s : State) :
    appendPixels i m s = { s with
      output := (appendPixels i m s).output, outTot := (appendPixels i m s).outTot
      cwCnt := (appendPixels i m s).cwCnt, cwRIdx := (appendPixels i m s).cwRIdx
      cwRLen := (appendPixels i m s).cwRLen } := by
  unfold appendPixels
  split <;> rfl

theorem writesOnly_of_attempt_ok {i : Instr} {s t : State} (completed : attempt i s = .ok t) :
    WritesOnly s t i := by
  cases i with
  | venc =>
    cases completed
    rfl
  | vdec =>
    obtain ⟨n, k, -, rfl⟩ := vdec_eq_ok completed
    rfl
  | quant =>
    obtain ⟨-, rfl⟩ := quant_eq_ok completed
    rfl
  | rdist =>
    obtain rfl := rdist_eq_ok completed
    rfl
  | rpush en =>
    obtain ⟨p, rfl⟩ := rpush_eq_ok completed
    rfl
  | inear =>
    obtain ⟨n, rfl⟩ := inear_eq_ok completed
    rfl
  | iexact =>
    obtain ⟨n, rfl⟩ := iexact_eq_ok completed
    rfl
  | ctadd =>
    obtain ⟨-, ⟨j, -, rfl⟩ | ⟨-, -, rfl⟩⟩ := ctadd_eq_ok completed
    · rfl
    · rfl
  | ctclr =>
    cases completed
    rfl
  | rpack =>
    obtain rfl := rpack_eq_ok completed
    rfl
  | runpk =>
    obtain ⟨i, c, k, -, rfl⟩ := runpk_eq_ok completed
    rfl
  | cwhdr =>
    obtain rfl := cwhdr_eq_ok completed
    rfl
  | cwpix =>
    obtain ⟨-, -, rfl⟩ := cwpix_eq_ok completed
    exact appendPixels_frame ..
  | cwrun =>
    obtain ⟨-, -, -, rfl⟩ := cwrun_eq_ok completed
    exact appendPixels_frame ..
  | cwend =>
    obtain ⟨-, rfl⟩ := cwend_eq_ok completed
    rfl
  | crhdr =>
    obtain ⟨hd, -, rfl⟩ := crhdr_eq_ok completed
    rfl
  | crrun =>
    obtain ⟨i, c, k, -, -, rfl⟩ := crrun_eq_ok completed
    rfl

/-- Settles O21: a command that ends with ERR clear has completed. -/
theorem commandsWriteOnlyTheirRegisters : Obligations.CommandsWriteOnlyTheirRegisters :=
  fun _ _ _ _ performed clear => writesOnly_of_attempt_ok (attempt_eq_ok_of_exec performed clear)

/-! ### The bytes a completion takes and adds (R62, R63) -/

/-- `t` has the streams of `s`, with the `k` oldest bytes of IN consumed and `xs` appended to OUT. -/
structure Advances (s t : State) (k : Nat) (xs : List Byte) : Prop where
  available : k ≤ s.input.length
  input : t.input = s.input.drop k
  inPos : t.inPos = s.inPos + k
  output : t.output = s.output ++ xs
  outTot : t.outTot = s.outTot + xs.length

/-- Both streams with their totals, as one value. -/
def streams (s : State) : List Byte × Nat × List Byte × Nat := (s.input, s.inPos, s.output, s.outTot)

namespace Advances

variable {s t u : State} {k : Nat} {xs : List Byte}

theorem of_streams_eq (same : streams u = streams s) : Advances s u 0 [] := by
  simp only [streams, Prod.mk.injEq] at same
  obtain ⟨input, inPos, output, outTot⟩ := same
  exact ⟨Nat.zero_le _, input, inPos, output.trans (List.append_nil _).symm, outTot⟩

theorem consumed (same : streams u = streams s) (available : k ≤ s.input.length) :
    Advances s (consume k u) k [] := by
  simp only [streams, Prod.mk.injEq] at same
  obtain ⟨input, inPos, output, outTot⟩ := same
  exact ⟨available, congrArg (List.drop k) input, congrArg (· + k) inPos,
    output.trans (List.append_nil _).symm, outTot⟩

theorem emitted (same : streams t = streams (emit xs s)) : Advances s t 0 xs := by
  simp only [streams, Prod.mk.injEq] at same
  obtain ⟨input, inPos, output, outTot⟩ := same
  exact ⟨Nat.zero_le _, input, inPos, output, outTot⟩

end Advances

theorem le_length_of_varIntLoop_ok {pos k acc n m : Nat} {bs : List Byte}
    (h : varIntLoop pos k acc bs = .ok (n, m)) : m ≤ k + bs.length := by
  induction bs generalizing pos k acc with
  | nil => nomatch h
  | cons b bs ih =>
    rw [varIntLoop, guard_eq_ok_iff] at h
    obtain ⟨-, h⟩ := h
    rw [List.length_cons]
    split at h
    · have := ih h
      omega
    · cases h
      omega

theorem le_length_of_varIntDecodeAt_ok {s : State} {n k : Nat} (h : varIntDecodeAt 0 s = .ok (n, k)) :
    k ≤ s.input.length := by
  simpa using le_length_of_varIntLoop_ok h

theorem le_length_of_recordFields {b0 : Byte} {rest : List Byte} {i : BitVec 3} {c k : Nat}
    (h : recordFields b0 rest = some (i, c, k)) : k ≤ rest.length + 1 := by
  unfold recordFields at h
  split at h
  · split at h
    · nomatch h
    · cases h
      simp
  · cases h
    simp

theorem le_length_of_decodeRecordAt_ok {pos : Nat} {bs : List Byte} {i : BitVec 3} {c k : Nat}
    (h : decodeRecordAt pos bs = .ok (i, c, k)) : k ≤ bs.length := by
  cases bs with
  | nil => nomatch h
  | cons b0 rest =>
    rw [decodeRecordAt] at h
    split at h
    · nomatch h
    · next fields =>
      obtain ⟨-, h⟩ := guard_eq_ok_iff.mp h
      cases h
      exact le_length_of_recordFields fields

theorem le_length_of_parseTable_ok {p size : Nat} {s : State} {a : BitVec 1} {table : List Word32}
    (h : parseTable p s = .ok (a, table, size)) : size ≤ s.input.length := by
  unfold parseTable at h
  split at h
  · nomatch h
  · simp only [guard_eq_ok_iff, Except.ok.injEq, Prod.mk.injEq] at h
    obtain ⟨-, complete, -, -, rfl⟩ := h
    exact Nat.not_lt.mp complete

/-- A parsed header lies within IN, and its image has less than 2^64 samples. -/
theorem parseHeader_eq_ok {s : State} {hd : Header} (h : parseHeader s = .ok hd) :
    hd.size ≤ s.input.length ∧ hd.width * hd.height < 2 ^ 64 := by
  unfold parseHeader at h
  split at h
  · nomatch h
  dsimp only at h
  split at h
  · nomatch h
  split at h
  · nomatch h
  obtain ⟨small, h⟩ := guard_eq_ok_iff.mp h
  split at h
  · nomatch h
  · next parsed =>
    cases h
    exact ⟨le_length_of_parseTable_ok parsed, Nat.not_le.mp small⟩

theorem exists_streams_appendPixels (i : BitVec 3) (m : Word64) (s : State) :
    ∃ xs, streams (appendPixels i m s) = streams (emit xs s) := by
  unfold appendPixels
  split
  · exact ⟨[], (congrArg streams (emit_nil s)).symm⟩
  · exact ⟨pendingBytes s, rfl⟩

theorem advances_of_attempt_ok {i : Instr} {s t : State} (completed : attempt i s = .ok t) :
    ∃ k xs, Advances s t k xs := by
  have frame : WritesOnly s t i := writesOnly_of_attempt_ok completed
  cases i with
  | rdist | rpush | inear | iexact | ctadd | ctclr =>
    exact ⟨0, [], .of_streams_eq ((congrArg streams frame).trans rfl)⟩
  | venc =>
    cases completed
    exact ⟨0, _, .emitted rfl⟩
  | vdec =>
    obtain ⟨n, k, decoded, rfl⟩ := vdec_eq_ok completed
    exact ⟨k, [], .consumed rfl (le_length_of_varIntDecodeAt_ok decoded)⟩
  | quant =>
    obtain ⟨enough, rfl⟩ := quant_eq_ok completed
    exact ⟨_, [], .consumed rfl enough⟩
  | rpack =>
    obtain rfl := rpack_eq_ok completed
    exact ⟨0, _, .emitted rfl⟩
  | runpk =>
    obtain ⟨i, c, k, decoded, rfl⟩ := runpk_eq_ok completed
    exact ⟨k, [], .consumed rfl (le_length_of_decodeRecordAt_ok decoded)⟩
  | cwhdr =>
    obtain rfl := cwhdr_eq_ok completed
    exact ⟨0, _, .emitted rfl⟩
  | cwpix =>
    obtain ⟨-, -, rfl⟩ := cwpix_eq_ok completed
    obtain ⟨xs, same⟩ := exists_streams_appendPixels (wireIdx s) 1 s
    exact ⟨0, xs, .emitted same⟩
  | cwrun =>
    obtain ⟨-, -, -, rfl⟩ := cwrun_eq_ok completed
    obtain ⟨xs, same⟩ := exists_streams_appendPixels (wireIdx s) s.rLen s
    exact ⟨0, xs, .emitted same⟩
  | cwend =>
    obtain ⟨-, rfl⟩ := cwend_eq_ok completed
    exact ⟨0, _, .emitted rfl⟩
  | crhdr =>
    obtain ⟨hd, parsed, rfl⟩ := crhdr_eq_ok completed
    exact ⟨hd.size, [], .consumed rfl (parseHeader_eq_ok parsed).1⟩
  | crrun =>
    obtain ⟨i, c, k, decoded, -, rfl⟩ := crrun_eq_ok completed
    exact ⟨k, [], .consumed rfl (le_length_of_decodeRecordAt_ok decoded)⟩

/-- Settles O23: a completion advances the streams with ERR still clear, and error entry leaves them alone. -/
theorem commandsConsumeAndAppend : Obligations.CommandsConsumeAndAppend := by
  intro i s t clear performed
  obtain completed | ⟨e, -, rfl⟩ := (exec_eq_next_iff i s t).mp performed
  · have kept : t.status.err = s.status.err := congrArg Prod.fst (errorRegs_of_attempt_ok completed)
    obtain ⟨k, xs, available, input, inPos, output, outTot⟩ := advances_of_attempt_ok completed
    refine ⟨k, xs, available, input, inPos, output, outTot, fun raised => ?_⟩
    rw [kept, clear] at raised
    nomatch raised
  · exact ⟨0, [], Nat.zero_le _, rfl, rfl, (List.append_nil _).symm, rfl, fun _ => ⟨rfl, rfl⟩⟩

end Sys2Proof.Machine
end

section
/-! The invariant of Safety (R27-R29, R32, R45, R46, R205-R211): each part is kept by the commands that write its
registers, and by every other event of the host interface, so every step keeps it (O24, O25). -/

namespace Sys2Proof.Machine

open Sys2Proof.Safety

/-! ### Errors (R251) -/

theorem errorOk_errorEntry (e : Raise) (c : Word32) (s : State) : ErrorOk (errorEntry e c s) := by
  have code : ∀ kind : ErrorKind, 1 ≤ kind.code.toNat ∧ kind.code.toNat ≤ 7 := by
    intro kind
    cases kind <;> decide
  exact ⟨fun clear => (nomatch clear), fun _ => code e.kind⟩

theorem errorOk_of_errorRegs_eq {s t : State} (same : errorRegs t = errorRegs s) (ok : ErrorOk s) : ErrorOk t := by
  simp only [errorRegs, Prod.mk.injEq] at same
  obtain ⟨err, errCode, errCmd, errPos⟩ := same
  rw [ErrorOk, err, errCode, errCmd, errPos]
  exact ok

theorem inv_errorEntry {s : State} (e : Raise) (c : Word32) (inv : Inv s) : Inv (errorEntry e c s) := by
  obtain ⟨-, writer, reader, stream⟩ := inv
  exact ⟨errorOk_errorEntry e c s, writer, reader, stream⟩

/-! ### The writer (R205-R209) -/

/-- What the writer's part speaks of, as one value. -/
def writerRegs (s : State) : Bool × Word64 × Word64 × Word64 :=
  (s.status.cwOpen, s.cwTot, s.cwCnt, s.cwRLen)

theorem writerOk_of_writerRegs_eq {s t : State} (same : writerRegs t = writerRegs s) (ok : WriterOk s) :
    WriterOk t := by
  simp only [writerRegs, Prod.mk.injEq] at same
  obtain ⟨cwOpen, cwTot, cwCnt, cwRLen⟩ := same
  rw [WriterOk, cwOpen, cwTot, cwCnt, cwRLen]
  exact ok

theorem toNat_eq_zero_iff {w : Nat} (x : BitVec w) : x.toNat = 0 ↔ x = 0 := BitVec.toNat_inj (y := 0)

/-- A sum within a 64-bit total does not wrap. -/
theorem toNat_add_of_le {x m total : Word64} (within : x.toNat + m.toNat ≤ total.toNat) :
    (x + m).toNat = x.toNat + m.toNat :=
  BitVec.toNat_add_of_lt (within.trans_lt total.isLt)

/-- Pixels of the pending run's index lengthen it, other ones start a run of their own; both count. -/
theorem writerRegs_appendPixels (i : BitVec 3) (m : Word64) (s : State) :
    writerRegs (appendPixels i m s)
      = (s.status.cwOpen, s.cwTot, s.cwCnt + m,
          if s.cwRLen ≠ 0 ∧ s.cwRIdx = i then s.cwRLen + m else m) := by
  unfold appendPixels
  split <;> rfl

/-- One pixel or more, within the total, keep the pending run part of the pixels accepted. -/
theorem writerOk_appendPixels {s : State} (i : BitVec 3) {m : Word64} (ok : WriterOk s)
    (opened : s.status.cwOpen = true) (nonzero : m ≠ 0) (within : s.cwCnt.toNat + m.toNat ≤ s.cwTot.toNat) :
    WriterOk (appendPixels i m s) := by
  obtain ⟨pending, accepted, -, -⟩ := ok
  have positive : 0 < m.toNat := BitVec.toNat_pos_of_ne_zero nonzero
  have counted : (s.cwCnt + m).toNat = s.cwCnt.toNat + m.toNat := toNat_add_of_le within
  have longer : (s.cwRLen + m).toNat = s.cwRLen.toNat + m.toNat := toNat_add_of_le (total := s.cwTot) (by omega)
  have regs := writerRegs_appendPixels i m s
  simp only [writerRegs, Prod.mk.injEq] at regs
  obtain ⟨cwOpen, cwTot, cwCnt, cwRLen⟩ := regs
  rw [WriterOk, cwOpen, cwTot, cwCnt, cwRLen, counted]
  refine ⟨?_, within, fun _ => ?_, fun closed => absurd (opened.symm.trans closed) Bool.true_eq_false.mp⟩
  · split <;> omega
  · rw [← toNat_eq_zero_iff, ← toNat_eq_zero_iff (s.cwCnt + m), counted]
    split <;> omega

theorem writerOk_of_attempt_ok {i : Instr} {s t : State} (ok : WriterOk s) (completed : attempt i s = .ok t) :
    WriterOk t := by
  obtain ⟨pending, accepted, -, -⟩ := id ok
  have frame : WritesOnly s t i := writesOnly_of_attempt_ok completed
  cases i with
  | cwhdr =>
    obtain rfl := cwhdr_eq_ok completed
    exact ⟨Nat.zero_le _, Nat.zero_le _, fun _ => ⟨fun _ => rfl, fun _ => rfl⟩, fun closed => nomatch closed⟩
  | cwpix =>
    obtain ⟨opened, room, rfl⟩ := cwpix_eq_ok completed
    have differ : s.cwCnt.toNat ≠ s.cwTot.toNat := fun same => room (BitVec.eq_of_toNat_eq same)
    have one : (1 : Word64).toNat = 1 := rfl
    exact writerOk_appendPixels _ ok opened (by decide) (by omega)
  | cwrun =>
    obtain ⟨opened, nonempty, room, rfl⟩ := cwrun_eq_ok completed
    exact writerOk_appendPixels _ ok opened nonempty (by omega)
  | cwend =>
    obtain ⟨all, rfl⟩ := cwend_eq_ok completed
    exact ⟨Nat.zero_le _, accepted, fun opened => (nomatch opened), fun _ => ⟨rfl, all⟩⟩
  | _ => exact writerOk_of_writerRegs_eq ((congrArg writerRegs frame).trans rfl) ok

/-! ### The reader (R210, R211) -/

/-- What the reader's part speaks of, as one value. -/
def readerRegs (s : State) : Bool × Word64 := (s.status.crOpen, s.crRem)

theorem readerOk_of_readerRegs_eq {s t : State} (same : readerRegs t = readerRegs s) (ok : ReaderOk s) :
    ReaderOk t := by
  simp only [readerRegs, Prod.mk.injEq] at same
  obtain ⟨crOpen, crRem⟩ := same
  rw [ReaderOk, crOpen, crRem]
  exact ok

/-- A number of samples that fits CRREM is positive exactly when CRREM is not 0. -/
theorem readerOk_of_rest {s : State} {n : Nat} (small : n < 2 ^ 64)
    (regs : readerRegs s = (decide (0 < n), BitVec.ofNat 64 n)) : ReaderOk s := by
  simp only [readerRegs, Prod.mk.injEq] at regs
  obtain ⟨crOpen, crRem⟩ := regs
  have value : (BitVec.ofNat 64 n).toNat = n := by
    rw [BitVec.toNat_ofNat, Nat.mod_eq_of_lt small]
  rw [ReaderOk, crOpen, crRem, decide_eq_decide, ne_eq, ← toNat_eq_zero_iff, value]
  exact Nat.pos_iff_ne_zero

theorem readerOk_of_attempt_ok {i : Instr} {s t : State} (ok : ReaderOk s) (completed : attempt i s = .ok t) :
    ReaderOk t := by
  have frame : WritesOnly s t i := writesOnly_of_attempt_ok completed
  cases i with
  | crhdr =>
    obtain ⟨hd, parsed, rfl⟩ := crhdr_eq_ok completed
    obtain ⟨-, small⟩ := parseHeader_eq_ok parsed
    exact readerOk_of_rest small rfl
  | crrun =>
    obtain ⟨i, c, k, -, -, rfl⟩ := crrun_eq_ok completed
    exact readerOk_of_rest ((Nat.sub_le _ c).trans_lt s.crRem.isLt) rfl
  | _ => exact readerOk_of_readerRegs_eq ((congrArg readerRegs frame).trans rfl) ok

/-! ### Commands and events -/

theorem streamOk_of_attempt_ok {i : Instr} {s t : State} (ok : StreamOk s) (completed : attempt i s = .ok t) :
    StreamOk t := by
  obtain ⟨k, xs, -, -, -, output, outTot⟩ := advances_of_attempt_ok completed
  rw [StreamOk, output, outTot, List.length_append]
  exact Nat.add_le_add_right ok _

theorem inv_of_exec {i : Instr} {s t : State} (inv : Inv s) (performed : exec i s = .next t) : Inv t := by
  obtain completed | ⟨e, -, rfl⟩ := (exec_eq_next_iff i s t).mp performed
  · obtain ⟨error, writer, reader, stream⟩ := inv
    exact ⟨errorOk_of_errorRegs_eq (errorRegs_of_attempt_ok completed) error,
      writerOk_of_attempt_ok writer completed, readerOk_of_attempt_ok reader completed,
      streamOk_of_attempt_ok stream completed⟩
  · exact inv_errorEntry e _ inv

/-- Issuing a word does nothing, takes error entry, or performs a command (R26, R83, R253). -/
theorem issue_cases (c : Word32) (s : State) :
    (s.status.err = true ∧ issue c s = .next s)
      ∨ (s.status.err = false ∧ issue c s = .next (errorEntry ⟨.illegalCommand, s.inPos⟩ c s))
      ∨ (s.status.err = false ∧ ∃ i, issue c s = exec i s) := by
  cases err : s.status.err with
  | true => exact .inl ⟨rfl, issue_of_err c err⟩
  | false =>
    cases decoded : decode c with
    | error e => exact .inr (.inl ⟨rfl, issue_of_illegal err decoded⟩)
    | ok i => exact .inr (.inr ⟨rfl, i, issue_of_legal err decoded⟩)

theorem inv_of_issue {c : Word32} {s t : State} (inv : Inv s) (issued : issue c s = .next t) : Inv t := by
  obtain ⟨-, stored⟩ | ⟨-, rejected⟩ | ⟨-, i, performed⟩ := issue_cases c s
  · cases stored.symm.trans issued
    exact inv
  · cases rejected.symm.trans issued
    exact inv_errorEntry _ c inv
  · exact inv_of_exec inv (performed.symm.trans issued)

theorem streamOk_writeCtrl {s : State} (value : Word64) (ok : StreamOk s) : StreamOk (writeCtrl value s) := by
  rw [writeCtrl]
  split
  · exact Nat.zero_le _
  · split <;> exact ok

/-- CTRL writes streams only, so of the invariant only their part is at stake (R30). -/
theorem inv_writeCtrl {s : State} (value : Word64) (inv : Inv s) : Inv (writeCtrl value s) := by
  obtain ⟨error, writer, reader, stream⟩ := inv
  have kept : errorRegs (writeCtrl value s) = errorRegs s ∧ writerRegs (writeCtrl value s) = writerRegs s
      ∧ readerRegs (writeCtrl value s) = readerRegs s := by
    rw [writeCtrl]
    split <;> split <;> exact ⟨rfl, rfl, rfl⟩
  obtain ⟨sameError, sameWriter, sameReader⟩ := kept
  exact ⟨errorOk_of_errorRegs_eq sameError error, writerOk_of_writerRegs_eq sameWriter writer,
    readerOk_of_readerRegs_eq sameReader reader, streamOk_writeCtrl value stream⟩

theorem inv_writeReg {s : State} (r : Reg) (value : Word64) (inv : Inv s) : Inv (writeReg r value s) := by
  cases r with
  | ctrl => exact inv_writeCtrl value inv
  | _ => exact inv

theorem inv_hostRead {s : State} (num : BitVec 8) (inv : Inv s) : Inv (hostRead num s) := by
  cases mapped : Reg.ofNumber num with
  | none =>
    rw [hostRead_unmapped s mapped]
    exact inv
  | some r =>
    rw [hostRead_mapped s mapped]
    cases r with
    | outData =>
      obtain ⟨error, writer, reader, stream⟩ := inv
      have fewer : s.output.tail.length ≤ s.output.length := (List.tail_sublist _).length_le
      exact ⟨error, writer, reader, fewer.trans stream⟩
    | _ => exact inv

/-- A host write does nothing, stores to a register, or stores a command word and issues it. -/
theorem hostWrite_cases (num : BitVec 8) (value : Word64) (s : State) :
    hostWrite num value s = .next s
      ∨ (∃ r, r ≠ .cmd ∧ hostWrite num value s = .next (writeReg r value s))
      ∨ hostWrite num value s = issue (value.setWidth 32) { s with cmd := value.setWidth 32 } := by
  cases mapped : Reg.ofNumber num with
  | none => exact .inl (hostWrite_unmapped value s mapped)
  | some r =>
    by_cases isCmd : r = .cmd
    · exact .inr (.inr (hostWrite_cmd value s (isCmd ▸ mapped)))
    · exact .inr (.inl ⟨r, isCmd, hostWrite_of_ne_cmd value s mapped isCmd⟩)

theorem inv_of_hostWrite {num : BitVec 8} {value : Word64} {s t : State} (inv : Inv s)
    (written : hostWrite num value s = .next t) : Inv t := by
  obtain ignored | ⟨r, -, stored⟩ | issued := hostWrite_cases num value s
  · cases ignored.symm.trans written
    exact inv
  · cases stored.symm.trans written
    exact inv_writeReg r value inv
  · have wordStored : Inv { s with cmd := value.setWidth 32 } := inv
    exact inv_of_issue wordStored (issued.symm.trans written)

/-- Settles O25: at reset every counter is 0 and no flag is set. -/
theorem resetHasInvariant : Obligations.ResetHasInvariant := by
  unfold Obligations.ResetHasInvariant
  decide

theorem inv_of_perform {e : Event} {s t : State} (inv : Inv s) (performed : perform e s = .next t) : Inv t := by
  cases e with
  | write num value => exact inv_of_hostWrite inv performed
  | read num =>
    cases performed
    exact inv_hostRead num inv
  | hardReset =>
    cases performed
    exact resetHasInvariant

/-- Settles O24: the invariant does not speak of the queue, and every event keeps it. -/
theorem stepKeepsInvariant : Obligations.StepKeepsInvariant := by
  intro s t inv stepped
  cases queued : s.host with
  | nil =>
    cases (step_nil queued).symm.trans stepped
    exact inv
  | cons e rest =>
    have sameButQueue : Inv { s with host := rest } := inv
    exact inv_of_perform sameButQueue ((step_cons queued).symm.trans stepped)

end Sys2Proof.Machine
end

section
/-! The host interface (R20, R23-R32, R91-R93, R252, R270): the register map (O5), the pseudo-instructions (O6), what
a host write (O9, O10, O13, O14) and a host read (O11, O12, O15, O16) do, the reset (O17), and every step (O18, O19).
-/

namespace Sys2Proof.Machine

open Sys2Proof.Safety

/-! ### The register map (R23) -/

/-- The register files have 8 numbers each, evaluated one by one; any other register has one. -/
@[simp] theorem ofNumber_number (r : Reg) : Reg.ofNumber r.number = some r := by
  cases r with
  | qPal i | dPal i | pPal i | ct i =>
    revert i
    decide
  | _ => rfl

/-- The map evaluated at each of its 256 numbers. -/
theorem ofNumber_eq_none_iff (n : BitVec 8) :
    Reg.ofNumber n = none ↔
      (0x0B ≤ n.toNat ∧ n.toNat ≤ 0x0F) ∨ (0x1A ≤ n.toNat ∧ n.toNat ≤ 0x1F)
        ∨ (0x3B ≤ n.toNat ∧ n.toNat ≤ 0x3F) ∨ (0x49 ≤ n.toNat ∧ n.toNat ≤ 0x4F)
        ∨ (0x54 ≤ n.toNat ∧ n.toNat ≤ 0x57) ∨ 0x59 ≤ n.toNat := by
  revert n
  decide

/-- Settles O5: the numbers by evaluation, and the map inverse to them. -/
theorem registerNumbersFollowTheMap : Obligations.RegisterNumbersFollowTheMap := by
  exact ⟨by decide, by decide, by decide, by decide, ofNumber_number, ofNumber_eq_none_iff⟩

/-! ### The pseudo-instructions (R93) -/

/-- The lines of SETQ and SETD as events: entry `k` of the file has the number `base + k`. -/
theorem paletteLines_events {entry : Fin 8 → Reg} {base : Nat} (len : Reg) {es : List Nat}
    (numbers : ∀ i : Fin 8, (entry i).number = BitVec.ofNat 8 (base + i.val)) (short : es.length ≤ 8) :
    (paletteLines entry len es).map Line.event =
      (es.zipIdx.map fun e => .write (BitVec.ofNat 8 (base + e.2)) (BitVec.ofNat 64 e.1))
        ++ [.write len.number (BitVec.ofNat 64 es.length)] := by
  rw [paletteLines, List.map_append, List.map_map]
  refine congrArg (· ++ _) (List.map_congr_left fun e he => ?_)
  have position : e.2 < 8 := by
    have := List.snd_lt_of_mem_zipIdx he
    omega
  have index : (Fin.ofNat 8 e.2).val = e.2 := Nat.mod_eq_of_lt position
  show Event.write (entry (Fin.ofNat 8 e.2)).number (BitVec.ofNat 64 e.1) = _
  rw [numbers, index]

/-- Settles O6: the lines of each expansion, encoded. -/
theorem pseudoInstructionsExpand : Obligations.PseudoInstructionsExpand := by
  refine ⟨fun k bytes => List.map_map, fun k => List.map_replicate, fun _ _ => rfl, fun k es short => ?setq,
    fun k es short => ?setd, fun _ _ _ _ => rfl, fun _ => rfl, fun _ _ => rfl, fun _ _ _ => rfl, fun _ => rfl⟩
  case setq => exact paletteLines_events (base := 0x20) .qLen (fun _ => rfl) short
  case setd => exact paletteLines_events (base := 0x28) .dLen (fun _ => rfl) short

/-! ### Host writes (R24, R30, R31) -/

section Writes

variable {s : State} {r : Reg} {value : Word64} {rest : List Event}

/-- A host write to a register other than CMD is `writeReg`, with the operation taken from the queue. -/
theorem step_write_of_ne_cmd (queued : s.host = .write r.number value :: rest) (notCmd : r ≠ .cmd) :
    step s = .next (writeReg r value { s with host := rest }) := by
  rw [step_cons queued, perform, hostWrite_of_ne_cmd value _ (ofNumber_number r) notCmd]

/-- A read-only register ignores what is written to it. -/
theorem writeReg_of_readOnly (s : State) (value : Word64) (fixed : readOnlyReg r = true) :
    writeReg r value s = s := by
  cases r <;> first | rfl | nomatch fixed

/-- A register that is only stored to is no stream and no part of the host's own fields. -/
theorem writeReg_stored_frame (s : State) (value : Word64) (stored : storedReg r = true) :
    streams (writeReg r value s) = streams s ∧ (writeReg r value s).errPos = s.errPos
      ∧ (writeReg r value s).host = s.host ∧ (writeReg r value s).reads = s.reads := by
  cases r with
  | ctrl | inData => nomatch stored
  | _ => exact ⟨rfl, rfl, rfl, rfl⟩

/-- A narrow register shows the low bits of the value written to it, zero-extended. -/
theorem toNat_setWidth_setWidth {k : Nat} (narrow : k ≤ 64) (value : Word64) :
    ((value.setWidth k).setWidth 64).toNat = value.toNat % 2 ^ k := by
  have fits : value.toNat % 2 ^ k < 2 ^ 64 :=
    (Nat.mod_lt _ (Nat.two_pow_pos k)).trans_le (Nat.pow_le_pow_right (by decide) narrow)
  rw [BitVec.toNat_setWidth, BitVec.toNat_setWidth, Nat.mod_eq_of_lt fits]

theorem readReg_writeReg_same (s : State) (value : Word64) (stored : storedReg r = true) :
    (readReg r (writeReg r value s)).toNat = value.toNat % 2 ^ regWidth r := by
  cases r with
  | v | cnt | rLen | width | height => exact (Nat.mod_eq_of_lt value.isLt).symm
  | rIdx | alpha | sample | color | idx | qLen | dLen | ppLen | ctLen =>
    exact toNat_setWidth_setWidth (by decide) value
  | qPal i | dPal i | pPal i | ct i =>
    simp only [readReg, writeReg, Vector.getElem_set_self]
    exact toNat_setWidth_setWidth (by decide) value
  | _ => nomatch stored

/-- After a write to one entry of a register file the others show what they did. -/
theorem setWidth_getElem_set_other {k : Nat} {file : Vector (BitVec k) 8} {x : BitVec k} {i j : Fin 8}
    (differ : j ≠ i) : ((file.set i.val x)[j.val]).setWidth 64 = (file[j.val]).setWidth 64 := by
  rw [Vector.getElem_set_ne i.isLt j.isLt (Fin.val_ne_of_ne differ.symm)]

theorem readReg_writeReg_other {r' : Reg} (s : State) (value : Word64) (stored : storedReg r = true)
    (differ : r' ≠ r) : readReg r' (writeReg r value s) = readReg r' s := by
  cases r with
  | qPal i =>
    cases r' with
    | qPal j => exact setWidth_getElem_set_other fun same => differ (congrArg _ same)
    | _ => rfl
  | dPal i =>
    cases r' with
    | dPal j => exact setWidth_getElem_set_other fun same => differ (congrArg _ same)
    | _ => rfl
  | pPal i =>
    cases r' with
    | pPal j => exact setWidth_getElem_set_other fun same => differ (congrArg _ same)
    | _ => rfl
  | ct i =>
    cases r' with
    | ct j => exact setWidth_getElem_set_other fun same => differ (congrArg _ same)
    | _ => rfl
  | v | cnt | rIdx | rLen | width | height | alpha | sample | color | idx | qLen | dLen | ppLen | ctLen =>
    cases r' <;> first | rfl | exact absurd rfl differ
  | _ => nomatch stored

end Writes

/-- Settles O9: such a write is one update of a field that only its register shows. -/
theorem hostWriteStoresLowBits : Obligations.HostWriteStoresLowBits := by
  intro s r value rest stored queued
  have notCmd : r ≠ .cmd := fun isCmd => by
    rw [isCmd] at stored
    nomatch stored
  obtain ⟨sameStreams, errPos, host, reads⟩ := writeReg_stored_frame { s with host := rest } value stored
  simp only [streams, Prod.mk.injEq] at sameStreams
  obtain ⟨input, inPos, output, outTot⟩ := sameStreams
  refine ⟨_, step_write_of_ne_cmd queued notCmd, readReg_writeReg_same _ value stored, fun r' differ => ?_,
    input, output, inPos, outTot, errPos, host, reads⟩
  rw [readReg_writeReg_other _ value stored differ]
  cases r' <;> rfl

/-- Settles O10: the number names a register that ignores the value, or none. -/
theorem hostWriteIgnoredElsewhere : Obligations.HostWriteIgnoredElsewhere := by
  intro s num value rest queued fixed
  rw [step_cons queued, perform]
  cases mapped : Reg.ofNumber num with
  | none => exact hostWrite_unmapped value _ mapped
  | some r =>
    have notCmd : r ≠ .cmd := fun isCmd => by
      have readOnly := fixed r mapped
      rw [isCmd] at readOnly
      nomatch readOnly
    rw [hostWrite_of_ne_cmd value _ mapped notCmd, writeReg_of_readOnly _ value (fixed r mapped)]

/-- INCLR and OUTCLR are the two low bits of the value (R30). -/
theorem writeCtrl_eq (value : Word64) (s : State) :
    writeCtrl value s = { s with
      input := if value.toNat % 2 = 1 then [] else s.input
      inPos := if value.toNat % 2 = 1 then 0 else s.inPos
      output := if value.toNat / 2 % 2 = 1 then [] else s.output
      outTot := if value.toNat / 2 % 2 = 1 then 0 else s.outTot } := by
  have inClear : value.getLsbD 0 = decide (value.toNat % 2 = 1) := Nat.testBit_zero ..
  have outClear : value.getLsbD 1 = decide (value.toNat / 2 % 2 = 1) := Nat.testBit_eq_decide_div_mod_eq
  simp only [writeCtrl, inClear, outClear, decide_eq_true_eq]
  split <;> split <;> rfl

/-- Settles O13: a write of CTRL is `writeCtrl`. -/
theorem ctrlClearsStreams : Obligations.CtrlClearsStreams := by
  intro s value rest queued
  rw [step_write_of_ne_cmd (r := .ctrl) queued (by decide), writeReg, writeCtrl_eq]

/-- Settles O14: the byte appended is the low byte of the value. -/
theorem inDataWriteAppendsByte : Obligations.InDataWriteAppendsByte := by
  intro s value rest queued
  have low : value.setWidth 8 = BitVec.ofNat 8 (value.toNat % 256) := by
    apply BitVec.eq_of_toNat_eq
    rw [BitVec.toNat_setWidth, BitVec.toNat_ofNat, Nat.mod_mod]
  rw [step_write_of_ne_cmd (r := .inData) queued (by decide), writeReg, appendIn, low]

/-! ### Host reads (R25, R27, R32) -/

theorem step_read {s : State} {num : BitVec 8} {rest : List Event} (queued : s.host = .read num :: rest) :
    step s = .next (hostRead num { s with host := rest }) := by
  rw [step_cons queued, perform]

/-- What a register shows does not depend on the coming operations. -/
theorem readReg_with_host (r : Reg) (s : State) (rest : List Event) :
    readReg r { s with host := rest } = readReg r s := by
  cases r <;> rfl

theorem toNat_setWidth_lt {k : Nat} (x : BitVec k) : (x.setWidth 64).toNat < 2 ^ k := by
  rw [BitVec.toNat_setWidth]
  exact (Nat.mod_le _ _).trans_lt x.isLt

theorem readReg_lt (r : Reg) (s : State) : (readReg r s).toNat < 2 ^ regWidth r := by
  cases r with
  | ctrl | inData => exact Nat.two_pow_pos _
  | v | cnt | rLen | width | height | cwTot | cwCnt | cwRLen | crRem | errPos | inCnt | inPos | outCnt | outTot =>
    exact BitVec.isLt _
  | _ => exact toNat_setWidth_lt _

/-- Settles O11: reading has an effect for OUTDATA alone, and the values are the fields of the state. -/
theorem hostReadReturnsTheRegister : Obligations.HostReadReturnsTheRegister := by
  refine ⟨?mapped, ?unmapped, fun s r => readReg_lt r s, fun _ => ⟨rfl, rfl⟩, fun _ => ⟨rfl, rfl, rfl⟩,
    fun _ => ⟨rfl, rfl, rfl, rfl, rfl, rfl, rfl, rfl, rfl, rfl⟩, fun _ _ => ⟨rfl, rfl, rfl, rfl⟩,
    fun _ => ⟨rfl, rfl, rfl, rfl⟩, fun _ => ⟨rfl, rfl, rfl, rfl, rfl⟩⟩
  case mapped =>
    intro s r rest notOut queued
    rw [step_read queued, hostRead_mapped _ (ofNumber_number r), readEffect_of_ne_outData _ notOut,
      readReg_with_host]
    rfl
  case unmapped =>
    intro s num rest unmapped queued
    rw [step_read queued, hostRead_unmapped _ unmapped]
    rfl

/-- Settles O12: OUTDATA shows the head of OUT and its read leaves the tail. -/
theorem outDataReadPopsOldestByte : Obligations.OutDataReadPopsOldestByte := by
  refine ⟨fun s b bs rest queued output => ?pops, fun s rest queued output => ?empty⟩
  case pops =>
    rw [step_read queued, hostRead_mapped (r := .outData) _ rfl, readReg, readEffect]
    simp only [observe, output, List.headD_cons, List.tail_cons]
  case empty =>
    rw [step_read queued, hostRead_mapped (r := .outData) _ rfl, readReg, readEffect]
    simp only [observe, output]
    rfl

/-- Settles O16: below 2^64 the view of a number is the number. -/
theorem countersShowExactNumbers : Obligations.CountersShowExactNumbers := by
  have shown : ∀ (r : Reg) (n : Nat), n < 2 ^ 64 → (countView r n).toNat = n := fun r n small => by
    rw [countView_of_lt small, BitVec.toNat_ofNat, Nat.mod_eq_of_lt small]
  exact fun s => ⟨shown .inCnt _, shown .inPos _, shown .outCnt _, shown .outTot _, shown .errPos _⟩

/-! ### STATUS (R27) -/

section StatusWord

variable (f : Status)

theorem statusWord_bits :
    f.word.getLsbD 0 = f.err ∧ f.word.getLsbD 8 = f.cwOpen ∧ f.word.getLsbD 9 = f.crOpen
      ∧ f.word.getLsbD 31 = false := by
  simp only [Status.word, BitVec.getLsbD_append]
  simp

/-- ERRCODE stands above ERR and three reserved bits. -/
theorem statusWord_errCode : f.word.extractLsb' 4 4 = f.errCode := by
  rw [Status.word, BitVec.extractLsb'_append_eq_of_le (by decide), BitVec.extractLsb'_append_eq_of_le (by decide),
    BitVec.extractLsb'_append_eq_of_add_le (by decide)]
  exact BitVec.extractLsb'_eq_self

theorem statusWord_reserved_low : f.word.extractLsb' 1 3 = 0 := by
  rw [Status.word, BitVec.extractLsb'_append_eq_of_le (by decide),
    BitVec.extractLsb'_append_eq_of_add_le (by decide)]
  rfl

/-- The upper reserved bits stand above all five fields. -/
theorem statusWord_reserved_high : f.word.extractLsb' 10 21 = 0 := by
  simp only [Status.word]
  iterate 5 rw [BitVec.extractLsb'_append_eq_of_le (by decide)]
  rfl

end StatusWord

/-- Settles O15: zero extension keeps the 32 bits of the word and puts 0 above them. -/
theorem statusWordLayout : Obligations.StatusWordLayout := by
  intro s
  obtain ⟨err, cwOpen, crOpen, busy⟩ := statusWord_bits s.status
  have bit : ∀ k < 64, (readReg .status s).getLsbD k = s.status.word.getLsbD k := fun k small => by
    simp [readReg, small]
  have field : ∀ k len, k + len ≤ 64 →
      (readReg .status s).extractLsb' k len = s.status.word.extractLsb' k len :=
    fun _ _ => BitVec.extractLsb'_setWidth_of_le
  have above : (readReg .status s).extractLsb' 32 32 = 0 := by
    rw [field 32 32 (by decide), ← toNat_eq_zero_iff, BitVec.extractLsb'_toNat, Nat.shiftRight_eq_div_pow,
      Nat.div_eq_of_lt s.status.word.isLt, Nat.zero_mod]
  exact ⟨(bit 0 (by decide)).trans err, (field 4 4 (by decide)).trans (statusWord_errCode _),
    (bit 8 (by decide)).trans cwOpen, (bit 9 (by decide)).trans crOpen,
    (field 1 3 (by decide)).trans (statusWord_reserved_low _),
    (field 10 21 (by decide)).trans (statusWord_reserved_high _), (bit 31 (by decide)).trans busy, above⟩

/-! ### The reset (R270, R271) -/

/-- Settles O17: every field of the reset state is 0, and the reset event leads to it. -/
theorem resetClearsEverything : Obligations.ResetClearsEverything := by
  refine ⟨fun r => ?zero, rfl, rfl, fun s rest queued => ?event⟩
  case zero =>
    cases r with
    | qPal i | dPal i | pPal i | ct i =>
      revert i
      decide
    | errPos | inCnt | inPos | outCnt | outTot => exact countView_of_lt (n := 0) (by decide)
    | _ => rfl
  case event =>
    rw [step_cons queued]
    rfl

/-! ### Every step (R24, R25, R83, R251, R253) -/

theorem exec_completes (i : Instr) (s : State) : ∃ t, exec i s = .next t := by
  rw [exec_eq_complete]
  cases attempt i s with
  | ok t => exact ⟨t, rfl⟩
  | error e => exact ⟨_, rfl⟩

theorem issue_completes (c : Word32) (s : State) : ∃ t, issue c s = .next t := by
  obtain ⟨-, stored⟩ | ⟨-, rejected⟩ | ⟨-, i, performed⟩ := issue_cases c s
  · exact ⟨_, stored⟩
  · exact ⟨_, rejected⟩
  · exact performed ▸ exec_completes i s

theorem perform_completes (e : Event) (s : State) : ∃ t, perform e s = .next t := by
  cases e with
  | write num value =>
    obtain ignored | ⟨r, -, stored⟩ | issued := hostWrite_cases num value s
    · exact ⟨_, ignored⟩
    · exact ⟨_, stored⟩
    · obtain ⟨t, completed⟩ := issue_completes (value.setWidth 32) { s with cmd := value.setWidth 32 }
      exact ⟨t, issued.trans completed⟩
  | read num => exact ⟨_, rfl⟩
  | hardReset => exact ⟨_, rfl⟩

/-- Settles O19: every event is performed to a next state, and without one the state stays. -/
theorem everyStepCompletes : Obligations.EveryStepCompletes := by
  refine ⟨fun s => ?_, fun s => step_nil⟩
  cases queued : s.host with
  | nil => exact ⟨s, step_nil queued⟩
  | cons e rest =>
    rw [step_cons queued]
    exact perform_completes e _

/-! ### The error state (R252, R253) -/

/-- STATUS, ERRCMD and ERRPOS, as one value. -/
def errorView (s : State) : Status × Word32 × Nat := (s.status, s.errCmd, s.errPos)

theorem errorView_writeReg (r : Reg) (value : Word64) (s : State) : errorView (writeReg r value s) = errorView s := by
  cases r with
  | ctrl =>
    rw [writeReg, writeCtrl_eq]
    rfl
  | _ => rfl

theorem errorView_hostRead (num : BitVec 8) (s : State) : errorView (hostRead num s) = errorView s := by
  cases mapped : Reg.ofNumber num with
  | none =>
    rw [hostRead_unmapped s mapped]
    rfl
  | some r =>
    rw [hostRead_mapped s mapped]
    cases r <;> rfl

/-- While ERR is set no host operation changes what an error has written. -/
theorem errorView_of_perform {e : Event} {s t : State} (inError : s.status.err = true) (operation : e ≠ .hardReset)
    (performed : perform e s = .next t) : errorView t = errorView s := by
  cases e with
  | hardReset => exact absurd rfl operation
  | read num =>
    cases performed
    exact errorView_hostRead num s
  | write num value =>
    obtain ignored | ⟨r, -, stored⟩ | issued := hostWrite_cases num value s
    · cases ignored.symm.trans performed
      rfl
    · cases stored.symm.trans performed
      exact errorView_writeReg r value s
    · cases (issued.trans (issue_of_err (s := { s with cmd := value.setWidth 32 }) _ inError)).symm.trans performed
      rfl

/-- Settles O18: host operations keep what an error has written, and the reset state has none. -/
theorem errorStaysUntilReset : Obligations.ErrorStaysUntilReset := by
  intro s t e rest queued inError stepped
  have performed : perform e { s with host := rest } = .next t := (step_cons queued).symm.trans stepped
  constructor
  · intro operation
    have kept := errorView_of_perform (s := { s with host := rest }) inError operation performed
    simpa [errorView] using kept
  · rintro rfl
    cases performed
    exact ⟨rfl, rfl, rfl, rfl⟩

end Sys2Proof.Machine
end

section
/-! What a command does depends only on the registers its row lists as read (R86): from two states that agree on these
every check goes the same way, so the command ends alike (O22). -/

namespace Sys2Proof.Machine

open Sys2Proof.Safety

/-- Attempted in `s` and in `s'` the command raises the same error, or it completes in both with the same values in
the registers it writes and the same bytes appended to OUT. -/
def SameEnding (i : Instr) (s s' : State) : Except Raise State → Except Raise State → Prop
  | .ok t, .ok t' => WritesAgree t t' i ∧ ∃ xs, t.output = s.output ++ xs ∧ t'.output = s'.output ++ xs
  | .error e, .error e' => e = e'
  | .ok _, .error _ => False
  | .error _, .ok _ => False

namespace SameEnding

variable {i : Instr} {s s' t t' : State} {r r' : Except Raise State}

theorem of_output_kept (agree : WritesAgree t t' i) (kept : t.output = s.output) (kept' : t'.output = s'.output) :
    SameEnding i s s' (.ok t) (.ok t') :=
  ⟨agree, [], kept.trans (List.append_nil _).symm, kept'.trans (List.append_nil _).symm⟩

theorem of_emit {xs ys : List Byte} (agree : WritesAgree t t' i) (bytes : xs = ys)
    (emitted : t.output = s.output ++ xs) (emitted' : t'.output = s'.output ++ ys) :
    SameEnding i s s' (.ok t) (.ok t') :=
  ⟨agree, xs, emitted, bytes ▸ emitted'⟩

/-- A check that goes the same way and raises at the same position. -/
theorem guard {c c' : Prop} [Decidable c] [Decidable c'] {kind : ErrorKind} {pos pos' : Nat} (check : c ↔ c')
    (place : pos = pos') (rest : SameEnding i s s' r r') :
    SameEnding i s s' (if c then .error ⟨kind, pos⟩ else r) (if c' then .error ⟨kind, pos'⟩ else r') := by
  by_cases h : c
  · rw [if_pos h, if_pos (check.mp h), place]
    rfl
  · rw [if_neg h, if_neg (mt check.mpr h)]
    exact rest

end SameEnding

section TwoStates

variable {s s' : State}

/-! ### The parts of a state that the shared operations look at -/

theorem parseHeader_congr (input : s.input = s'.input) (inPos : s.inPos = s'.inPos) :
    parseHeader s = parseHeader s' := by
  have onStream : ∀ u : State, parseHeader u = parseHeader { State.reset with input := u.input, inPos := u.inPos } :=
    fun _ => rfl
  rw [onStream s, onStream s', input, inPos]

theorem decodeRecord_congr (input : s.input = s'.input) (inPos : s.inPos = s'.inPos) :
    decodeRecord s = decodeRecord s' := by
  rw [decodeRecord, decodeRecord, input, inPos]

theorem varIntDecodeAt_congr (p : Nat) (input : s.input = s'.input) (inPos : s.inPos = s'.inPos) :
    varIntDecodeAt p s = varIntDecodeAt p s' := by
  rw [varIntDecodeAt, varIntDecodeAt, input, inPos]

theorem tableOf_congr (ct : s.ct = s'.ct) (ctLen : s.ctLen = s'.ctLen) : tableOf s = tableOf s' := by
  rw [tableOf, tableOf, ct, ctLen]

theorem tableFind_congr (e : Word32) (ct : s.ct = s'.ct) (ctLen : s.ctLen = s'.ctLen) :
    tableFind e s = tableFind e s' := by
  rw [tableFind, tableFind, tableOf_congr ct ctLen]

theorem idxInTable_congr (idx : s.idx = s'.idx) (ctLen : s.ctLen = s'.ctLen) : idxInTable s = idxInTable s' := by
  rw [idxInTable, idxInTable, idx, ctLen]

theorem pendingBytes_congr (cwRIdx : s.cwRIdx = s'.cwRIdx) (cwRLen : s.cwRLen = s'.cwRLen) :
    pendingBytes s = pendingBytes s' := by
  rw [pendingBytes, pendingBytes, cwRIdx, cwRLen]

/-- Both states extend the pending run, or both pack the same one. -/
theorem sameEnding_appendPixels {i : Instr} (row : i = .cwpix ∨ i = .cwrun) {w w' : BitVec 3} {m m' : Word64}
    (index : w = w') (count : m = m') (cwCnt : s.cwCnt = s'.cwCnt) (cwRIdx : s.cwRIdx = s'.cwRIdx)
    (cwRLen : s.cwRLen = s'.cwRLen) :
    SameEnding i s s' (.ok (appendPixels w m s)) (.ok (appendPixels w' m' s')) := by
  subst index count
  have agree : ∀ {t t' : State}, t.cwCnt = t'.cwCnt ∧ t.cwRIdx = t'.cwRIdx ∧ t.cwRLen = t'.cwRLen →
      WritesAgree t t' i := by
    obtain rfl | rfl := row <;> exact id
  by_cases same : s.cwRLen ≠ 0 ∧ s.cwRIdx = w
  · rw [appendPixels, if_pos same, appendPixels, if_pos (cwRLen ▸ cwRIdx ▸ same)]
    exact .of_output_kept (agree ⟨congrArg (· + m) cwCnt, cwRIdx, congrArg (· + m) cwRLen⟩) rfl rfl
  · rw [appendPixels, if_neg same, appendPixels, if_neg (cwRLen ▸ cwRIdx ▸ same)]
    exact .of_emit (agree ⟨congrArg (· + m) cwCnt, rfl, rfl⟩) (pendingBytes_congr cwRIdx cwRLen) rfl rfl

/-! ### The commands, attempted in two states that agree -/

variable (inPos : s.inPos = s'.inPos)
include inPos

theorem vdec_sameEnding (reads : ReadsAgree s s' .vdec) : SameEnding .vdec s s' (vdec s) (vdec s') := by
  have input : s.input = s'.input := reads
  rw [vdec, vdec, varIntDecodeAt_congr 0 input inPos]
  split
  · rfl
  · next k _ =>
    exact .of_output_kept ⟨rfl, congrArg (List.drop k) input, congrArg (· + k) inPos⟩ rfl rfl

theorem quant_sameEnding (reads : ReadsAgree s s' .quant) : SameEnding .quant s s' (quant s) (quant s') := by
  obtain ⟨cnt, input⟩ := reads
  have samples : quantSamples s = quantSamples s' := by rw [quantSamples, quantSamples, cnt, input]
  have available : inCnt s = inCnt s' := congrArg List.length input
  refine .guard (by rw [cnt]) inPos (.guard (by rw [available, cnt]) ?_ ?_)
  · rw [inEnd, inEnd, available, inPos]
  · rw [samples, cnt]
    exact .of_output_kept ⟨rfl, rfl, congrArg (List.drop _) input, congrArg (· + _) inPos⟩ rfl rfl

theorem rdist_sameEnding (reads : ReadsAgree s s' .rdist) : SameEnding .rdist s s' (rdist s) (rdist s') := by
  obtain ⟨qPal, qLen⟩ := reads
  refine .guard (by rw [qLen]) inPos ?_
  rw [qPal, qLen]
  exact .of_output_kept ⟨rfl, rfl⟩ rfl rfl

theorem rpush_sameEnding (en : Bool) (reads : ReadsAgree s s' (.rpush en)) :
    SameEnding (.rpush en) s s' (rpush en s) (rpush en s') := by
  obtain ⟨dPal, dLen⟩ := reads
  refine .guard (by rw [dLen]) inPos ?_
  rw [dPal, dLen]
  exact .of_output_kept ⟨rfl, rfl⟩ rfl rfl

theorem inear_sameEnding (reads : ReadsAgree s s' .inear) : SameEnding .inear s s' (inear s) (inear s') := by
  obtain ⟨sample, dPal, dLen⟩ := reads
  refine .guard (by rw [dLen]) inPos ?_
  rw [sample, dPal, dLen]
  exact .of_output_kept rfl rfl rfl

theorem iexact_sameEnding (reads : ReadsAgree s s' .iexact) : SameEnding .iexact s s' (iexact s) (iexact s') := by
  obtain ⟨color, ct, ctLen⟩ := reads
  refine .guard (by rw [ctLen]) inPos ?_
  rw [color, tableFind_congr _ ct ctLen, inPos]
  split
  · rfl
  · exact .of_output_kept rfl rfl rfl

theorem ctadd_sameEnding (reads : ReadsAgree s s' .ctadd) : SameEnding .ctadd s s' (ctadd s) (ctadd s') := by
  obtain ⟨color, ct, ctLen⟩ := reads
  refine .guard (by rw [ctLen]) inPos ?_
  rw [color, tableFind_congr _ ct ctLen]
  split
  · exact .of_output_kept ⟨ct, ctLen, rfl⟩ rfl rfl
  · refine .guard (by rw [ctLen]) inPos ?_
    rw [ctLen]
    exact .of_output_kept ⟨by simp [ct, ctLen], congrArg (· + 1) ctLen, rfl⟩ rfl rfl

theorem rpack_sameEnding (reads : ReadsAgree s s' .rpack) : SameEnding .rpack s s' (rpack s) (rpack s') := by
  obtain ⟨rIdx, rLen⟩ := reads
  exact .guard (by rw [rLen]) inPos (.of_emit trivial (by rw [rIdx, rLen]) rfl rfl)

theorem runpk_sameEnding (reads : ReadsAgree s s' .runpk) : SameEnding .runpk s s' (runpk s) (runpk s') := by
  have input : s.input = s'.input := reads
  rw [runpk, runpk, decodeRecord_congr input inPos]
  split
  · rfl
  · next k _ =>
    exact .of_output_kept ⟨rfl, rfl, congrArg (List.drop k) input, congrArg (· + k) inPos⟩ rfl rfl

theorem cwhdr_sameEnding (reads : ReadsAgree s s' .cwhdr) : SameEnding .cwhdr s s' (cwhdr s) (cwhdr s') := by
  obtain ⟨width, height, alpha, ct, ctLen, cwOpen⟩ := reads
  refine .guard (by rw [cwOpen]) inPos (.guard (by rw [ctLen]) inPos (.guard (by rw [width, height]) inPos ?_))
  refine .of_emit ⟨rfl, ?_, rfl, rfl, rfl⟩ ?_ rfl rfl
  · rw [openWriter, openWriter, width, height]
  · rw [width, height, alpha, tableOf_congr ct ctLen]

theorem cwpix_sameEnding (reads : ReadsAgree s s' .cwpix) : SameEnding .cwpix s s' (cwpix s) (cwpix s') := by
  obtain ⟨idx, ctLen, cwOpen, cwTot, cwCnt, cwRIdx, cwRLen⟩ := reads
  refine .guard (by rw [cwOpen]) inPos (.guard (by rw [idxInTable_congr idx ctLen]) inPos
    (.guard (by rw [cwCnt, cwTot]) inPos ?_))
  exact sameEnding_appendPixels (.inl rfl) (by rw [wireIdx, wireIdx, idx]) rfl cwCnt cwRIdx cwRLen

theorem cwrun_sameEnding (reads : ReadsAgree s s' .cwrun) : SameEnding .cwrun s s' (cwrun s) (cwrun s') := by
  obtain ⟨idx, rLen, ctLen, cwOpen, cwTot, cwCnt, cwRIdx, cwRLen⟩ := reads
  refine .guard (by rw [cwOpen]) inPos (.guard (by rw [idxInTable_congr idx ctLen]) inPos
    (.guard (by rw [rLen]) inPos (.guard (by rw [cwTot, cwCnt, rLen]) inPos ?_)))
  exact sameEnding_appendPixels (.inr rfl) (by rw [wireIdx, wireIdx, idx]) rLen cwCnt cwRIdx cwRLen

theorem cwend_sameEnding (reads : ReadsAgree s s' .cwend) : SameEnding .cwend s s' (cwend s) (cwend s') := by
  obtain ⟨cwOpen, cwTot, cwCnt, cwRIdx, cwRLen⟩ := reads
  refine .guard (by rw [cwOpen]) inPos (.guard (by rw [cwTot, cwCnt]) inPos ?_)
  exact .of_emit ⟨rfl, rfl⟩ (pendingBytes_congr cwRIdx cwRLen) rfl rfl

theorem crhdr_sameEnding (reads : ReadsAgree s s' .crhdr) : SameEnding .crhdr s s' (crhdr s) (crhdr s') := by
  obtain ⟨input, crOpen⟩ := reads
  refine .guard (by rw [crOpen]) inPos ?_
  rw [parseHeader_congr input inPos]
  split
  · rfl
  · next hd _ =>
    exact .of_output_kept ⟨rfl, rfl, rfl, rfl, rfl, rfl, rfl, congrArg (List.drop hd.size) input,
      congrArg (· + hd.size) inPos⟩ rfl rfl

theorem crrun_sameEnding (reads : ReadsAgree s s' .crrun) : SameEnding .crrun s s' (crrun s) (crrun s') := by
  obtain ⟨input, ctLen, crOpen, crRem⟩ := reads
  refine .guard (by rw [crOpen]) inPos ?_
  rw [decodeRecord_congr input inPos]
  split
  · rfl
  · next i c k _ =>
    refine .guard (by rw [ctLen]) inPos (.guard (by rw [crRem]) inPos ?_)
    refine .of_output_kept ⟨rfl, rfl, rfl, ?_, ?_, congrArg (List.drop k) input, congrArg (· + k) inPos⟩ rfl rfl
    · simp [crRem]
    · simp [crRem]

theorem attempt_sameEnding {i : Instr} (reads : ReadsAgree s s' i) :
    SameEnding i s s' (attempt i s) (attempt i s') := by
  cases i with
  | venc => exact .of_emit trivial (congrArg (fun v : Word64 => varIntEncode v.toNat) reads) rfl rfl
  | vdec => exact vdec_sameEnding inPos reads
  | quant => exact quant_sameEnding inPos reads
  | rdist => exact rdist_sameEnding inPos reads
  | rpush en => exact rpush_sameEnding inPos en reads
  | inear => exact inear_sameEnding inPos reads
  | iexact => exact iexact_sameEnding inPos reads
  | ctadd => exact ctadd_sameEnding inPos reads
  | ctclr => exact .of_output_kept ⟨rfl, rfl⟩ rfl rfl
  | rpack => exact rpack_sameEnding inPos reads
  | runpk => exact runpk_sameEnding inPos reads
  | cwhdr => exact cwhdr_sameEnding inPos reads
  | cwpix => exact cwpix_sameEnding inPos reads
  | cwrun => exact cwrun_sameEnding inPos reads
  | cwend => exact cwend_sameEnding inPos reads
  | crhdr => exact crhdr_sameEnding inPos reads
  | crrun => exact crrun_sameEnding inPos reads

end TwoStates

/-- Settles O22: the two attempts end alike, and both completions leave ERR clear or both errors are the same. -/
theorem commandsReadOnlyTheirOperands : Obligations.CommandsReadOnlyTheirOperands := by
  intro i s s' t t' clear clear' inPos reads performed performed'
  have ending := attempt_sameEnding inPos reads
  obtain completed | ⟨e, failed, rfl⟩ := (exec_eq_next_iff i s t).mp performed
  · rw [completed] at ending
    obtain completed' | ⟨e', failed', rfl⟩ := (exec_eq_next_iff i s' t').mp performed'
    · rw [completed'] at ending
      obtain ⟨agree, xs, output, output'⟩ := ending
      have kept : t.status.err = s.status.err := congrArg Prod.fst (errorRegs_of_attempt_ok completed)
      have kept' : t'.status.err = s'.status.err := congrArg Prod.fst (errorRegs_of_attempt_ok completed')
      rw [kept, kept', clear, clear']
      exact ⟨rfl, fun raised => (nomatch raised), fun _ => agree, xs, output, output'⟩
    · rw [failed'] at ending
      exact ending.elim
  · rw [failed] at ending
    obtain completed' | ⟨e', failed', rfl⟩ := (exec_eq_next_iff i s' t').mp performed'
    · rw [completed'] at ending
      exact ending.elim
    · rw [failed'] at ending
      obtain rfl : e = e' := ending
      exact ⟨rfl, fun _ => ⟨rfl, rfl, rfl⟩, fun completed => (nomatch completed), [],
        (List.append_nil _).symm, (List.append_nil _).symm⟩

end Sys2Proof.Machine
end

section
/-! The quantizer as a function of the multiset of samples (R7, R122-R124, R128): sorting forgets the order (O33),
trimming has a closed form (O32), and the bisection's leaf sizes (O34). -/

namespace Sys2Proof.Machine

open Sys2Proof.Safety

/-! ### Sorting (R7, R128) -/

theorem sortSamples_perm (xs : List Nat) : (sortSamples xs).Perm xs := List.perm_insertionSort _ xs

/-- A sorted list is determined by the samples in it. -/
theorem sortSamples_eq_of_perm {xs sorted : List Nat} (increasing : sorted.Pairwise (· ≤ ·))
    (same : sorted.Perm xs) : sortSamples xs = sorted :=
  ((sortSamples_perm xs).trans same.symm).eq_of_pairwise' (sortSamples_pairwise xs) increasing

/-- Settles O33: the quantizer looks at the sorted samples and at how many there are. -/
theorem quantizerIgnoresSampleOrder : Obligations.QuantizerIgnoresSampleOrder := by
  intro xs ys perm
  have sorted : sortSamples xs = sortSamples ys :=
    sortSamples_eq_of_perm (sortSamples_pairwise ys) ((sortSamples_perm ys).trans perm.symm)
  rw [quantizeFn, quantizeFn, distinctSamples, distinctSamples, sorted, perm.length_eq]

/-! ### Trimming (R122, R123) -/

/-- A sorted list with `a` copies of its least value `lo` and `b` of its greatest value `hi`. -/
def bracketed (lo hi a b : Nat) (mid : List Nat) : List Nat :=
  List.replicate a lo ++ mid ++ List.replicate b hi

/-- The values of `mid` lie strictly between `lo` and `hi`. -/
def StrictlyBetween (lo hi : Nat) (mid : List Nat) : Prop := ∀ x ∈ mid, lo < x ∧ x < hi

section Bracketed

variable {lo hi a b : Nat} {mid : List Nat}

theorem tail_bracketed : (bracketed lo hi (a + 1) b mid).tail = bracketed lo hi a b mid := rfl

theorem bracketed_succ_right :
    bracketed lo hi a (b + 1) mid = bracketed lo hi a b mid ++ [hi] := by
  simp [bracketed, List.replicate_succ']

theorem dropLast_bracketed : (bracketed lo hi a (b + 1) mid).dropLast = bracketed lo hi a b mid := by
  rw [bracketed_succ_right, List.dropLast_concat]

variable (order : lo < hi) (between : StrictlyBetween lo hi mid)
include order between

theorem count_lo_bracketed : (bracketed lo hi a b mid).count lo = a := by
  have absent : lo ∉ mid := fun h => (between lo h).1.false
  simp [bracketed, List.count_replicate, List.count_eq_zero_of_not_mem absent, order.ne']

theorem count_hi_bracketed : (bracketed lo hi a b mid).count hi = b := by
  have absent : hi ∉ mid := fun h => (between hi h).2.false
  simp [bracketed, List.count_replicate, List.count_eq_zero_of_not_mem absent, order.ne]

theorem blackCount_bracketed : blackCount (bracketed lo hi (a + 1) b mid) = a + 1 :=
  count_lo_bracketed order between

theorem whiteCount_bracketed : whiteCount (bracketed lo hi a (b + 1) mid) = b + 1 := by
  have last : (bracketed lo hi a (b + 1) mid).getLastD 0 = hi := by
    rw [bracketed_succ_right, List.getLastD_concat]
  rw [whiteCount, last, count_hi_bracketed order between]

/-- The loop drops the end held more often while that is more than `n / 8` times, so it lowers both ends to `n / 8`
copies, or leaves them; as `n / 8` is at least 1, no end is ever lost. -/
theorem trimLoop_bracketed {n fuel : Nat} (many : 8 ≤ n) (enough : a + b ≤ fuel) :
    trimLoop n fuel (bracketed lo hi (a + 1) (b + 1) mid)
      = bracketed lo hi (min (a + 1) (n / 8)) (min (b + 1) (n / 8)) mid := by
  induction fuel generalizing a b with
  | zero =>
    obtain ⟨rfl, rfl⟩ : a = 0 ∧ b = 0 := by omega
    rw [trimLoop, min_eq_left (by omega)]
  | succ fuel ih =>
    simp only [trimLoop, blackCount_bracketed order between, whiteCount_bracketed order between,
      Config.quantTrimDiv, dropLast_bracketed, tail_bracketed]
    split_ifs with whiter fewWhite fewBlack
    · rw [min_eq_left (by omega), min_eq_left (by omega)]
    · obtain ⟨b, rfl⟩ : ∃ m, b = m + 1 := ⟨b - 1, by omega⟩
      rw [ih (by omega), min_eq_right (a := b + 1) (by omega), min_eq_right (a := b + 1 + 1) (by omega)]
    · rw [min_eq_left (by omega), min_eq_left (by omega)]
    · obtain ⟨a, rfl⟩ : ∃ m, a = m + 1 := ⟨a - 1, by omega⟩
      rw [ih (by omega), min_eq_right (a := a + 1) (by omega), min_eq_right (a := a + 1 + 1) (by omega)]

theorem bracketed_pairwise (sorted : mid.Pairwise (· ≤ ·)) : (bracketed lo hi a b mid).Pairwise (· ≤ ·) := by
  have low : ∀ x ∈ List.replicate a lo, x = lo := fun x => List.eq_of_mem_replicate
  have high : ∀ x ∈ List.replicate b hi, x = hi := fun x => List.eq_of_mem_replicate
  have lowMid : (List.replicate a lo ++ mid).Pairwise (· ≤ ·) :=
    List.pairwise_append.mpr ⟨List.pairwise_replicate.mpr (.inr le_rfl), sorted,
      fun x hx y hy => low x hx ▸ (between y hy).1.le⟩
  refine List.pairwise_append.mpr ⟨lowMid, List.pairwise_replicate.mpr (.inr le_rfl), fun x hx y hy => ?_⟩
  obtain rfl := high y hy
  obtain hx | hx := List.mem_append.mp hx
  · exact low x hx ▸ order.le
  · exact (between x hx).2.le

/-- Trimming a bracketed list that holds both its ends. -/
theorem trim_bracketed {n : Nat} (many : 8 ≤ n) (someLow : 1 ≤ a) (someHigh : 1 ≤ b) :
    trim (bracketed lo hi a b mid) n = bracketed lo hi (min a (n / 8)) (min b (n / 8)) mid := by
  obtain ⟨a, rfl⟩ := Nat.exists_eq_add_of_le' someLow
  obtain ⟨b, rfl⟩ := Nat.exists_eq_add_of_le' someHigh
  have enough : a + b ≤ (bracketed lo hi (a + 1) (b + 1) mid).length := by
    simp only [bracketed, List.length_append, List.length_replicate]
    omega
  exact trimLoop_bracketed order between many enough

end Bracketed

/-- The samples strictly between two values, in order. -/
def inner (lo hi : Nat) (samples : List Nat) : List Nat :=
  (sortSamples samples).filter fun x => decide (x ≠ lo ∧ x ≠ hi)

section Extremes

variable {samples : List Nat} {lo hi : Nat} (bounds : ∀ x ∈ samples, lo ≤ x ∧ x ≤ hi)
include bounds

theorem inner_between : StrictlyBetween lo hi (inner lo hi samples) := by
  intro x hx
  simp only [inner, List.mem_filter, mem_sortSamples, decide_eq_true_eq] at hx
  obtain ⟨mem, notLo, notHi⟩ := hx
  obtain ⟨lower, upper⟩ := bounds x mem
  exact ⟨lt_of_le_of_ne lower notLo.symm, lt_of_le_of_ne upper notHi⟩

/-- Count by count, the sorted samples are the copies of the least one, the inner ones and the copies of the
greatest one. -/
theorem sortSamples_eq_bracketed (order : lo < hi) :
    sortSamples samples = bracketed lo hi (samples.count lo) (samples.count hi) (inner lo hi samples) := by
  have between : StrictlyBetween lo hi (inner lo hi samples) := inner_between bounds
  have increasing : (inner lo hi samples).Pairwise (· ≤ ·) := (sortSamples_pairwise samples).filter _
  refine sortSamples_eq_of_perm (bracketed_pairwise order between increasing) (List.perm_iff_count.mpr fun x => ?_)
  obtain rfl | notLo := eq_or_ne x lo
  · exact count_lo_bracketed order between
  obtain rfl | notHi := eq_or_ne x hi
  · exact count_hi_bracketed order between
  · have kept : (inner lo hi samples).count x = samples.count x :=
      (List.count_filter (by simp [notLo, notHi])).trans ((sortSamples_perm samples).count_eq x)
    simp [bracketed, List.count_replicate, notLo.symm, notHi.symm, kept]

/-- Samples of more than one value have a least one below the greatest one. -/
theorem lo_lt_hi_of_card (many : 2 ≤ samples.toFinset.card) : lo < hi := by
  by_contra! equal
  have single : samples.toFinset ⊆ {lo} := fun x hx => by
    obtain ⟨lower, upper⟩ := bounds x (List.mem_toFinset.mp hx)
    exact Finset.mem_singleton.mpr (le_antisymm (upper.trans equal) lower)
  have card := Finset.card_le_card single
  rw [Finset.card_singleton] at card
  omega

end Extremes

/-- Settles O32: the sorted samples are bracketed by their extremes, and trimming works on the brackets. -/
theorem trimClosedForm : Obligations.TrimClosedForm := by
  refine ⟨fun samples => ⟨sortSamples_perm samples, sortSamples_pairwise samples⟩, ?closed⟩
  intro samples lo hi many hasLo hasHi bounds
  have order : lo < hi := lo_lt_hi_of_card bounds (by omega)
  have eight : 8 ≤ samples.length := many.trans samples.toFinset_card_le
  have someLow : 1 ≤ samples.count lo := List.count_pos_iff.mpr hasLo
  have someHigh : 1 ≤ samples.count hi := List.count_pos_iff.mpr hasHi
  calc trim (sortSamples samples) samples.length
      = trim (bracketed lo hi (samples.count lo) (samples.count hi) (inner lo hi samples)) samples.length :=
        congrArg (trim · samples.length) (sortSamples_eq_bracketed bounds order)
    _ = bracketed lo hi (min (samples.count lo) (samples.length / 8)) (min (samples.count hi) (samples.length / 8))
          (inner lo hi samples) := trim_bracketed order (inner_between bounds) eight someLow someHigh

/-! ### The leaf sizes of the bisection (R124) -/

theorem map_length_halves (p : List Nat) : (halves p).map List.length = halfSizes p.length := by
  have shorter : p.length / 2 ≤ p.length := Nat.div_le_self ..
  simp [halves, halfSizes, shorter]

theorem map_length_flatMap_halves (parts : List (List Nat)) :
    (parts.flatMap halves).map List.length = (parts.map List.length).flatMap halfSizes := by
  rw [List.map_flatMap, List.flatMap_map]
  simp only [map_length_halves]

/-- Settles O34: each of the three levels halves the sizes. -/
theorem bisectionGivesEightLeaves : Obligations.BisectionGivesEightLeaves := by
  intro l
  refine ⟨length_bisect l, flatten_bisect l, ?sizes, ne_nil_of_mem_bisect⟩
  have levels : bisect l = (([l].flatMap halves).flatMap halves).flatMap halves := rfl
  have first : ([l].flatMap halves).map List.length = halfSizes l.length :=
    (map_length_flatMap_halves [l]).trans (List.append_nil _)
  rw [levels, map_length_flatMap_halves, map_length_flatMap_halves, first]

end Sys2Proof.Machine
end

section
/-! The rebalancer entry by entry (R140, R141, R143): the sweeps against the neighbour already swept (O36), and the
push with its budget (O39).  And two commands in a row: INEAR after RPUSH (O40), IEXACT after CTADD (O45). -/

namespace Sys2Proof.Machine

open Sys2Proof.Safety

/-! ### The sweeps (R140, R141) -/

theorem length_forwardFrom (prev : Nat) (vs : List Nat) : (forwardFrom prev vs).length = vs.length := by
  induction vs generalizing prev with
  | nil => rfl
  | cons v vs ih => simp only [forwardFrom, List.length_cons, ih]

/-- Each entry is raised against the one before it, already swept; `prev` stands before the first. -/
theorem getD_forwardFrom {prev i : Nat} {vs : List Nat} (inside : i < vs.length) :
    (forwardFrom prev vs).getD i 0 = raiseAbove 32 ((prev :: forwardFrom prev vs).getD i 0) (vs.getD i 0) := by
  induction vs generalizing prev i with
  | nil => exact absurd inside (Nat.not_lt_zero i)
  | cons v vs ih =>
    cases i with
    | zero => rfl
    | succ i => exact ih (Nat.lt_of_succ_lt_succ inside)

theorem length_forwardSweep (p : List Nat) : (forwardSweep p).length = p.length := by
  cases p with
  | nil => rfl
  | cons v vs => exact congrArg Nat.succ (length_forwardFrom v vs)

theorem getD_forwardSweep_succ {p : List Nat} {i : Nat} (inside : i + 1 < p.length) :
    (forwardSweep p).getD (i + 1) 0 = raiseAbove 32 ((forwardSweep p).getD i 0) (p.getD (i + 1) 0) := by
  cases p with
  | nil => exact absurd inside (Nat.not_lt_zero _)
  | cons v vs => exact getD_forwardFrom (Nat.lt_of_succ_lt_succ inside)

theorem length_backwardSweep (p : List Nat) : (backwardSweep p).length = p.length := by
  induction p with
  | nil => rfl
  | cons v vs ih =>
    rw [List.length_cons, ← ih, backwardSweep]
    cases backwardSweep vs <;> rfl

/-- An entry with a neighbour after it is lowered against that neighbour, already swept. -/
theorem backwardSweep_cons_cons (v u : Nat) (us : List Nat) :
    backwardSweep (v :: u :: us)
      = lowerBelow 32 ((backwardSweep (u :: us)).getD 0 0) v :: backwardSweep (u :: us) := by
  rw [backwardSweep]
  cases swept : backwardSweep (u :: us) with
  | nil =>
    have size := length_backwardSweep (u :: us)
    rw [swept] at size
    nomatch size
  | cons next rest => rfl

theorem getLast?_backwardSweep (p : List Nat) : (backwardSweep p).getLast? = p.getLast? := by
  induction p with
  | nil => rfl
  | cons v vs ih =>
    cases vs with
    | nil => rfl
    | cons u us =>
      obtain ⟨next, rest, swept⟩ : ∃ next rest, backwardSweep (u :: us) = next :: rest :=
        List.exists_cons_of_length_eq_add_one (length_backwardSweep (u :: us))
      rw [backwardSweep_cons_cons, List.getLast?_cons_cons, ← ih, swept, List.getLast?_cons_cons]

theorem getD_backwardSweep {p : List Nat} {i : Nat} (inside : i + 1 < p.length) :
    (backwardSweep p).getD i 0 = lowerBelow 32 ((backwardSweep p).getD (i + 1) 0) (p.getD i 0) := by
  induction p generalizing i with
  | nil => exact absurd inside (Nat.not_lt_zero _)
  | cons v vs ih =>
    cases vs with
    | nil => exact absurd (Nat.lt_of_succ_lt_succ inside) (Nat.not_lt_zero _)
    | cons u us =>
      rw [backwardSweep_cons_cons]
      cases i with
      | zero => rfl
      | succ i => exact ih (Nat.lt_of_succ_lt_succ inside)

/-- Settles O36: the inner loops by their closed forms, the sweeps entry by entry. -/
theorem sweepsMoveByWholeBuckets : Obligations.SweepsMoveByWholeBuckets := by
  refine ⟨?raises, ?lowers, ?forward, fun p => ⟨length_backwardSweep p, getLast?_backwardSweep p,
    fun _ => getD_backwardSweep⟩, fun _ => rfl⟩
  case raises =>
    intro prev v _ byte
    rw [raiseAbove_eq prev (by omega)]
    split <;> omega
  case lowers =>
    intro next v byte positive
    rw [lowerBelow_eq positive (by omega)]
    split <;> omega
  case forward =>
    intro p
    refine ⟨length_forwardSweep p, ?_, fun _ => getD_forwardSweep_succ⟩
    cases p <;> rfl

/-! ### The push (R143) -/

/-- The brightest entry is capped at 255 only. -/
theorem pushEntry_none {budget v : Nat} (byte : v ≤ 255) : pushEntry budget none v = min (v + 8 * budget) 255 := by
  induction budget generalizing v with
  | zero => simp [pushEntry, byte]
  | succ budget ih =>
    simp only [pushEntry, pushAllowed, Config.bucketStep, Config.pushCap, if_true]
    split
    · omega
    · rw [ih (by omega)]
      omega

/-- Another entry stops below its brighter neighbour's bucket, which is at most 31, so the cap never stops it. -/
theorem pushEntry_some {budget q v : Nat} (brighter : q ≤ 255) (byte : v ≤ 255) :
    pushEntry budget (some q) v = v + 8 * min budget (q / 8 - 1 - v / 8) := by
  induction budget generalizing v with
  | zero => simp [pushEntry]
  | succ budget ih =>
    simp only [pushEntry, pushAllowed, bucket_eq_div, Config.bucketStep, Config.pushCap, decide_eq_true_eq]
    split_ifs with capped allowed
    · omega
    · rw [ih (by omega)]
      omega
    · omega

theorem nextBudget_eq (budget before after : Nat) (darker : List Nat) :
    nextBudget budget before after darker =
      if before / 8 < after / 8 ∧ darker ≠ [] ∧ darker.headD 0 / 8 < 20 then budget + 1 else budget := by
  cases darker with
  | nil => simp [nextBudget, darkerIsDark]
  | cons d ds => simp [nextBudget, darkerIsDark, Config.pushDarkLimit]

/-! ### The sweep of the push (R143) -/

/-- The budget with which the sweep of `pushDown` pushes each entry. -/
def pushBudgets : Nat → Option Nat → List Nat → List Nat
  | _, _, [] => []
  | budget, brighter, v :: darker =>
    budget :: pushBudgets (nextBudget budget v (pushEntry budget brighter v) darker)
      (some (pushEntry budget brighter v)) darker

theorem pushDown_cons (budget : Nat) (brighter : Option Nat) (v : Nat) (darker : List Nat) :
    pushDown budget brighter (v :: darker) = pushEntry budget brighter v ::
      pushDown (nextBudget budget v (pushEntry budget brighter v) darker)
        (some (pushEntry budget brighter v)) darker := rfl

theorem length_pushDown (budget : Nat) (brighter : Option Nat) (l : List Nat) :
    (pushDown budget brighter l).length = l.length := by
  induction l generalizing budget brighter with
  | nil => rfl
  | cons v darker ih => rw [pushDown_cons, List.length_cons, List.length_cons, ih]

/-- One step of the sweep: the next darker entry's budget, from the entry just pushed, and its push against it. -/
theorem pushDown_step {j : Nat} {l : List Nat} (budget : Nat) (brighter : Option Nat) (inside : j + 1 < l.length) :
    (pushBudgets budget brighter l).getD (j + 1) 0 =
        (if l.getD j 0 / 8 < (pushDown budget brighter l).getD j 0 / 8 ∧ l.getD (j + 1) 0 / 8 < 20
          then (pushBudgets budget brighter l).getD j 0 + 1 else (pushBudgets budget brighter l).getD j 0)
      ∧ (pushDown budget brighter l).getD (j + 1) 0 =
        pushEntry ((pushBudgets budget brighter l).getD (j + 1) 0) (some ((pushDown budget brighter l).getD j 0))
          (l.getD (j + 1) 0) := by
  induction l generalizing budget brighter j with
  | nil => exact absurd inside (Nat.not_lt_zero _)
  | cons v darker ih =>
    cases j with
    | succ j => exact ih _ _ (Nat.lt_of_succ_lt_succ inside)
    | zero =>
      cases darker with
      | nil => exact absurd (Nat.lt_of_succ_lt_succ inside) (Nat.not_lt_zero _)
      | cons u us =>
        refine ⟨?_, rfl⟩
        have next := nextBudget_eq budget v (pushEntry budget brighter v) (u :: us)
        simpa [pushBudgets, pushDown_cons] using next

/-! ### `PushFn` entry by entry -/

/-- The budget of the entry at position `i` of a palette: the sweep meets the entries in reverse. -/
def budgetAt (d : List Nat) (i : Nat) : Nat :=
  (pushBudgets Config.pushBudget0 none d.reverse).getD (d.length - 1 - i) 0

theorem length_pushFn (d : List Nat) : (pushFn d).length = d.length := by
  rw [pushFn, List.length_reverse, length_pushDown, List.length_reverse]

theorem getD_pushFn {d : List Nat} {i : Nat} (inside : i < d.length) :
    (pushFn d).getD i 0 = (pushDown Config.pushBudget0 none d.reverse).getD (d.length - 1 - i) 0 := by
  have size : (pushDown Config.pushBudget0 none d.reverse).length = d.length := by
    rw [length_pushDown, List.length_reverse]
  rw [pushFn, List.getD_reverse i (size.symm ▸ inside), size]

theorem getD_eq_getD_reverse {d : List Nat} {i : Nat} (inside : i < d.length) :
    d.getD i 0 = d.reverse.getD (d.length - 1 - i) 0 := by
  rw [List.getD_reverse _ (by omega)]
  congr 1
  omega

/-- The brightest entry is pushed with budget 1 and no bound but the cap. -/
theorem push_last {d : List Nat} (nonempty : d ≠ []) :
    budgetAt d (d.length - 1) = 1
      ∧ (pushFn d).getD (d.length - 1) 0 = pushEntry 1 none (d.getD (d.length - 1) 0) := by
  have inside : d.length - 1 < d.length := Nat.sub_lt (List.length_pos_of_ne_nil nonempty) Nat.one_pos
  rw [getD_pushFn inside, getD_eq_getD_reverse inside, budgetAt, Nat.sub_self]
  obtain ⟨v, darker, form⟩ := List.exists_cons_of_ne_nil (List.reverse_ne_nil_iff.mpr nonempty)
  rw [form]
  exact ⟨rfl, rfl⟩

/-- Each darker entry is pushed against its brighter neighbour, with the budget that neighbour's push left. -/
theorem push_earlier {d : List Nat} {i : Nat} (inside : i + 1 < d.length) :
    budgetAt d i =
        (if d.getD (i + 1) 0 / 8 < (pushFn d).getD (i + 1) 0 / 8 ∧ d.getD i 0 / 8 < 20
          then budgetAt d (i + 1) + 1 else budgetAt d (i + 1))
      ∧ (pushFn d).getD i 0 =
        pushEntry (budgetAt d i) (some ((pushFn d).getD (i + 1) 0)) (d.getD i 0) := by
  obtain ⟨j, place⟩ : ∃ j, d.length - 1 - (i + 1) = j := ⟨_, rfl⟩
  have next : d.length - 1 - i = j + 1 := by omega
  have within : j + 1 < d.reverse.length := by
    rw [List.length_reverse]
    omega
  rw [getD_pushFn inside, getD_pushFn (Nat.lt_of_succ_lt inside), getD_eq_getD_reverse inside,
    getD_eq_getD_reverse (Nat.lt_of_succ_lt inside), budgetAt, budgetAt, place, next]
  exact pushDown_step _ _ within

/-- Settles O39: one push by its closed forms, and the sweep entry by entry, from the brightest down. -/
theorem pushStopsAtBudgetOrNeighbour : Obligations.PushStopsAtBudgetOrNeighbour := by
  refine ⟨fun _ _ => pushEntry_none, fun _ _ _ => pushEntry_some, nextBudget_eq, fun d nonempty => ?sweep⟩
  obtain ⟨first, brightest⟩ := push_last nonempty
  exact ⟨budgetAt d, length_pushFn d, first, brightest, fun _ => push_earlier⟩

/-! ### INEAR after RPUSH (R147) -/

/-- INEAR neither reads nor writes PPAL and PPLEN, whether it completes or raises. -/
theorem exec_inear_with_pPal {s u : State} (p : Vector Byte 8) (n : BitVec 4) (answered : exec .inear s = .next u) :
    exec .inear { s with pPal := p, ppLen := n } = .next { u with pPal := p, ppLen := n } := by
  by_cases legal : s.dLen ≠ 0 ∧ s.dLen.toNat ≤ 8
  · obtain ⟨pos, short⟩ := legal
    cases (exec_inear_of_le pos short).symm.trans answered
    exact exec_inear_of_le (s := { s with pPal := p, ppLen := n }) pos short
  · have unlawful : s.dLen = 0 ∨ 8 < s.dLen.toNat := by
      rwa [not_and_or, not_not, Nat.not_le] at legal
    cases (exec_inear_of_illegal unlawful).symm.trans answered
    exact exec_inear_of_illegal (s := { s with pPal := p, ppLen := n }) unlawful

/-- Settles O40: RPUSH writes PPAL and PPLEN only. -/
theorem pushDoesNotAffectIndexing : Obligations.PushDoesNotAffectIndexing := by
  intro en s t u _ pushed clear answered
  obtain ⟨p, rfl⟩ := rpush_eq_ok (attempt_eq_ok_of_exec pushed clear)
  exact exec_inear_with_pPal (fileOf p) (lenOf p) answered

/-! ### IEXACT after CTADD (R163, R164) -/

/-- The entry appended at CTLEN is found there: the positions before it hold other entries. -/
theorem tableFind_tableAppend {e : Word32} {s : State} (room : s.ctLen.toNat < 8) (absent : tableFind e s = none) :
    tableFind e (tableAppend e s) = some s.ctLen.toNat := by
  have counted : (tableAppend e s).ctLen.toNat = s.ctLen.toNat + 1 := by
    rw [tableAppend_ctLen, BitVec.toNat_add]
    exact Nat.mod_eq_of_lt (show s.ctLen.toNat + 1 < 16 by omega)
  refine tableFind_eq_some_of_least (j := ⟨s.ctLen.toNat, room⟩) ?_ ?_ fun k before => ?_
  · rw [counted]
    exact Nat.lt_succ_self _
  · simp
  · have before : k.val < s.ctLen.toNat := before
    have inTable : k.val < (tableOf s).length := by
      rw [length_tableOf]
      omega
    have other : (tableOf s)[k.val] ≠ e := fun holds =>
      (tableFind_eq_none_iff e s).mp absent (holds ▸ List.getElem_mem inTable)
    rw [getElem_tableOf] at other
    simpa [Vector.getElem_setIfInBounds, before.ne'] using other

/-- Where the search stands in IDX already, IEXACT changes nothing. -/
theorem exec_iexact_of_idx {t : State} {j : Nat} (short : t.ctLen.toNat ≤ 8)
    (found : tableFind (normColor t.color) t = some j) (idx : t.idx = BitVec.ofNat 4 (j + 1)) :
    exec .iexact t = .next t := by
  rw [exec_iexact_of_found short found, ← idx]

/-- Settles O45: CTADD leaves in IDX the position the search finds afterwards, the entry's old or new one. -/
theorem iexactAgreesWithCtadd : Obligations.IexactAgreesWithCtadd := by
  intro s t _ added clear
  obtain ⟨short, ⟨j, found, rfl⟩ | ⟨absent, room, rfl⟩⟩ := ctadd_eq_ok (attempt_eq_ok_of_exec added clear)
  · exact exec_iexact_of_idx short found rfl
  · have counted : (s.ctLen + 1).toNat ≤ 8 := by
      rw [BitVec.toNat_add]
      exact (Nat.mod_le _ _).trans room
    exact exec_iexact_of_idx counted (tableFind_tableAppend room absent) rfl

end Sys2Proof.Machine
end

section
/-! The container writer (R200-R209): the header CWHDR writes (O50), CWRUN as one appending of pixels (O52) and as
repeated CWPIX (O54), and a whole image written run by run (O55). -/

namespace Sys2Proof.Machine

open Sys2Proof.Safety

/-! ### The header's bytes (R200-R203) -/

/-- A channel of a table entry is a byte of its word. -/
theorem extractLsb'_eq_ofNat_div (e : Word32) (k : Nat) : e.extractLsb' k 8 = BitVec.ofNat 8 (e.toNat / 2 ^ k) := by
  rw [BitVec.extractLsb', Nat.shiftRight_eq_div_pow]

theorem entryBytes_eq (alpha : BitVec 1) (e : Word32) :
    entryBytes alpha e =
      [BitVec.ofNat 8 (e.toNat / 2 ^ 24), BitVec.ofNat 8 (e.toNat / 2 ^ 16), BitVec.ofNat 8 (e.toNat / 2 ^ 8)]
        ++ (if alpha = 1 then [BitVec.ofNat 8 e.toNat] else []) := by
  simp only [entryBytes, extractLsb'_eq_ofNat_div, Nat.pow_zero, Nat.div_one]

theorem length_entryBytes (alpha : BitVec 1) (e : Word32) : (entryBytes alpha e).length = 3 + alpha.toNat := by
  obtain rfl | rfl := BitVec.eq_zero_or_eq_one alpha <;> rfl

theorem length_flatMap_entryBytes (alpha : BitVec 1) (table : List Word32) :
    (table.flatMap (entryBytes alpha)).length = table.length * (3 + alpha.toNat) := by
  simp [List.length_flatMap, length_entryBytes]

theorem length_magic : magic.length = 4 := rfl

theorem length_headerBytes (w h : Nat) (alpha : BitVec 1) (table : List Word32) :
    (headerBytes w h alpha table).length =
      4 + (varIntEncode w).length + (varIntEncode h).length + 1 + table.length * (3 + alpha.toNat) := by
  simp only [headerBytes, List.length_append, length_flatMap_entryBytes, List.length_singleton, length_magic]

/-! ### CWHDR (R205) -/

section Cwhdr

variable {s : State}

theorem not_badTable (nonempty : s.ctLen ≠ 0) (short : s.ctLen.toNat ≤ 8) :
    ¬ (s.ctLen = 0 ∨ tooLong s.ctLen = true) :=
  not_or.mpr ⟨nonempty, ne_true_of_eq_false ((tooLong_eq_false_iff _).mpr short)⟩

theorem exec_cwhdr_of_open (opened : s.status.cwOpen = true) :
    exec .cwhdr s = .next (errorEntry ⟨.illegalCommand, s.inPos⟩ (encode .cwhdr) s) := by
  rw [exec_eq_complete, attempt, cwhdr, if_pos opened, illegal, complete_error]

variable (closed : s.status.cwOpen = false)
include closed

theorem exec_cwhdr_of_badTable (bad : s.ctLen = 0 ∨ 8 < s.ctLen.toNat) :
    exec .cwhdr s = .next (errorEntry ⟨.invalidPalette, s.inPos⟩ (encode .cwhdr) s) := by
  have bad : s.ctLen = 0 ∨ tooLong s.ctLen = true := bad.imp_right (tooLong_iff _).mpr
  rw [exec_eq_complete, attempt, cwhdr, if_neg (ne_true_of_eq_false closed), if_pos bad, complete_error]

variable (nonempty : s.ctLen ≠ 0) (short : s.ctLen.toNat ≤ 8)
include nonempty short

theorem exec_cwhdr_of_large (large : 2 ^ 64 ≤ s.width.toNat * s.height.toNat) :
    exec .cwhdr s = .next (errorEntry ⟨.overflow, s.inPos⟩ (encode .cwhdr) s) := by
  rw [exec_eq_complete, attempt, cwhdr, if_neg (ne_true_of_eq_false closed),
    if_neg (not_badTable nonempty short), if_pos large, complete_error]

theorem exec_cwhdr_of_fits (fits : s.width.toNat * s.height.toNat < 2 ^ 64) :
    exec .cwhdr s = .next (openWriter (s.width.toNat * s.height.toNat)
      (emit (headerBytes s.width.toNat s.height.toNat s.alpha (tableOf s)) s)) := by
  rw [exec_eq_complete, attempt, cwhdr, if_neg (ne_true_of_eq_false closed),
    if_neg (not_badTable nonempty short), if_neg fits.not_ge, complete_ok]

end Cwhdr

theorem length_tableOf_of_le {s : State} (short : s.ctLen.toNat ≤ 8) : (tableOf s).length = s.ctLen.toNat := by
  rw [length_tableOf, Nat.min_eq_left short]

/-- Settles O50: CWHDR's checks in order, and past them it emits `headerBytes` and opens the writer. -/
theorem cwhdrWritesTheHeader : Obligations.CwhdrWritesTheHeader := by
  refine ⟨?writes, fun _ => exec_cwhdr_of_open, fun _ => exec_cwhdr_of_badTable, fun _ => exec_cwhdr_of_large⟩
  case writes =>
    intro s closed nonempty short fits
    have entries : (tableOf s).length = s.ctLen.toNat := length_tableOf_of_le short
    have total : BitVec.ofNat 64 (s.width.toNat * s.height.toNat) = s.width * s.height := by
      simp [BitVec.ofNat_mul]
    refine ⟨headerBytes s.width.toNat s.height.toNat s.alpha (tableOf s), ?_, ?_, ?_⟩
    · rw [exec_cwhdr_of_fits closed nonempty short fits, openWriter, total]
      rfl
    · rw [headerBytes, flagsByte, entries, List.flatMap_def, funext (entryBytes_eq s.alpha)]
      rfl
    · rw [length_headerBytes, entries]

/-! ### CWRUN (R208) -/

section Cwrun

variable {s : State}

theorem exec_cwrun_of_illegal (h : s.status.cwOpen = false ∨ idxInTable s = false) :
    exec .cwrun s = .next (errorEntry ⟨.illegalCommand, s.inPos⟩ (encode .cwrun) s) := by
  have raised : cwrun s = illegal s := by
    obtain closed | outside := h
    · rw [cwrun, if_pos closed]
    · rw [cwrun, if_pos outside, ite_self]
  rw [exec_eq_complete, attempt, raised, illegal, complete_error]

variable (opened : s.status.cwOpen = true) (inside : idxInTable s = true)
include opened inside

theorem exec_cwrun_of_zero (zero : s.rLen = 0) :
    exec .cwrun s = .next (errorEntry ⟨.overflow, s.inPos⟩ (encode .cwrun) s) := by
  simp [exec_eq_complete, attempt, cwrun, opened, inside, zero]

variable (nonempty : s.rLen ≠ 0)
include nonempty

theorem exec_cwrun_of_beyond (beyond : s.cwTot.toNat - s.cwCnt.toNat < s.rLen.toNat) :
    exec .cwrun s = .next (errorEntry ⟨.pixelCountMismatch, s.inPos⟩ (encode .cwrun) s) := by
  rw [exec_eq_complete, attempt, cwrun, if_neg (ne_false_of_eq_true opened), if_neg (ne_false_of_eq_true inside),
    if_neg nonempty, if_pos beyond, complete_error]

theorem exec_cwrun_of_room (room : s.rLen.toNat ≤ s.cwTot.toNat - s.cwCnt.toNat) :
    exec .cwrun s = .next (appendPixels (wireIdx s) s.rLen s) := by
  rw [exec_eq_complete, attempt, cwrun, if_neg (ne_false_of_eq_true opened), if_neg (ne_false_of_eq_true inside),
    if_neg nonempty, if_neg room.not_gt, complete_ok]

end Cwrun

/-- Settles O52: with room, CWRUN appends RLEN pixels of the wire index, in the three cases of the pending run. -/
theorem cwrunAddsOneRun : Obligations.CwrunAddsOneRun := by
  refine ⟨?adds, ?illegal, ?zero, ?beyond⟩
  case adds =>
    intro s w _ opened positive small inTable index nonempty room
    have inside : idxInTable s = true := (idxInTable_iff s).mpr ⟨positive, small, inTable⟩
    rw [exec_cwrun_of_room opened inside nonempty (by omega), wireIdx_eq index]
    exact ⟨fun pending same => congrArg _ (appendPixels_same s.rLen pending same),
      fun pending other => congrArg _ (appendPixels_other s.rLen pending other),
      fun empty => congrArg _ (appendPixels_first s.rLen empty)⟩
  case illegal =>
    intro s h
    exact exec_cwrun_of_illegal (h.imp_right (idxInTable_eq_false_iff s).mpr)
  case zero =>
    intro s opened positive small inTable zero
    exact exec_cwrun_of_zero opened ((idxInTable_iff s).mpr ⟨positive, small, inTable⟩) zero
  case beyond =>
    intro s opened positive small inTable nonempty accepted beyond
    exact exec_cwrun_of_beyond opened ((idxInTable_iff s).mpr ⟨positive, small, inTable⟩) nonempty (by omega)

/-! ### CWRUN as repeated CWPIX (R208) -/

theorem cwRIdx_appendPixels (i : BitVec 3) (m : Word64) (s : State) : (appendPixels i m s).cwRIdx = i := by
  unfold appendPixels
  split
  · next same => exact same.2
  · rfl

/-- Pixels of one index appended in two parts are appended at once, as long as the first part left a pending run. -/
theorem appendPixels_appendPixels {i : BitVec 3} {m n : Word64} {s : State}
    (pending : (appendPixels i m s).cwRLen ≠ 0) :
    appendPixels i n (appendPixels i m s) = appendPixels i (m + n) s := by
  rw [appendPixels_same n pending (cwRIdx_appendPixels i m s)]
  by_cases same : s.cwRLen ≠ 0 ∧ s.cwRIdx = i
  · rw [appendPixels, if_pos same, appendPixels, if_pos same]
    simp only [BitVec.add_assoc]
  · rw [appendPixels, if_neg same, appendPixels, if_neg same]
    simp only [BitVec.add_assoc]

/-- What the writer still checks after appending pixels stays as it was. -/
theorem kept_appendPixels (i : BitVec 3) (m : Word64) (s : State) :
    (appendPixels i m s).status = s.status ∧ (appendPixels i m s).cwTot = s.cwTot
      ∧ (appendPixels i m s).cwCnt = s.cwCnt + m ∧ idxInTable (appendPixels i m s) = idxInTable s
      ∧ wireIdx (appendPixels i m s) = wireIdx s ∧ (appendPixels i m s).ctLen = s.ctLen := by
  unfold appendPixels
  split <;> exact ⟨rfl, rfl, rfl, rfl, rfl, rfl⟩

/-- Once pixels are accepted, an open writer has a pending run (R205, R206). -/
theorem cwRLen_appendPixels_ne_zero {s : State} (i : BitVec 3) {m : Word64} (ok : WriterOk s)
    (opened : s.status.cwOpen = true) (nonzero : m ≠ 0) (within : s.cwCnt.toNat + m.toNat ≤ s.cwTot.toNat) :
    (appendPixels i m s).cwRLen ≠ 0 := by
  obtain ⟨-, -, whileOpen, -⟩ := writerOk_appendPixels i ok opened nonzero within
  obtain ⟨status, -, cwCnt, -⟩ := kept_appendPixels i m s
  have counted : (s.cwCnt + m).toNat = s.cwCnt.toNat + m.toNat := toNat_add_of_le within
  have positive : 0 < m.toNat := BitVec.toNat_pos_of_ne_zero nonzero
  rw [ne_eq, whileOpen (status ▸ opened), cwCnt, ← toNat_eq_zero_iff, counted]
  omega

/-- `k + 1` pixels one by one are `k + 1` pixels at once. -/
theorem repeatExec_cwpix {k : Nat} {s : State} (ok : WriterOk s) (opened : s.status.cwOpen = true)
    (inside : idxInTable s = true) (room : s.cwCnt.toNat + (k + 1) ≤ s.cwTot.toNat) :
    repeatExec .cwpix (k + 1) s = .next (appendPixels (wireIdx s) (BitVec.ofNat 64 (k + 1)) s) := by
  induction k generalizing s with
  | zero =>
    have notFull : s.cwCnt ≠ s.cwTot := fun full => by
      rw [full] at room
      omega
    rw [repeatExec, exec_cwpix_of_room opened inside notFull]
    rfl
  | succ k ih =>
    have one : (1 : Word64).toNat = 1 := rfl
    have notFull : s.cwCnt ≠ s.cwTot := fun full => by
      rw [full] at room
      omega
    have within : s.cwCnt.toNat + (1 : Word64).toNat ≤ s.cwTot.toNat := by omega
    obtain ⟨status, cwTot, cwCnt, inTable, index, -⟩ := kept_appendPixels (wireIdx s) 1 s
    have counted : (s.cwCnt + 1).toNat = s.cwCnt.toNat + 1 := toNat_add_of_le within
    have sum : 1 + BitVec.ofNat 64 (k + 1) = BitVec.ofNat 64 (k + 1 + 1) :=
      (BitVec.add_comm _ _).trans (BitVec.ofNat_add (k + 1) 1).symm
    rw [repeatExec, exec_cwpix_of_room opened inside notFull]
    calc repeatExec .cwpix (k + 1) (appendPixels (wireIdx s) 1 s)
        = .next (appendPixels (wireIdx s) (BitVec.ofNat 64 (k + 1)) (appendPixels (wireIdx s) 1 s)) := by
          rw [ih (writerOk_appendPixels _ ok opened (by decide) within) (status ▸ opened) (inTable ▸ inside)
            (by rw [cwCnt, counted, cwTot]; omega), index]
      _ = .next (appendPixels (wireIdx s) (BitVec.ofNat 64 (k + 1 + 1)) s) := by
          rw [appendPixels_appendPixels (cwRLen_appendPixels_ne_zero _ ok opened (by decide) within), sum]

/-- Settles O54: both sides append RLEN pixels of the wire index. -/
theorem cwrunIsRepeatedCwpix : Obligations.CwrunIsRepeatedCwpix := by
  intro s ok opened positive small inTable nonempty room
  have inside : idxInTable s = true := (idxInTable_iff s).mpr ⟨positive, small, inTable⟩
  obtain ⟨k, count⟩ : ∃ k, s.rLen.toNat = k + 1 :=
    Nat.exists_eq_succ_of_ne_zero (BitVec.toNat_pos_of_ne_zero nonempty).ne'
  have value : BitVec.ofNat 64 (k + 1) = s.rLen := by
    rw [← count, BitVec.ofNat_toNat, BitVec.setWidth_eq]
  rw [exec_cwrun_of_room opened inside nonempty (by omega), count,
    repeatExec_cwpix ok opened inside (by omega), value]

/-! ### Merging a sequence of runs (R185) -/

/-- The first merged record has the index of the first record. -/
theorem mergeRecords_cons_head (i : BitVec 3) (c : Nat) (rs : List (BitVec 3 × Nat)) :
    ∃ d more, mergeRecords ((i, c) :: rs) = (i, d) :: more := by
  simp only [mergeRecords]
  cases mergeRecords rs with
  | nil => exact ⟨c, [], rfl⟩
  | cons q more =>
    by_cases same : i = q.1
    · exact ⟨c + q.2, more, if_pos same⟩
    · exact ⟨c, q :: more, if_neg same⟩

/-- A record before one of another index is not merged with it. -/
theorem mergeRecords_cons_cons_other {i j : BitVec 3} (c d : Nat) (rs : List (BitVec 3 × Nat)) (other : i ≠ j) :
    mergeRecords ((i, c) :: (j, d) :: rs) = (i, c) :: mergeRecords ((j, d) :: rs) := by
  obtain ⟨d', more, head⟩ := mergeRecords_cons_head j d rs
  rw [mergeRecords, head]
  exact if_neg other

/-- Merging leaves no two neighbours of one index. -/
theorem mergeRecords_isChain (rs : List (BitVec 3 × Nat)) : (mergeRecords rs).IsChain fun a b => a.1 ≠ b.1 := by
  induction rs with
  | nil => exact .nil
  | cons r rs ih =>
    rw [mergeRecords]
    cases merged : mergeRecords rs with
    | nil => exact .singleton _
    | cons q more =>
      rw [merged] at ih
      dsimp only
      split
      · next same => exact ih.imp_head fun differ => same ▸ differ
      · next other => exact List.isChain_cons_cons.mpr ⟨other, ih⟩

/-! ### An image written run by run (R206, R208, R209) -/

/-- The pending run as a sequence of at most one run. -/
def pendingRuns (s : State) : List (BitVec 3 × Nat) :=
  if s.cwRLen = 0 then [] else [(s.cwRIdx, s.cwRLen.toNat)]

/-- The bytes of the maximal runs of a sequence. -/
def mergedBytes (runs : List (BitVec 3 × Nat)) : List Byte :=
  (mergeRecords runs).flatMap fun r => packRun r.1 r.2

/-- OUT once the writer has taken `runs` after its pending run, and packed all. -/
def finalOutput (s : State) (runs : List (BitVec 3 × Nat)) : List Byte :=
  s.output ++ mergedBytes (pendingRuns s ++ runs)

theorem mergedBytes_cons_cons_other {i j : BitVec 3} (c d : Nat) (rs : List (BitVec 3 × Nat)) (other : i ≠ j) :
    mergedBytes ((i, c) :: (j, d) :: rs) = packRun i c ++ mergedBytes ((j, d) :: rs) := by
  rw [mergedBytes, mergeRecords_cons_cons_other c d rs other]
  rfl

theorem finalOutput_nil (s : State) : finalOutput s [] = s.output ++ pendingBytes s := by
  rw [finalOutput, pendingRuns, pendingBytes]
  split <;> simp [mergedBytes, mergeRecords]

/-- Appending pixels does to OUT, now or once all is packed, what their run does before the runs to come. -/
theorem finalOutput_appendPixels {s : State} (i : BitVec 3) {m : Word64} (runs : List (BitVec 3 × Nat))
    (ok : WriterOk s) (nonzero : m ≠ 0) (within : s.cwCnt.toNat + m.toNat ≤ s.cwTot.toNat) :
    finalOutput (appendPixels i m s) runs = finalOutput s ((i, m.toNat) :: runs) := by
  by_cases empty : s.cwRLen = 0
  · rw [appendPixels_first m empty]
    simp only [finalOutput, pendingRuns, if_neg nonzero, if_pos empty]
    rfl
  by_cases same : s.cwRIdx = i
  · obtain ⟨pending, -⟩ := ok
    have positive : 0 < m.toNat := BitVec.toNat_pos_of_ne_zero nonzero
    have longer : (s.cwRLen + m).toNat = s.cwRLen.toNat + m.toNat := toNat_add_of_le (total := s.cwTot) (by omega)
    have stillPending : s.cwRLen + m ≠ 0 := by
      rw [ne_eq, ← toNat_eq_zero_iff, longer]
      omega
    have joined := mergeRecords_cons_cons_same i s.cwRLen.toNat m.toNat runs
    rw [appendPixels_same m empty same]
    simp only [finalOutput, pendingRuns, if_neg empty, if_neg stillPending, longer, same, mergedBytes,
      List.cons_append, List.nil_append, joined]
  · rw [appendPixels_other m empty same]
    simp only [finalOutput, pendingRuns, if_neg empty, if_neg nonzero, List.cons_append, List.nil_append,
      mergedBytes_cons_cons_other _ _ _ same, List.append_assoc]

/-- The state after the two register writes of PIXRUN (R93), before its CWRUN. -/
def withRun (i : BitVec 3) (n : Nat) (s : State) : State :=
  { s with idx := BitVec.ofNat 4 (i.toNat + 1), rLen := BitVec.ofNat 64 n }

theorem writeRuns_cons_of_next {i : BitVec 3} {n : Nat} {runs : List (BitVec 3 × Nat)} {s t : State}
    (performed : exec .cwrun (withRun i n s) = .next t) : writeRuns ((i, n) :: runs) s = writeRuns runs t := by
  rw [withRun] at performed
  rw [writeRuns, performed]

section Pixrun

variable {s : State} {i : BitVec 3} {n : Nat} (positive : 1 ≤ n) (within : s.cwCnt.toNat + n ≤ s.cwTot.toNat)
include within

theorem toNat_run_length : (BitVec.ofNat 64 n).toNat = n := by
  have total := s.cwTot.isLt
  rw [BitVec.toNat_ofNat]
  omega

include positive

theorem run_length_ne_zero : BitVec.ofNat 64 n ≠ 0 := by
  rw [ne_eq, ← toNat_eq_zero_iff, toNat_run_length within]
  omega

theorem exec_cwrun_withRun (opened : s.status.cwOpen = true) (inTable : i.toNat < s.ctLen.toNat) :
    exec .cwrun (withRun i n s) = .next (appendPixels i (BitVec.ofNat 64 n) (withRun i n s)) := by
  have count : (withRun i n s).rLen.toNat = n := toNat_run_length within
  have index : i.toNat + 1 = (withRun i n s).idx.toNat := by
    rw [withRun, BitVec.toNat_ofNat]
    omega
  have inside : idxInTable (withRun i n s) = true := by
    rw [idxInTable_iff, ← index]
    exact ⟨by omega, by omega, inTable⟩
  have room : (withRun i n s).rLen.toNat ≤ s.cwTot.toNat - s.cwCnt.toNat := by omega
  rw [exec_cwrun_of_room (s := withRun i n s) opened inside (run_length_ne_zero positive within) room, wireIdx_eq index]
  rfl

end Pixrun

/-- The runs are accepted one after the other, each within the pixels left, and CWEND packs the last of them. -/
theorem writeRuns_eq {s : State} {runs : List (BitVec 3 × Nat)} (ok : WriterOk s) (opened : s.status.cwOpen = true)
    (legal : RunsOk s.ctLen.toNat runs) (covers : s.cwCnt.toNat + runsTotal runs = s.cwTot.toNat) :
    ∃ t, writeRuns runs s = .next t ∧ t.status = s.status.withCwOpen false ∧ t.output = finalOutput s runs := by
  induction runs generalizing s with
  | nil =>
    have all : s.cwCnt = s.cwTot := BitVec.eq_of_toNat_eq covers
    exact ⟨_, exec_cwend_of_all opened all, rfl, (finalOutput_nil s).symm⟩
  | cons r runs ih =>
    obtain ⟨i, n⟩ := r
    obtain ⟨⟨positive, inTable⟩, legal⟩ := List.forall_mem_cons.mp legal
    have total : runsTotal ((i, n) :: runs) = n + runsTotal runs := rfl
    have within : s.cwCnt.toNat + n ≤ s.cwTot.toNat := by omega
    have count : (BitVec.ofNat 64 n).toNat = n := toNat_run_length within
    have nonempty : BitVec.ofNat 64 n ≠ 0 := run_length_ne_zero positive within
    have ok : WriterOk (withRun i n s) := ok
    have fits : (withRun i n s).cwCnt.toNat + (BitVec.ofNat 64 n).toNat ≤ (withRun i n s).cwTot.toNat :=
      count.symm ▸ within
    have counted : (s.cwCnt + BitVec.ofNat 64 n).toNat = s.cwCnt.toNat + (BitVec.ofNat 64 n).toNat :=
      toNat_add_of_le fits
    obtain ⟨status, cwTot, cwCnt, -, -, ctLen⟩ := kept_appendPixels i (BitVec.ofNat 64 n) (withRun i n s)
    have covered : (s.cwCnt + BitVec.ofNat 64 n).toNat + runsTotal runs = s.cwTot.toNat := by omega
    obtain ⟨t, written, closed, output⟩ := ih (writerOk_appendPixels i ok opened nonempty fits)
      (status ▸ opened) (ctLen ▸ legal) (by rw [cwCnt, cwTot]; exact covered)
    refine ⟨t, ?_, ?_, ?_⟩
    · rw [writeRuns_cons_of_next (exec_cwrun_withRun positive within opened inTable), written]
    · rw [closed, status]
      rfl
    · rw [output, finalOutput_appendPixels i runs ok nonempty fits, count]
      rfl

/-- Settles O55: CWHDR opens the writer with nothing pending, and the runs cover the pixels it counts. -/
theorem writerPacksMaximalRuns : Obligations.WriterPacksMaximalRuns := by
  intro s runs closed nonempty short covers small legal
  have fits : s.width.toNat * s.height.toNat < 2 ^ 64 := covers ▸ small
  have performed := exec_cwhdr_of_fits closed nonempty short fits
  have total : (BitVec.ofNat 64 (s.width.toNat * s.height.toNat)).toNat = s.width.toNat * s.height.toNat := by
    rw [BitVec.toNat_ofNat, Nat.mod_eq_of_lt fits]
  obtain ⟨t, written, status, output⟩ := writeRuns_eq (runs := runs)
    (s := openWriter (s.width.toNat * s.height.toNat)
      (emit (headerBytes s.width.toNat s.height.toNat s.alpha (tableOf s)) s))
    ⟨Nat.zero_le _, Nat.zero_le _, fun _ => ⟨fun _ => rfl, fun _ => rfl⟩, fun closed => nomatch closed⟩
    rfl legal (by rw [openWriter_cwCnt, openWriter_cwTot, total, ← covers]; exact Nat.zero_add _)
  refine ⟨_, t, performed, written, ?_, output, mergeRecords_isChain runs⟩
  rw [status, ← closed]
  rfl

end Sys2Proof.Machine
end

section
/-! The container header read back (R200-R204, R210, R212): each stage of the parser on the bytes it looks at, the
header that CRHDR takes (O56), the errors it raises at the first bad byte (O57), and the header CWHDR writes (O58). -/

namespace Sys2Proof.Machine

open Sys2Proof.Safety

/-! ### The magic (R201) -/

theorem checkMagic_append (pos : Nat) (ms bs : List Byte) : checkMagic pos ms (ms ++ bs) = .ok () := by
  induction ms generalizing pos with
  | nil => rfl
  | cons m ms ih => rw [List.cons_append, checkMagic, if_pos rfl, ih]

theorem checkMagic_cut {pos j : Nat} {ms : List Byte} (short : j < ms.length) :
    checkMagic pos ms (ms.take j) = .error ⟨.truncatedInput, pos + j⟩ := by
  induction ms generalizing pos j with
  | nil => exact absurd short (Nat.not_lt_zero j)
  | cons m ms ih =>
    cases j with
    | zero => rfl
    | succ j =>
      rw [List.take_succ_cons, checkMagic, if_pos rfl, ih (Nat.lt_of_succ_lt_succ short), Nat.add_right_comm,
        Nat.add_assoc]

theorem checkMagic_bad {pos j : Nat} {ms : List Byte} {b : Byte} (bs : List Byte) (inside : j < ms.length)
    (differ : b ≠ ms[j]) : checkMagic pos ms (ms.take j ++ b :: bs) = .error ⟨.badMagic, pos + j⟩ := by
  induction ms generalizing pos j with
  | nil => exact absurd inside (Nat.not_lt_zero j)
  | cons m ms ih =>
    cases j with
    | zero => exact if_neg differ
    | succ j =>
      rw [List.take_succ_cons, List.cons_append, checkMagic, if_pos rfl,
        ih (Nat.lt_of_succ_lt_succ inside) differ, Nat.add_right_comm, Nat.add_assoc]

/-! ### One stage after another (R210) -/

section Stages

variable {s : State} {e : Raise}

/-- A VarInt is decoded from the bytes at its place. -/
theorem varIntDecodeAt_append {front bs : List Byte} {p : Nat} (input : s.input = front ++ bs)
    (place : p = front.length) : varIntDecodeAt p s = varIntDecode (s.inPos + p) bs := by
  rw [varIntDecodeAt, input, place, List.drop_left]

theorem parseHeader_of_magic_error (failed : checkMagic s.inPos magic s.input = .error e) :
    parseHeader s = .error e := by
  rw [parseHeader, failed]

theorem parseHeader_of_width_error {bs : List Byte} (input : s.input = magic ++ bs)
    (failed : varIntDecode (s.inPos + 4) bs = .error e) : parseHeader s = .error e := by
  have width : varIntDecodeAt 4 s = .error e := (varIntDecodeAt_append input rfl).trans failed
  have found : checkMagic s.inPos magic s.input = .ok () := input ▸ checkMagic_append s.inPos magic bs
  simp only [parseHeader, found, length_magic, width]

variable {vw bs : List Byte} {w : Nat} (input : s.input = magic ++ vw ++ bs) (isWidth : IsVarInt vw w)
include input isWidth

theorem parseHeader_of_height_error (failed : varIntDecode (s.inPos + (4 + vw.length)) bs = .error e) :
    parseHeader s = .error e := by
  have height : varIntDecodeAt (4 + vw.length) s = .error e :=
    (varIntDecodeAt_append input List.length_append.symm).trans failed
  rw [List.append_assoc] at input
  have found : checkMagic s.inPos magic s.input = .ok () := input ▸ checkMagic_append s.inPos magic _
  have width : varIntDecodeAt 4 s = .ok (w, vw.length) :=
    (varIntDecodeAt_append input rfl).trans (varIntDecode_of_isVarInt _ _ isWidth)
  simp only [parseHeader, found, length_magic, width, height]

end Stages

section BothSides

variable {s : State} {vw vh bs : List Byte} {w h : Nat} (input : s.input = magic ++ vw ++ vh ++ bs)
  (isWidth : IsVarInt vw w) (isHeight : IsVarInt vh h)
include input isWidth isHeight

/-- Past magic, width and height the parser checks W*H and goes on to flags and table. -/
theorem parseHeader_of_sides :
    parseHeader s =
      if 2 ^ 64 ≤ w * h then .error ⟨.overflow, s.inPos + (4 + vw.length + vh.length) - 1⟩
      else (parseTable (4 + vw.length + vh.length) s).map fun r => ⟨w, h, r.1, r.2.1, r.2.2⟩ := by
  rw [List.append_assoc] at input
  have height : varIntDecodeAt (4 + vw.length) s = .ok (h, vh.length) :=
    (varIntDecodeAt_append input List.length_append.symm).trans (varIntDecode_of_isVarInt _ _ isHeight)
  rw [List.append_assoc] at input
  have found : checkMagic s.inPos magic s.input = .ok () := input ▸ checkMagic_append s.inPos magic _
  have width : varIntDecodeAt 4 s = .ok (w, vw.length) :=
    (varIntDecodeAt_append input rfl).trans (varIntDecode_of_isVarInt _ _ isWidth)
  simp only [parseHeader, found, length_magic, width, height]
  cases parseTable (4 + vw.length + vh.length) s <;> rfl

variable (fits : w * h < 2 ^ 64)
include fits

theorem parseHeader_of_table_error {e : Raise} (failed : parseTable (magic ++ vw ++ vh).length s = .error e) :
    parseHeader s = .error e := by
  rw [List.length_append, List.length_append, length_magic] at failed
  rw [parseHeader_of_sides input isWidth isHeight, if_neg fits.not_ge, failed]
  rfl

theorem parseHeader_of_table {a : BitVec 1} {table : List Word32} {size : Nat}
    (parsed : parseTable (magic ++ vw ++ vh).length s = .ok (a, table, size)) :
    parseHeader s = .ok ⟨w, h, a, table, size⟩ := by
  rw [List.length_append, List.length_append, length_magic] at parsed
  rw [parseHeader_of_sides input isWidth isHeight, if_neg fits.not_ge, parsed]
  rfl

end BothSides

/-! ### Flags and colour table (R202, R203) -/

/-- ALPHA is the top bit of the flags byte. -/
theorem toNat_flag_alpha (f : Byte) : (f.extractLsb' 7 1).toNat = f.toNat / 128 := by
  rw [BitVec.extractLsb'_toNat, Nat.shiftRight_eq_div_pow]
  omega

/-- An entry is read from the bytes at its place, wherever these stand. -/
theorem readEntry_append (alpha : BitVec 1) (front bs : List Byte) (q : Nat) :
    readEntry alpha (front ++ bs) (front.length + q) = readEntry alpha bs q := by
  have shifted : ∀ k, (front ++ bs).getD (front.length + k) 0 = bs.getD k 0 := fun k => by
    rw [List.getD_append_right _ _ _ _ (Nat.le_add_right _ _), Nat.add_sub_cancel_left]
  simp only [readEntry, Nat.add_assoc, shifted]

theorem readTable_append (alpha : BitVec 1) (front bs : List Byte) (n : Nat) :
    readTable alpha (front ++ bs) front.length n = readTable alpha bs 0 n := by
  simp only [readTable, readEntry_append, Nat.zero_add]

/-- The bytes after a whole entry do not matter to it. -/
theorem readEntry_append_left {alpha : BitVec 1} {bs : List Byte} (rest : List Byte) {q : Nat}
    (whole : q + entrySize alpha ≤ bs.length) : readEntry alpha (bs ++ rest) q = readEntry alpha bs q := by
  have kept : ∀ k, k < bs.length → (bs ++ rest).getD k 0 = bs.getD k 0 := fun k => List.getD_append _ _ _ k
  rw [entrySize] at whole
  simp only [readEntry]
  rw [kept q (by omega), kept (q + 1) (by omega), kept (q + 2) (by omega)]
  split
  · next one =>
    have four : alpha.toNat = 1 := one ▸ rfl
    rw [kept (q + 3) (by omega)]
  · rfl

section Table

variable {s : State} {front : List Byte}

/-- No flags byte. -/
theorem parseTable_end (input : s.input = front) :
    parseTable front.length s = .error ⟨.truncatedInput, s.inPos + s.input.length⟩ := by
  have missing : peek front.length s = none := by
    rw [peek_eq, input, List.getElem?_eq_none le_rfl]
  rw [parseTable, missing]
  rfl

/-- The flags byte `f`, with its count of colours, and the bytes `bs` the table is read from. -/
theorem parseTable_flags {f : Byte} {bs : List Byte} (input : s.input = front ++ f :: bs) :
    parseTable front.length s =
      if f.toNat % 128 = 0 ∨ 8 < f.toNat % 128 then .error ⟨.invalidPalette, s.inPos + front.length⟩
      else if bs.length < f.toNat % 128 * (3 + f.toNat / 128) then
        .error ⟨.truncatedInput, s.inPos + s.input.length⟩
      else .ok (f.extractLsb' 7 1, readTable (f.extractLsb' 7 1) bs 0 (f.toNat % 128),
        front.length + 1 + f.toNat % 128 * (3 + f.toNat / 128)) := by
  have present : peek front.length s = some f := by
    rw [peek_eq, input, List.getElem?_append_right le_rfl, Nat.sub_self, List.getElem?_cons_zero]
  have split : s.input = (front ++ [f]) ++ bs := by
    rw [input, List.append_assoc, List.singleton_append]
  have table : readTable (f.extractLsb' 7 1) s.input (front.length + 1) (f.toNat % 128)
      = readTable (f.extractLsb' 7 1) bs 0 (f.toNat % 128) := by
    rw [split, ← readTable_append _ (front ++ [f]), List.length_append, List.length_singleton]
  have short : inCnt s < front.length + 1 + f.toNat % 128 * (3 + f.toNat / 128)
      ↔ bs.length < f.toNat % 128 * (3 + f.toNat / 128) := by
    rw [inCnt, input, List.length_append, List.length_cons]
    omega
  rw [parseTable, present]
  simp only [entrySize, toNat_flag_alpha, table, short]
  rfl

end Table

/-! ### The errors of CRHDR (R210) -/

theorem exec_crhdr_of_open {s : State} (opened : s.status.crOpen = true) :
    exec .crhdr s = .next (errorEntry ⟨.illegalCommand, s.inPos⟩ (encode .crhdr) s) := by
  rw [exec_eq_complete, attempt, crhdr, if_pos opened, illegal, complete_error]

theorem exec_crhdr_of_error {s : State} {e : Raise} (closed : s.status.crOpen = false)
    (failed : parseHeader s = .error e) : exec .crhdr s = .next (errorEntry e (encode .crhdr) s) := by
  rw [exec_eq_complete, attempt, crhdr, if_neg (ne_true_of_eq_false closed), failed, complete_error]

theorem exec_crhdr_of_header {s : State} {hd : Header} (closed : s.status.crOpen = false)
    (parsed : parseHeader s = .ok hd) : exec .crhdr s = .next (consume hd.size (openReader hd s)) := by
  rw [exec_eq_complete, attempt, crhdr, if_neg (ne_true_of_eq_false closed), parsed, complete_ok]

/-- Settles O57: the stages of the parser in order, each on the bytes that make it fail. -/
theorem crhdrRaisesAtTheFirstBadByte : Obligations.CrhdrRaisesAtTheFirstBadByte := by
  refine ⟨fun _ => exec_crhdr_of_open, ?magicCut, ?magicBad, ?widthCut, ?widthLarge, ?heightCut, ?heightLarge,
    ?area, ?noFlags, ?badCount, ?tableCut⟩
  case magicCut =>
    intro s j closed short input
    exact exec_crhdr_of_error closed (parseHeader_of_magic_error (input ▸ checkMagic_cut (ms := magic) short))
  case magicBad =>
    intro s j b rest closed input differ
    have other : b ≠ magic[j.val]'j.isLt := fun same => differ (same.trans (by fin_cases j <;> rfl))
    exact exec_crhdr_of_error closed (parseHeader_of_magic_error (input ▸ checkMagic_bad rest j.isLt other))
  case widthCut =>
    intro s cs closed input flags small
    have failed := varIntDecode_truncated (s.inPos + 4) flags small
    rw [exec_crhdr_of_error closed (parseHeader_of_width_error input failed), input, List.length_append,
      ← Nat.add_assoc]
    rfl
  case widthLarge =>
    intro s cs rest b closed input flags small large
    rw [List.append_assoc] at input
    exact exec_crhdr_of_error closed
      (parseHeader_of_width_error input (varIntDecode_overflow (s.inPos + 4) rest flags small large))
  case heightCut =>
    intro s vw cs w closed input isWidth flags small
    have failed := varIntDecode_truncated (s.inPos + (4 + vw.length)) flags small
    rw [Nat.add_assoc s.inPos] at failed
    rw [exec_crhdr_of_error closed (parseHeader_of_height_error input isWidth failed), input, List.length_append,
      List.length_append]
    rfl
  case heightLarge =>
    intro s vw cs rest w b closed input isWidth flags small large
    rw [List.append_assoc] at input
    have failed := varIntDecode_overflow (s.inPos + (4 + vw.length)) rest flags small large
    rw [exec_crhdr_of_error closed (parseHeader_of_height_error input isWidth failed), ← Nat.add_assoc]
  case area =>
    intro s vw vh rest w h closed input isWidth isHeight large
    have failed := parseHeader_of_sides input isWidth isHeight
    rw [if_pos large] at failed
    rw [exec_crhdr_of_error closed failed, ← Nat.add_assoc, ← Nat.add_assoc]
  case noFlags =>
    intro s vw vh w h closed input isWidth isHeight fits
    have whole : s.input = magic ++ vw ++ vh ++ [] := input.trans (List.append_nil _).symm
    exact exec_crhdr_of_error closed
      (parseHeader_of_table_error whole isWidth isHeight fits (parseTable_end input))
  case badCount =>
    intro s vw vh rest w h f closed input isWidth isHeight fits bad
    have failed := parseTable_flags (front := magic ++ vw ++ vh) input
    have place : s.inPos + (magic ++ vw ++ vh).length = s.inPos + 4 + vw.length + vh.length := by
      rw [List.length_append, List.length_append, ← Nat.add_assoc, ← Nat.add_assoc]
      rfl
    rw [if_pos bad, place] at failed
    exact exec_crhdr_of_error closed (parseHeader_of_table_error input isWidth isHeight fits failed)
  case tableCut =>
    intro s vw vh tb w h f closed input isWidth isHeight fits colours eight short
    have failed := parseTable_flags (front := magic ++ vw ++ vh) input
    rw [if_neg (by omega), if_pos short] at failed
    exact exec_crhdr_of_error closed (parseHeader_of_table_error input isWidth isHeight fits failed)

/-! ### A whole header (R210) -/

/-- The flags byte is ALPHA and the count of colours. -/
theorem flags_fields {f : Byte} {a : BitVec 1} {n : Nat} (flags : f.toNat = a.toNat * 128 + n) (eight : n ≤ 8) :
    f.toNat % 128 = n ∧ f.toNat / 128 = a.toNat ∧ f.extractLsb' 7 1 = a := by
  have alpha : f.toNat / 128 = a.toNat := by omega
  exact ⟨by omega, alpha, BitVec.eq_of_toNat_eq ((toNat_flag_alpha f).trans alpha)⟩

/-- A header is parsed whatever follows it. -/
theorem parseHeader_eq {s : State} {vw vh tb rest : List Byte} {w h n : Nat} {f : Byte} {a : BitVec 1}
    (input : s.input = magic ++ vw ++ vh ++ [f] ++ tb ++ rest) (isWidth : IsVarInt vw w)
    (isHeight : IsVarInt vh h) (fits : w * h < 2 ^ 64) (flags : f.toNat = a.toNat * 128 + n) (colours : 1 ≤ n)
    (eight : n ≤ 8) (size : tb.length = n * (3 + a.toNat)) :
    parseHeader s = .ok ⟨w, h, a, readTable a (tb ++ rest) 0 n, 4 + vw.length + vh.length + 1 + tb.length⟩ := by
  obtain ⟨count, alpha, bit⟩ := flags_fields flags eight
  have input : s.input = magic ++ vw ++ vh ++ f :: (tb ++ rest) := by
    rw [input, List.append_assoc, List.append_assoc, List.singleton_append]
  have complete : ¬ (tb ++ rest).length < n * (3 + a.toNat) := by
    rw [List.length_append]
    omega
  have parsed := parseTable_flags (front := magic ++ vw ++ vh) input
  rw [count, alpha, bit, if_neg (by omega), if_neg complete, ← size] at parsed
  rw [parseHeader_of_table input isWidth isHeight fits parsed, List.length_append, List.length_append]
  rfl

theorem length_readTable (alpha : BitVec 1) (bs : List Byte) (p n : Nat) : (readTable alpha bs p n).length = n := by
  simp [readTable]

theorem getElem_tableFile (table : List Word32) (j : Fin 8) : (tableFile table)[j] = table.getD j.val 0 := by
  simp [tableFile]

/-- The register file after CRHDR: the entries of the table, each in its bytes, and 0 past its end. -/
theorem getElem_tableFile_readTable {a : BitVec 1} {tb : List Byte} {n : Nat} (rest : List Byte)
    (size : tb.length = n * (3 + a.toNat)) (j : Fin 8) :
    (tableFile (readTable a (tb ++ rest) 0 n))[j] =
      if j.val < n then readEntry a tb ((3 + a.toNat) * j.val) else 0 := by
  rw [getElem_tableFile]
  split
  · next inside =>
    have whole : (3 + a.toNat) * j.val + entrySize a ≤ tb.length := by
      rw [size, entrySize, ← Nat.mul_succ, Nat.mul_comm n]
      exact Nat.mul_le_mul_left _ inside
    rw [List.getD_eq_getElem _ _ ((length_readTable ..).symm ▸ inside), ← readEntry_append_left rest whole]
    simp [readTable, entrySize]
  · next outside => exact List.getD_eq_default _ _ ((length_readTable ..).symm ▸ Nat.not_lt.mp outside)

/-- Settles O56: CRHDR takes the parsed header, and reads each entry in its own bytes. -/
theorem crhdrReadsTheHeader : Obligations.CrhdrReadsTheHeader := by
  intro s vw vh tb rest w h n f a closed input isWidth isHeight fits flags colours eight size
  have parsed := parseHeader_eq input isWidth isHeight fits flags colours eight size
  refine ⟨tableFile (readTable a (tb ++ rest) 0 n), ?_, fun j => getElem_tableFile_readTable rest size j⟩
  have header : s.input = (magic ++ vw ++ vh ++ [f] ++ tb) ++ rest := input
  have length : 4 + vw.length + vh.length + 1 + tb.length = (magic ++ vw ++ vh ++ [f] ++ tb).length := by
    simp only [List.length_append]
    rfl
  rw [exec_crhdr_of_header closed parsed]
  simp only [consume, openReader, length_readTable, Status.withCrOpen]
  rw [length, header, List.drop_left]

/-! ### The header CWHDR writes (R205, R212) -/

/-- A table entry after a round trip: the marker is written only with ALPHA = 1, and read as 255 without. -/
def reread (alpha : BitVec 1) (e : Word32) : Word32 := if alpha = 1 then e else e.extractLsb' 8 24 ++ 0xFF#8

theorem readEntry_entryBytes (alpha : BitVec 1) (e : Word32) (rest : List Byte) :
    readEntry alpha (entryBytes alpha e ++ rest) 0 = reread alpha e := by
  have redGreen : e.extractLsb' 24 8 ++ e.extractLsb' 16 8 = e.extractLsb' 16 16 :=
    BitVec.extractLsb'_append_extractLsb'_eq_extractLsb' rfl
  have color : e.extractLsb' 24 8 ++ e.extractLsb' 16 8 ++ e.extractLsb' 8 8 = e.extractLsb' 8 24 := by
    rw [redGreen]
    exact BitVec.extractLsb'_append_extractLsb'_eq_extractLsb' rfl
  have whole : e.extractLsb' 8 24 ++ e.extractLsb' 0 8 = e.extractLsb' 0 32 :=
    BitVec.extractLsb'_append_extractLsb'_eq_extractLsb' rfl
  obtain rfl | rfl := BitVec.eq_zero_or_eq_one alpha
  · exact congrArg (· ++ (0xFF : Byte)) color
  · exact (congrArg (· ++ e.extractLsb' 0 8) color).trans (whole.trans BitVec.extractLsb'_eq_self)

/-- Entry by entry the table's bytes read back as the table. -/
theorem readTable_entryBytes (alpha : BitVec 1) (table : List Word32) (rest : List Byte) :
    readTable alpha (table.flatMap (entryBytes alpha) ++ rest) 0 table.length = table.map (reread alpha) := by
  induction table with
  | nil => rfl
  | cons e table ih =>
    have place : ∀ j, 0 + entrySize alpha * (j + 1) = (entryBytes alpha e).length + (0 + entrySize alpha * j) := by
      intro j
      rw [length_entryBytes, entrySize]
      ring
    rw [List.flatMap_cons, List.append_assoc, List.length_cons, readTable, List.range_succ_eq_map, List.map_cons,
      List.map_map, List.map_cons, Nat.mul_zero, Nat.zero_add, readEntry_entryBytes, ← ih]
    simp only [readTable, Function.comp_def, Nat.succ_eq_add_one, place, readEntry_append]

/-- A table of at most 8 entries comes back from CT and CTLEN. -/
theorem tableOf_of_tableFile {t : State} {table : List Word32} (short : table.length ≤ 8)
    (ct : t.ct = tableFile table) (ctLen : t.ctLen = BitVec.ofNat 4 table.length) : tableOf t = table := by
  have count : t.ctLen.toNat = table.length := by
    rw [ctLen, BitVec.toNat_ofNat]
    omega
  have size : (tableOf t).length = table.length := (length_tableOf_of_le (count.trans_le short)).trans count
  refine List.ext_getElem size fun j inTable inside => ?_
  have entry := getElem_tableFile table ⟨j, by omega⟩
  rw [getElem_tableOf]
  simp only [ct]
  exact entry.trans (List.getD_eq_getElem _ _ inside)

/-- Settles O58: the header's bytes are a header of VarInts with the table's entries, so CRHDR takes it. -/
theorem headerRoundTrip : Obligations.HeaderRoundTrip := by
  intro s w h a table rest closed smallW smallH fits nonempty eight input
  have colours : 1 ≤ table.length := List.length_pos_of_ne_nil nonempty
  have flags : (flagsByte a table.length).toNat = a.toNat * 128 + table.length := by
    have bit := a.isLt
    rw [flagsByte, BitVec.toNat_ofNat]
    omega
  have parsed := parseHeader_eq (tb := table.flatMap (entryBytes a)) input (isVarInt_varIntEncode smallW)
    (isVarInt_varIntEncode smallH) fits flags colours eight (length_flatMap_entryBytes a table)
  have size : 4 + (varIntEncode w).length + (varIntEncode h).length + 1 + (table.flatMap (entryBytes a)).length
      = (headerBytes w h a table).length := by
    rw [length_headerBytes, length_flatMap_entryBytes]
  rw [readTable_entryBytes, size] at parsed
  have exact64 : ∀ n < 2 ^ 64, (BitVec.ofNat 64 n).toNat = n := fun n small => by
    rw [BitVec.toNat_ofNat, Nat.mod_eq_of_lt small]
  have entries : (table.map (reread a)).length ≤ 8 := by rwa [List.length_map]
  refine ⟨_, exec_crhdr_of_header closed parsed, exact64 w smallW, exact64 h smallH, rfl,
    tableOf_of_tableFile entries rfl rfl, exact64 _ fits, ?_, rfl, rfl⟩
  rw [consume_input, openReader_input, input, List.drop_left]

end Sys2Proof.Machine
end

section
/-! Reading an image record by record (R185, R211, R212, R275): the reader returns the records of the stream up to the
last one that covers the image, and these merge and expand to the runs (O60). -/

namespace Sys2Proof.Machine

open Sys2Proof.Safety

/-! ### The samples of a sequence of records (R185) -/

theorem runsTotal_cons (r : BitVec 3 × Nat) (rs : List (BitVec 3 × Nat)) :
    runsTotal (r :: rs) = r.2 + runsTotal rs := rfl

theorem runsTotal_flatMap_runRecords (runs : List (BitVec 3 × Nat)) :
    runsTotal (runs.flatMap fun r => runRecords r.1 r.2) = runsTotal runs := by
  induction runs with
  | nil => rfl
  | cons r runs ih =>
    rw [List.flatMap_cons, runsTotal, List.map_append, List.sum_append, runsTotal_cons, ← ih]
    exact congrArg (· + _) (runsTotal_runRecords r.1 r.2)

/-- Records of one index expand to as many samples as they count. -/
theorem expandRecords_of_index {i : BitVec 3} {rs : List (BitVec 3 × Nat)} (index : ∀ r ∈ rs, r.1 = i) :
    expandRecords rs = List.replicate (runsTotal rs) i := by
  induction rs with
  | nil => rfl
  | cons r rs ih =>
    obtain ⟨first, others⟩ := List.forall_mem_cons.mp index
    rw [runsTotal_cons, List.replicate_add, ← ih others, ← first]
    rfl

theorem expandRecords_flatMap_runRecords (runs : List (BitVec 3 × Nat)) :
    expandRecords (runs.flatMap fun r => runRecords r.1 r.2) = expandRecords runs := by
  have perRun : ∀ r : BitVec 3 × Nat, expandRecords (runRecords r.1 r.2) = List.replicate r.2 r.1 := fun r => by
    rw [expandRecords_of_index fun q hq => (mem_runRecords hq).1, runsTotal_runRecords]
  rw [expandRecords, List.flatMap_assoc]
  exact congrArg (runs.flatMap ·) (funext perRun)

theorem length_le_length_encodeRecords (rs : List (BitVec 3 × Nat)) : rs.length ≤ (encodeRecords rs).length := by
  induction rs with
  | nil => exact le_rfl
  | cons r rs ih =>
    have size : 1 ≤ (encodeRecord r.1 r.2).length := by
      rw [length_encodeRecord]
      split <;> omega
    rw [encodeRecords_cons, List.length_append, List.length_cons]
    omega

/-! ### The reader's loop (R275) -/

/-- The state after the record `(i, c)` of the stream is taken. -/
def afterRecord (i : BitVec 3) (c : Nat) (s : State) : State :=
  consume (encodeRecord i c).length (coverSamples c (setIdx (i.toNat + 1) (setRecord i c s)))

theorem afterRecord_input {i : BitVec 3} {c : Nat} {s : State} {bs : List Byte}
    (input : s.input = encodeRecord i c ++ bs) : (afterRecord i c s).input = bs := by
  rw [afterRecord, consume_input]
  exact (congrArg _ input).trans List.drop_left

theorem toNat_afterRecord_crRem (i : BitVec 3) (c : Nat) (s : State) :
    (afterRecord i c s).crRem.toNat = s.crRem.toNat - c := by
  rw [afterRecord, consume_crRem, coverSamples_crRem, BitVec.toNat_ofNat]
  exact Nat.mod_eq_of_lt ((Nat.sub_le _ c).trans_lt s.crRem.isLt)

theorem afterRecord_status (i : BitVec 3) (c : Nat) (s : State) :
    (afterRecord i c s).status = { s.status with crOpen := decide (0 < s.crRem.toNat - c) } := rfl

theorem toNat_afterRecord_rLen (i : BitVec 3) {c : Nat} (s : State) (count : IsRecordCount c) :
    (afterRecord i c s).rLen.toNat = c := by
  have fits : c < 2 ^ 64 := count.2.trans_lt (by norm_num)
  exact (BitVec.toNat_ofNat c 64).trans (Nat.mod_eq_of_lt fits)

theorem readRuns_closed (fuel : Nat) {s : State} (closed : s.status.crOpen = false) :
    readRuns fuel s = some ([], s) := by
  cases fuel <;> simp [readRuns, closed]

/-- One turn of the loop: a record taken without an error is collected. -/
theorem readRuns_succ_of_next {fuel : Nat} {s t : State} (opened : s.status.crOpen = true)
    (performed : exec .crrun s = .next t) (clear : t.status.err = false) :
    readRuns (fuel + 1) s = (readRuns fuel t).map fun p => ((t.rIdx, t.rLen.toNat) :: p.1, p.2) := by
  simp [readRuns, opened, performed, clear]

/-- The reader takes the records of its stream one after the other, and closes with the last. -/
theorem readRuns_encodeRecords {fuel : Nat} {s : State} {rs : List (BitVec 3 × Nat)} {rest : List Byte}
    (clear : s.status.err = false) (opened : s.status.crOpen = decide (0 < runsTotal rs))
    (counts : ∀ r ∈ rs, IsRecordCount r.2 ∧ r.1.toNat < s.ctLen.toNat) (covers : runsTotal rs = s.crRem.toNat)
    (input : s.input = encodeRecords rs ++ rest) (enough : rs.length ≤ fuel) :
    ∃ t, readRuns fuel s = some (rs, t) ∧ t.input = rest ∧ t.crRem = 0
      ∧ t.status = { s.status with crOpen := false } := by
  induction rs generalizing s fuel with
  | nil =>
    have closed : s.status.crOpen = false := opened
    exact ⟨s, readRuns_closed fuel closed, input, (toNat_eq_zero_iff _).mp covers.symm, by rw [← closed]⟩
  | cons r rs ih =>
    obtain ⟨i, c⟩ := r
    obtain ⟨⟨count, inTable⟩, counts⟩ := List.forall_mem_cons.mp counts
    have positive : 1 ≤ c := count.1
    obtain ⟨fuel, rfl⟩ : ∃ m, fuel = m + 1 := ⟨fuel - 1, by rw [List.length_cons] at enough; omega⟩
    have total : runsTotal ((i, c) :: rs) = c + runsTotal rs := rfl
    have opened : s.status.crOpen = true := opened.trans (decide_eq_true (by omega))
    rw [encodeRecords_cons, List.append_assoc] at input
    have record : decodeRecordAt s.inPos s.input = .ok (i, c, (encodeRecord i c).length) :=
      input ▸ decodeRecordAt_encodeRecord s.inPos i _ count
    have performed : exec .crrun s = .next (afterRecord i c s) :=
      exec_crrun_of_record opened record inTable (by omega)
    have left : s.crRem.toNat - c = runsTotal rs := by omega
    have status := afterRecord_status i c s
    rw [left] at status
    obtain ⟨t, read, taken, done, closed⟩ := ih (s := afterRecord i c s) clear (congrArg Status.crOpen status)
      counts (left.symm.trans (toNat_afterRecord_crRem i c s).symm) (afterRecord_input input)
      (Nat.le_of_succ_le_succ enough)
    refine ⟨t, ?_, taken, done, by rw [closed, status]⟩
    rw [readRuns_succ_of_next opened performed clear, read, toNat_afterRecord_rLen i s count]
    rfl

/-- Settles O60: the stream is the one of the runs' records, which cover the image. -/
theorem readerRecoversTheRuns : Obligations.ReaderRecoversTheRuns := by
  intro s runs rest opened clear nonempty legal covers input
  have total := runsTotal_flatMap_runRecords runs
  rw [flatMap_packRun_eq] at input
  have positive : 0 < runsTotal runs := by
    obtain ⟨r, others, rfl⟩ := List.exists_cons_of_ne_nil nonempty
    obtain ⟨counted, -⟩ := legal r (List.mem_cons_self ..)
    rw [runsTotal_cons]
    omega
  have counts : ∀ q ∈ runs.flatMap fun r => runRecords r.1 r.2, IsRecordCount q.2 ∧ q.1.toNat < s.ctLen.toNat := by
    intro q hq
    obtain ⟨r, hr, hq⟩ := List.mem_flatMap.mp hq
    obtain ⟨index, count⟩ := mem_runRecords hq
    exact ⟨count, index ▸ (legal r hr).2⟩
  have enough : (runs.flatMap fun r => runRecords r.1 r.2).length ≤ s.input.length := by
    rw [input, List.length_append]
    exact (length_le_length_encodeRecords _).trans (Nat.le_add_right _ _)
  obtain ⟨t, read, taken, done, closed⟩ := readRuns_encodeRecords clear
    (opened.trans (decide_eq_true (total.symm ▸ positive)).symm) counts (total.trans covers) input enough
  exact ⟨_, t, read, mergeRecords_flatMap_runRecords fun r hr => (legal r hr).1,
    expandRecords_flatMap_runRecords runs, taken, done, closed⟩

end Sys2Proof.Machine
end
